-- ==== Sys2Proof/Word.lean ====
section
/-! DEFINITION. The word types of OLEDPE (spec/00_scope.md R11, spec/10_state.md R27): every quantity is unsigned. -/

namespace Sys2Proof

/-- A byte: every transfer on the link, every operand of a wire command (30_encoding.md R90, R91). -/
abbrev Byte := BitVec 8

/-- An RGB565 pixel, moved whole (20_memory.md R61). -/
abbrev Color := BitVec 16

/-- A Unicode code point of a DRAW_STRING text (10_state.md R27). -/
abbrev CodePoint := Nat

/-- A wire byte (m, b): the mode-select level and the byte; false is `C:`, true is `D:` (30_encoding.md R90). -/
abbrev WireByte := Bool × Byte

end Sys2Proof
end

