-- ==== Sys2Proof/Config.lean ====
section
/-! DEFINITION. What is fixed for the machine (spec/00_scope.md R10), the parameters the spec leaves OPEN, and the
free values: constants without a body that stand for every ANY of the spec (00_scope.md R15). -/

namespace Sys2Proof

/-- WIDTH (R10). -/
def Config.width : Nat := 96

/-- HEIGHT (R10). -/
def Config.height : Nat := 64

/-- NGLYPH (R10, 42_rasterizer.md R170). -/
def Config.nGlyph : Nat := 15

/-- ADVANCE (R10, 42_rasterizer.md R177). -/
def Config.advance : Nat := 7

/-- T_RST_LOW_MIN (R10) in microseconds, the unit of the model's durations (log 23). -/
def Config.rstLowMin : Nat := 100000

/-- T_RST_HIGH_MIN (R10) in microseconds. -/
def Config.rstHighMin : Nat := 100000

/-- SPI_MODE (R10). -/
def Config.spiMode : Nat := 0

/-- The pixel RAM in bytes (10_state.md R48). -/
def Config.ramBytes : Nat := 12288

/-- ANY byte of PANEL: a free value by number of the draw and place (log 4). -/
opaque Config.freeByte : Nat → Nat → Byte

/-- ANY bit of PANEL: a free value by number of the draw and place (log 4). -/
opaque Config.freeBit : Nat → Nat → Bool

/-- The operand bytes an ANY command parser may hold: a free value by number of the draw (log 4, log 35). -/
opaque Config.freeOperands : Nat → List Byte

/-- What a byte of the pixel RAM that nothing has written holds: a free value by number of the draw that made the RAM
ANY and address (10_state.md R48, log 5). -/
opaque Config.freeRamByte : Nat → Nat → Byte

/-- How far a wait goes above its minimum: a free value by number of the wait (40_transport.md R124, log 23). -/
opaque Config.extraWait : Nat → Nat

/-- What CHARMAP has for a text element that is no Unicode code point: unmapped, or one of the glyph ids; a free value by
element, since no rule states it (10_state.md R27, 42_rasterizer.md R172, log 39). -/
opaque Config.freeGlyphId : Nat → Option (Fin Config.nGlyph)

/-- GLYPH, the glyph table: OPEN, no default (10_state.md R33). -/
opaque Config.glyph : Vector (Vector Byte 5) 15

/-- The parameters marked OPEN in 00_scope.md R10: arguments of the step relation (R8), carried in State (log 6). -/
structure Params where
  initRemap : Byte
  initMasterCfg : Byte
  initPowerMode : Byte
  initPrecharge : Byte
  initPrechargeA : Byte
  initPrechargeB : Byte
  initPrechargeC : Byte
  initPrechargeLevel : Byte
  initVcomh : Byte
  initMasterCurrent : Byte
  initContrastA : Byte
  initContrastB : Byte
  initContrastC : Byte
  initFill : Byte
  /-- GLYPH[id][column] -/
  glyph : Vector (Vector Byte 5) 15
  /-- STRICT_ARGS -/
  strictArgs : Bool
  /-- CLEAR_COLOR -/
  clearColor : Color
  /-- T_CLEAR in microseconds; only whether it is 0 matters to a rule -/
  tClear : Nat
  deriving DecidableEq, Repr

/-- The defaults of 00_scope.md R10 (PRESUMED: the spec marks them general knowledge, log 6); GLYPH has none. -/
def Params.default : Params where
  initRemap := 0x72#8
  initMasterCfg := 0x8E#8
  initPowerMode := 0x0B#8
  initPrecharge := 0x31#8
  initPrechargeA := 0x64#8
  initPrechargeB := 0x78#8
  initPrechargeC := 0x64#8
  initPrechargeLevel := 0x3A#8
  initVcomh := 0x3E#8
  initMasterCurrent := 0x06#8
  initContrastA := 0x91#8
  initContrastB := 0x50#8
  initContrastC := 0x7D#8
  initFill := 0x01#8
  glyph := Config.glyph
  strictArgs := false
  clearColor := 0x0000#16
  tClear := 0

end Sys2Proof
end

