-- ==== Sys2Proof/Syntax.lean ====
section
/-! DEFINITION. The instructions of OLEDPE, one constructor per row of spec/opcode_table.json in the table's order, and
what their operands and their two encodings are made of (spec/30_encoding.md). -/

namespace Sys2Proof

/-- DisplayConfig (10_state.md R22): five pin identifiers, opaque selectors, and the bus clock. -/
structure DisplayConfig where
  pinMosi : Nat
  pinSclk : Nat
  pinCs : Nat
  pinDc : Nat
  pinRst : Nat
  clockHz : Nat
  deriving DecidableEq, Repr

/-- The instruction set `OLEDPE-H7-T3-W24` and PIX (00_scope.md R2). -/
inductive Instr where
  -- level W: the 24 wire commands and the pixel data write (30_encoding.md R96, R93)
  | setColumnAddress (a b : Byte)
  | clearWindowCmd (a b c d : Byte)
  | fillEnable (a : Byte)
  | setRowAddress (a b : Byte)
  | setContrastA (a : Byte)
  | setContrastB (a : Byte)
  | setContrastC (a : Byte)
  | setMasterCurrent (a : Byte)
  | setPrechargeA (a : Byte)
  | setPrechargeB (a : Byte)
  | setPrechargeC (a : Byte)
  | setRemap (a : Byte)
  | setStartLine (a : Byte)
  | setDisplayOffset (a : Byte)
  | normalDisplay
  | setMultiplex (a : Byte)
  | setMasterConfig (a : Byte)
  | displayOff
  | displayOn
  | setPowerMode (a : Byte)
  | setPrecharge (a : Byte)
  | setClockDiv (a : Byte)
  | setPrechargeLevel (a : Byte)
  | setVcomh (a : Byte)
  | pix (h l : Byte)
  -- level H: the host operations (30_encoding.md R99)
  | begin (cfg : Option DisplayConfig)
  | turnOn
  | turnOff
  | clearWindow
  | setPixel (x y : Byte) (color : Color)
  | drawChar (x y charId : Nat) (color : Color)
  | drawString (x y : Nat) (text : List CodePoint) (color : Color)
  -- level T: the transport primitives (30_encoding.md R99)
  | configure (cfg : Option DisplayConfig)
  | sendCommand (b : Byte)
  | sendData (b : Byte)
  deriving DecidableEq, Repr

/-- What stands at a request port: the 4-bit code `op[3:0]` and, beside it, the operands of every operation
(30_encoding.md R99). An operation reads the operands that are its own. -/
structure Request where
  op : BitVec 4
  /-- BEGIN, CONFIGURE -/
  cfg : Option DisplayConfig := none
  /-- SET_PIXEL's x and y, 8 bits each -/
  px : Byte := 0#8
  py : Byte := 0#8
  /-- DRAW_CHAR's and DRAW_STRING's x and y, naturals -/
  x : Nat := 0
  y : Nat := 0
  charId : Nat := 0
  color : Color := 0#16
  text : List CodePoint := []
  /-- SEND_COMMAND, SEND_DATA -/
  b : Byte := 0#8
  deriving DecidableEq, Repr

/-- An encoded instruction: wire bytes (level W) or a request (levels H and T). -/
inductive Code where
  | wire (bytes : List WireByte)
  | request (r : Request)
  deriving DecidableEq, Repr

end Sys2Proof
end

