-- ==== Sys2Proof/WellFormed.lean ====
section
/-! DEFINITION. Which instructions are well formed. The operand types already bound the bytes and the colour
(spec/10_state.md R27); what is left to check is that a text is made of Unicode code points. No decoder and no meaning refuses an
instruction that is not: it runs with a free value (log 39). -/

namespace Sys2Proof

/-- A Unicode code point (10_state.md R27, 42_rasterizer.md R182). -/
def isCodePoint (c : Nat) : Bool := c < 0x110000

/-- The well-formedness check. Naturals of the rasterizer have no upper bound; a configuration with `clock_hz = 0` is
an operand BEGIN answers with ConfigError (40_transport.md R123), not an ill-formed one. -/
def Instr.wf : Instr → Bool
  | .setColumnAddress _ _ => true
  | .clearWindowCmd _ _ _ _ => true
  | .fillEnable _ => true
  | .setRowAddress _ _ => true
  | .setContrastA _ => true
  | .setContrastB _ => true
  | .setContrastC _ => true
  | .setMasterCurrent _ => true
  | .setPrechargeA _ => true
  | .setPrechargeB _ => true
  | .setPrechargeC _ => true
  | .setRemap _ => true
  | .setStartLine _ => true
  | .setDisplayOffset _ => true
  | .normalDisplay => true
  | .setMultiplex _ => true
  | .setMasterConfig _ => true
  | .displayOff => true
  | .displayOn => true
  | .setPowerMode _ => true
  | .setPrecharge _ => true
  | .setClockDiv _ => true
  | .setPrechargeLevel _ => true
  | .setVcomh _ => true
  | .pix _ _ => true
  | .begin _ => true
  | .turnOn => true
  | .turnOff => true
  | .clearWindow => true
  | .setPixel _ _ _ => true
  | .drawChar _ _ _ _ => true
  | .drawString _ _ text _ => text.all isCodePoint
  | .configure _ => true
  | .sendCommand _ => true
  | .sendData _ => true

/-- The three levels of 00_scope.md R2. -/
inductive Level where
  | host
  | transport
  | wire
  deriving DecidableEq, Repr

/-- The level of an instruction (00_scope.md R2). -/
def Instr.level : Instr → Level
  | .setColumnAddress _ _ => .wire
  | .clearWindowCmd _ _ _ _ => .wire
  | .fillEnable _ => .wire
  | .setRowAddress _ _ => .wire
  | .setContrastA _ => .wire
  | .setContrastB _ => .wire
  | .setContrastC _ => .wire
  | .setMasterCurrent _ => .wire
  | .setPrechargeA _ => .wire
  | .setPrechargeB _ => .wire
  | .setPrechargeC _ => .wire
  | .setRemap _ => .wire
  | .setStartLine _ => .wire
  | .setDisplayOffset _ => .wire
  | .normalDisplay => .wire
  | .setMultiplex _ => .wire
  | .setMasterConfig _ => .wire
  | .displayOff => .wire
  | .displayOn => .wire
  | .setPowerMode _ => .wire
  | .setPrecharge _ => .wire
  | .setClockDiv _ => .wire
  | .setPrechargeLevel _ => .wire
  | .setVcomh _ => .wire
  | .pix _ _ => .wire
  | .begin _ => .host
  | .turnOn => .host
  | .turnOff => .host
  | .clearWindow => .host
  | .setPixel _ _ _ => .host
  | .drawChar _ _ _ _ => .host
  | .drawString _ _ _ _ => .host
  | .configure _ => .transport
  | .sendCommand _ => .transport
  | .sendData _ => .transport

end Sys2Proof
end

