-- ==== Sys2Proof/Decode.lean ====
section
/-! DEFINITION. The two decoders (wire bytes and requests), total, each rejection by name, and after them the encoder,
from the tables of spec/30_encoding.md R96 and R99. -/

namespace Sys2Proof

/-- Why a code decodes to no instruction. -/
inductive DecodeError where
  /-- no byte at all -/
  | empty
  /-- a first byte with mode-select low that is none of the 24 opcodes (30_encoding.md R101) -/
  | unknownOpcode (b : Byte)
  /-- a command whose operand bytes have not all come, or came with mode-select high -/
  | truncated (op : Byte)
  /-- a data byte that is not followed by another (20_memory.md R67) -/
  | halfPixel (h : Byte)
  /-- request code 0111 or 1011 to 1111 (30_encoding.md R100) -/
  | unassignedCode (op : BitVec 4)
  /-- wire bytes left over after one whole instruction -/
  | trailingBytes
  deriving DecidableEq, Repr

/-- The number of operand bytes by opcode: the columns Opcode and Format of 30_encoding.md R96; `none` for the other
bytes (R101). -/
def operandCount (op : Byte) : Option Nat :=
  match op.toNat with
  | 0x15 => some 2
  | 0x25 => some 4
  | 0x26 => some 1
  | 0x75 => some 2
  | 0x81 => some 1
  | 0x82 => some 1
  | 0x83 => some 1
  | 0x87 => some 1
  | 0x8A => some 1
  | 0x8B => some 1
  | 0x8C => some 1
  | 0xA0 => some 1
  | 0xA1 => some 1
  | 0xA2 => some 1
  | 0xA4 => some 0
  | 0xA8 => some 1
  | 0xAD => some 1
  | 0xAE => some 0
  | 0xAF => some 0
  | 0xB0 => some 1
  | 0xB1 => some 1
  | 0xB3 => some 1
  | 0xBB => some 1
  | 0xBE => some 1
  | _ => none

/-- The command of an opcode and its operand bytes, in order (30_encoding.md R91, R96). -/
def commandOf (op : Byte) (args : List Byte) : Option Instr :=
  match op.toNat, args with
  | 0x15, [a, b] => some (.setColumnAddress a b)
  | 0x25, [a, b, c, d] => some (.clearWindowCmd a b c d)
  | 0x26, [a] => some (.fillEnable a)
  | 0x75, [a, b] => some (.setRowAddress a b)
  | 0x81, [a] => some (.setContrastA a)
  | 0x82, [a] => some (.setContrastB a)
  | 0x83, [a] => some (.setContrastC a)
  | 0x87, [a] => some (.setMasterCurrent a)
  | 0x8A, [a] => some (.setPrechargeA a)
  | 0x8B, [a] => some (.setPrechargeB a)
  | 0x8C, [a] => some (.setPrechargeC a)
  | 0xA0, [a] => some (.setRemap a)
  | 0xA1, [a] => some (.setStartLine a)
  | 0xA2, [a] => some (.setDisplayOffset a)
  | 0xA4, [] => some .normalDisplay
  | 0xA8, [a] => some (.setMultiplex a)
  | 0xAD, [a] => some (.setMasterConfig a)
  | 0xAE, [] => some .displayOff
  | 0xAF, [] => some .displayOn
  | 0xB0, [a] => some (.setPowerMode a)
  | 0xB1, [a] => some (.setPrecharge a)
  | 0xB3, [a] => some (.setClockDiv a)
  | 0xBB, [a] => some (.setPrechargeLevel a)
  | 0xBE, [a] => some (.setVcomh a)
  | _, _ => none

/-- The next n bytes, all with mode-select low (30_encoding.md R92), and what follows them. -/
def takeOperands : Nat → List WireByte → Option (List Byte × List WireByte)
  | 0, rest => some ([], rest)
  | _ + 1, [] => none
  | n + 1, (m, b) :: rest =>
    if m then none
    else
      match takeOperands n rest with
      | some (args, rest') => some (b :: args, rest')
      | none => none

/-- The instruction at the head of a wire byte stream, and the rest of the stream (30_encoding.md R93, R97, R104). -/
def decodeWire : List WireByte → Except DecodeError (Instr × List WireByte)
  | [] => .error .empty
  | (false, op) :: rest =>
    match operandCount op with
    | none => .error (.unknownOpcode op)
    | some n =>
      match takeOperands n rest with
      | none => .error (.truncated op)
      | some (args, rest') =>
        match commandOf op args with
        | none => .error (.unknownOpcode op)
        | some i => .ok (i, rest')
  | (true, h) :: (true, l) :: rest => .ok (.pix h l, rest)
  | (true, h) :: _ => .error (.halfPixel h)

/-- The operation a request names (30_encoding.md R99); R100: the other codes are unassigned. -/
def decodeRequest (r : Request) : Except DecodeError Instr :=
  match r.op.toNat with
  | 0 => .ok (.begin r.cfg)
  | 1 => .ok .turnOn
  | 2 => .ok .turnOff
  | 3 => .ok .clearWindow
  | 4 => .ok (.setPixel r.px r.py r.color)
  | 5 => .ok (.drawChar r.x r.y r.charId r.color)
  | 6 => .ok (.drawString r.x r.y r.text r.color)
  | 8 => .ok (.configure r.cfg)
  | 9 => .ok (.sendCommand r.b)
  | 10 => .ok (.sendData r.b)
  | _ => .error (.unassignedCode r.op)

/-- The decoder: a code is exactly one instruction, or is rejected by name. -/
def decode : Code → Except DecodeError Instr
  | .request r => decodeRequest r
  | .wire bytes =>
    match decodeWire bytes with
    | .error e => .error e
    | .ok (i, []) => .ok i
    | .ok (_, _ :: _) => .error .trailingBytes

/-- A command of the wire: opcode and operands, every byte with mode-select low (30_encoding.md R91, R92). -/
def commandBytes (op : Byte) (args : List Byte) : List WireByte :=
  (false, op) :: args.map fun a => (false, a)

/-- The encoder (30_encoding.md R93, R96, R99). -/
def encode : Instr → Code
  | .setColumnAddress a b => .wire (commandBytes 0x15#8 [a, b])
  | .clearWindowCmd a b c d => .wire (commandBytes 0x25#8 [a, b, c, d])
  | .fillEnable a => .wire (commandBytes 0x26#8 [a])
  | .setRowAddress a b => .wire (commandBytes 0x75#8 [a, b])
  | .setContrastA a => .wire (commandBytes 0x81#8 [a])
  | .setContrastB a => .wire (commandBytes 0x82#8 [a])
  | .setContrastC a => .wire (commandBytes 0x83#8 [a])
  | .setMasterCurrent a => .wire (commandBytes 0x87#8 [a])
  | .setPrechargeA a => .wire (commandBytes 0x8A#8 [a])
  | .setPrechargeB a => .wire (commandBytes 0x8B#8 [a])
  | .setPrechargeC a => .wire (commandBytes 0x8C#8 [a])
  | .setRemap a => .wire (commandBytes 0xA0#8 [a])
  | .setStartLine a => .wire (commandBytes 0xA1#8 [a])
  | .setDisplayOffset a => .wire (commandBytes 0xA2#8 [a])
  | .normalDisplay => .wire (commandBytes 0xA4#8 [])
  | .setMultiplex a => .wire (commandBytes 0xA8#8 [a])
  | .setMasterConfig a => .wire (commandBytes 0xAD#8 [a])
  | .displayOff => .wire (commandBytes 0xAE#8 [])
  | .displayOn => .wire (commandBytes 0xAF#8 [])
  | .setPowerMode a => .wire (commandBytes 0xB0#8 [a])
  | .setPrecharge a => .wire (commandBytes 0xB1#8 [a])
  | .setClockDiv a => .wire (commandBytes 0xB3#8 [a])
  | .setPrechargeLevel a => .wire (commandBytes 0xBB#8 [a])
  | .setVcomh a => .wire (commandBytes 0xBE#8 [a])
  | .pix h l => .wire [(true, h), (true, l)]
  | .begin cfg => .request { op := 0#4, cfg := cfg }
  | .turnOn => .request { op := 1#4 }
  | .turnOff => .request { op := 2#4 }
  | .clearWindow => .request { op := 3#4 }
  | .setPixel x y color => .request { op := 4#4, px := x, py := y, color := color }
  | .drawChar x y charId color => .request { op := 5#4, x := x, y := y, charId := charId, color := color }
  | .drawString x y text color => .request { op := 6#4, x := x, y := y, text := text, color := color }
  | .configure cfg => .request { op := 8#4, cfg := cfg }
  | .sendCommand b => .request { op := 9#4, b := b }
  | .sendData b => .request { op := 10#4, b := b }

/-- Byte number k of a word numbered as spec/opcode_table.json numbers bits: byte 0 is the first on the wire. -/
def byteOfWord (w k : Nat) : Byte := BitVec.ofNat 8 (w / 2 ^ (8 * k))

/-- The code an opcode-table word of nbits bits stands for. The table's bits do not say which port or which
mode-select level they come with, so the shape decides (log 28): a first byte among the 24 opcodes is a command with
the operand bytes after it; else a 16-bit word is PIX, the only 16-bit row without an opcode; else a byte whose high
half is 0 is a 4-bit request code with operands of zeros; else it is a lone command byte. -/
def codeOfTableWord (nbits w : Nat) : Code :=
  let v := w % 2 ^ nbits
  let b0 := byteOfWord v 0
  match operandCount b0 with
  | some n => .wire (commandBytes b0 ((List.range n).map fun k => byteOfWord v (k + 1)))
  | none =>
    if nbits = 16 then .wire [(true, b0), (true, byteOfWord v 1)]
    else if b0.toNat < 16 then .request { op := BitVec.ofNat 4 b0.toNat }
    else .wire [(false, b0)]

/-- The instruction the decoder reads from an opcode-table word. -/
def decodeTableWord (nbits w : Nat) : Option Instr :=
  match decode (codeOfTableWord nbits w) with
  | .ok i => some i
  | .error _ => none

end Sys2Proof
end

