-- ==== Sys2Proof/Machine/State.lean ====
section
/-! DEFINITION. The state of OLEDPE as plain data: the tuple (ENGINE, lines, TRANSPORT, wire trace, PANEL) of
spec/10_state.md R20 under the spec's own names `E`, `L`, `T`, `P`, with the model's own input fields beside it; the
two stop reasons; and the state after reset. -/

namespace Sys2Proof.Machine

/-- The failure value t of a transport request: opaque, its width a parameter of the transport (60_exceptions.md R231).
DESIGN CHOICE: an unbounded natural (log 38). -/
abbrev TransportFailure := Nat

/-- The closed set of errors (60_exceptions.md R230). -/
inductive ErrorCause where
  | configError
  | busError (t : TransportFailure)
  | argumentError
  deriving DecidableEq, Repr

/-- What an operation returns (00_scope.md R14). -/
inductive Result where
  | ok
  | err (e : ErrorCause)
  deriving DecidableEq, Repr

/-- `E.fsm` (10_state.md R21). -/
inductive Fsm where
  | uninitialized
  | resetting
  | configuring
  | ready
  deriving DecidableEq, Repr

/-- The operand latches of the operation in progress (10_state.md R26). -/
structure Latch where
  x : Nat
  y : Nat
  color : Color
  charId : Nat
  curX : Nat
  curY : Nat
  text : List CodePoint
  textPos : Nat
  deriving DecidableEq, Repr

/-- ENGINE (10_state.md R21 to R29). -/
structure Engine where
  fsm : Fsm
  cfg : Option DisplayConfig
  /-- present or absent -/
  handle : Bool
  seq : Nat
  displayOn : Bool
  latch : Latch
  status : Result
  busy : Bool
  deriving DecidableEq, Repr

/-- The two control lines (10_state.md R31). -/
inductive Line where
  | dc
  | rst
  deriving DecidableEq, Repr

/-- A line's direction (10_state.md R31). -/
inductive Direction where
  | unconfigured
  | output
  deriving DecidableEq, Repr

/-- A line's level (10_state.md R31). -/
inductive LineLevel where
  | unknown
  | low
  | high
  deriving DecidableEq, Repr

structure LineState where
  dir : Direction
  level : LineLevel
  deriving DecidableEq, Repr

/-- `L.dc` and `L.rst` (10_state.md R31). -/
structure Lines where
  dc : LineState
  rst : LineState
  deriving DecidableEq, Repr

/-- `T.bus` (10_state.md R36). -/
inductive Bus where
  | free
  | allocated
  deriving DecidableEq, Repr

/-- `T.dev` (10_state.md R36). -/
inductive Device where
  | detached
  | attached (hz mode : Nat)
  deriving DecidableEq, Repr

/-- TRANSPORT (10_state.md R36). -/
structure Transport where
  bus : Bus
  dev : Device
  deriving DecidableEq, Repr

/-- The events of the wire trace (10_state.md R38). A duration is in microseconds (log 23). -/
inductive Event where
  | dir (line : Line)
  | level (line : Line) (v : Bool)
  | wait (d : Nat)
  | busInit
  | attach (hz mode : Nat)
  | tx (b : Byte)
  | txFail (b : Byte) (t : TransportFailure)
  | detach
  | busFree
  deriving DecidableEq, Repr

/-- The pixel RAM `Gram` (10_state.md R48) as bytes: the list of the bytes written since the RAM was last ANY, and
which draw that was. -/
structure Memory where
  /-- the number of the free draw that an unlisted address reads (log 5) -/
  epoch : Nat
  cells : List Host.Cell
  deriving DecidableEq, Repr

/-- `P.parse` (10_state.md R47). -/
inductive Parse where
  | idle
  | collect (op : Byte) (need : Nat) (got : List Byte)
  deriving DecidableEq, Repr

/-- `P.disp_mode` (10_state.md R41). -/
inductive DispMode where
  | normal
  | other
  deriving DecidableEq, Repr

/-- PANEL, the reference receiver (10_state.md R40 to R49). -/
structure Panel where
  dispOn : Bool
  remap : Byte
  startLine : Byte
  offset : Byte
  dispMode : DispMode
  mux : Byte
  masterCfg : Byte
  powerMode : Byte
  precharge : Byte
  clkdiv : Byte
  prechargeA : Byte
  prechargeB : Byte
  prechargeC : Byte
  prechargeLevel : Byte
  vcomh : Byte
  masterCurrent : Byte
  contrastA : Byte
  contrastB : Byte
  contrastC : Byte
  fill : Byte
  colStart : Byte
  colEnd : Byte
  rowStart : Byte
  rowEnd : Byte
  ptrCol : Byte
  ptrRow : Byte
  pixHi : Option Byte
  parse : Parse
  gram : Memory
  busyClear : Bool
  /-- the model's own: the counter of the free values drawn so far (log 4) -/
  draws : Nat
  /-- the model's own: a byte failed since the last reset pulse, so PANEL is ANY until the next one
  (10_state.md R39, log 9) -/
  lost : Bool
  /-- the model's own: the window is as the last reset pulse left it, no window command came since
  (20_memory.md R74, log 40) -/
  windowFresh : Bool
  deriving DecidableEq, Repr

/-- One answer of TRANSPORT to `bus_init`, `attach` or `transmit` (40_transport.md R121). -/
inductive Answer where
  | ok
  | err (t : TransportFailure)
  | never
  deriving DecidableEq, Repr

/-- The answers TRANSPORT will give: inputs of the step (40_transport.md R121), the script first and then `after` for
ever (log 7). -/
structure Oracle where
  script : List Answer
  after : Answer
  deriving DecidableEq, Repr

/-- What is presented to the machine from outside and not yet taken (log 1). -/
inductive Input where
  /-- a request at the host's port (30_encoding.md R99) -/
  | host (r : Request)
  /-- a call at an internal interface, as the engine itself makes it (30_encoding.md R99 "Public: no", log 13) -/
  | call (r : Request)
  /-- the controller finishes an erase (10_state.md R49, log 18) -/
  | eraseDone
  deriving DecidableEq, Repr

/-- The whole machine (10_state.md R20). -/
structure State where
  E : Engine
  L : Lines
  T : Transport
  trace : List Event
  P : Panel
  /-- the model's own: the counter of the free durations (log 23) -/
  waits : Nat
  /-- the model's own: TRANSPORT's answers to come (log 7) -/
  oracle : Oracle
  /-- the model's own: what a transport primitive run on its own returned to its caller (log 13) -/
  ret : Option Result
  /-- the model's own: requests not yet taken (log 1) -/
  inbox : List Input
  /-- the model's own: wire bytes presented to PANEL on its own, not yet taken (log 11) -/
  wireIn : List WireByte
  /-- the OPEN parameters; no step changes them (00_scope.md R8, log 6) -/
  params : Params
  deriving DecidableEq, Repr

/-- Why the machine stops with a fault. -/
inductive Fault where
  /-- Raised by the fetch when an operation hangs (`E.busy` is true between steps, 60_exceptions.md R236) and nothing
  else is presented: no further step exists. Safe: the hardware does nothing either. -/
  | hung
  deriving DecidableEq, Repr

/-- Why a step is refused: the REFUSE outcomes of 60_exceptions.md R235, each by name. All are safe: the model gives
such a program no meaning. -/
inductive Refusal where
  /-- Raised by an arm of exec whose instruction has no meaning yet. -/
  | notModelled (mnemonic : String)
  /-- Raised by BEGIN when `E.fsm` is not `Uninitialized` (R235 a). -/
  | beginNotUninitialized
  /-- Raised by every other host operation when `E.fsm` is not `Ready` (R235 b). -/
  | notReady
  /-- Raised by SEND_COMMAND and SEND_DATA without a handle (R235 c, 40_transport.md R129). -/
  | noHandle
  /-- Raised by the fetch for request codes 0111 and 1011 to 1111 (R235 d). -/
  | unassignedCode (op : BitVec 4)
  /-- Raised by a host operation and by a transport primitive while `E.busy` is true (R235 e, R236, log 13). -/
  | busy
  /-- Raised by the fetch for a transport primitive at the host's port (R235 f). -/
  | transportFromHost
  /-- Raised by CONFIGURE while `T.bus = Allocated` (40_transport.md R131: not in the source). -/
  | busAllocated
  deriving DecidableEq, Repr

/-- The engine at power-on (10_state.md R52, 70_reset_and_hazards.md R260); the latches are the model's choice
(log 3). -/
def Engine.reset : Engine where
  fsm := .uninitialized
  cfg := none
  handle := false
  seq := 0
  displayOn := false
  latch := { x := 0, y := 0, color := 0#16, charId := 0, curX := 0, curY := 0, text := [], textPos := 0 }
  status := .ok
  busy := false

/-- PANEL at power-on: ANY by 70_reset_and_hazards.md R261; the register values are the model's choice (log 2), the
pixel RAM is free (log 5). -/
def Panel.reset : Panel where
  dispOn := false
  remap := 0#8
  startLine := 0#8
  offset := 0#8
  dispMode := .other
  mux := 0#8
  masterCfg := 0#8
  powerMode := 0#8
  precharge := 0#8
  clkdiv := 0#8
  prechargeA := 0#8
  prechargeB := 0#8
  prechargeC := 0#8
  prechargeLevel := 0#8
  vcomh := 0#8
  masterCurrent := 0#8
  contrastA := 0#8
  contrastB := 0#8
  contrastC := 0#8
  fill := 0#8
  colStart := 0#8
  colEnd := 0#8
  rowStart := 0#8
  rowEnd := 0#8
  ptrCol := 0#8
  ptrRow := 0#8
  pixHi := none
  parse := .idle
  gram := { epoch := 0, cells := [] }
  busyClear := false
  draws := 1
  lost := false
  windowFresh := false

/-- The machine at power-on (10_state.md R52, 70_reset_and_hazards.md R260, R261). -/
def State.reset : State where
  E := Engine.reset
  L := { dc := ⟨.unconfigured, .unknown⟩, rst := ⟨.unconfigured, .unknown⟩ }
  T := { bus := .free, dev := .detached }
  trace := []
  P := Panel.reset
  waits := 0
  oracle := { script := [], after := .ok }
  ret := none
  inbox := []
  wireIn := []
  params := Params.default

end Sys2Proof.Machine
end

