-- ==== Sys2Proof/Machine/Memory.lean ====
section
/-! DEFINITION. The pixel RAM (spec/10_state.md R48, spec/20_memory.md R60 to R65) over bytes in one canonical form:
addresses strictly rising, all below 12,288, no entry equal to what an unlisted address reads as. -/

namespace Sys2Proof.Machine

/-- What an address that no entry lists reads as: a free value of the draw that last made the RAM ANY (log 5). -/
def Memory.background (m : Memory) (a : Nat) : Byte := Config.freeRamByte m.epoch a

/-- The RAM made ANY by draw n: nothing listed. -/
def Memory.drawn (n : Nat) : Memory := { epoch := n, cells := [] }

/-- The byte listed for an address. -/
def cellAt (a : Nat) : List Host.Cell → Option Byte
  | [] => none
  | (k, v) :: rest => if k = a then some v else cellAt a rest

/-- The byte at an address. -/
def Memory.byte (m : Memory) (a : Nat) : Byte := (cellAt a m.cells).getD (m.background a)

/-- The entries without the one of address a. -/
def eraseCell (a : Nat) : List Host.Cell → List Host.Cell
  | [] => []
  | (k, v) :: rest => if k = a then rest else (k, v) :: eraseCell a rest

/-- The entries with address a listed as v, in order. -/
def insertCell (a : Nat) (v : Byte) : List Host.Cell → List Host.Cell
  | [] => [(a, v)]
  | (k, w) :: rest =>
    if k < a then (k, w) :: insertCell a v rest
    else if k = a then (a, v) :: rest
    else (a, v) :: (k, w) :: rest

/-- A byte written; writing what an unlisted address reads as removes the entry. -/
def Memory.write (m : Memory) (a : Nat) (v : Byte) : Memory :=
  { m with cells := if v = m.background a then eraseCell a m.cells else insertCell a v m.cells }

/-- The canonical form. -/
abbrev Memory.wf (m : Memory) : Prop :=
  m.cells.Pairwise (fun c d => c.1 < d.1) ∧
    ∀ c ∈ m.cells, c.1 < Config.ramBytes ∧ c.2 ≠ m.background c.1

/-- The address of the high byte of cell (column c, row r); the low byte is the next one (log 5). -/
def cellAddr (c r : Nat) : Nat := 2 * (Config.width * r + c)

/-- `Gram[r][c]`, high byte first (20_memory.md R62). -/
def Memory.pixel (m : Memory) (c r : Nat) : Color := m.byte (cellAddr c r) ++ m.byte (cellAddr c r + 1)

/-- `color[15:8]` (20_memory.md R62). -/
def colorHi (v : Color) : Byte := v.extractLsb' 8 8

/-- `color[7:0]` (20_memory.md R62). -/
def colorLo (v : Color) : Byte := v.extractLsb' 0 8

/-- `MemWrite((c, r), 2, v)`: one whole cell (00_scope.md R12, 20_memory.md R65). -/
def Memory.writePixel (m : Memory) (c r : Nat) (v : Color) : Memory :=
  (m.write (cellAddr c r) (colorHi v)).write (cellAddr c r + 1) (colorLo v)

/-- A memory whose byte at every address a below n is f a, over draw number epoch. -/
def Memory.table (n epoch : Nat) (f : Nat → Byte) : Memory where
  epoch := epoch
  cells := (List.range n).filterMap fun a => if f a = Config.freeRamByte epoch a then none else some (a, f a)

/-- Whether the byte address lies in a cell of the rectangle from (c0, r0) to (c1, r1), both corners included. -/
def inRect (c0 r0 c1 r1 a : Nat) : Bool :=
  let col := a / 2 % Config.width
  let row := a / 2 / Config.width
  c0 ≤ col && col ≤ c1 && r0 ≤ row && row ≤ r1

/-- The byte of a cell's value at a byte address: the high byte lies at the even one. -/
def byteOfColor (v : Color) (a : Nat) : Byte := if a % 2 = 0 then colorHi v else colorLo v

/-- Every cell of a rectangle written with one value (43_wire_commands.md R194). -/
def Memory.fillRect (m : Memory) (c0 r0 c1 r1 : Nat) (v : Color) : Memory :=
  Memory.table Config.ramBytes m.epoch fun a => if inRect c0 r0 c1 r1 a then byteOfColor v a else m.byte a

end Sys2Proof.Machine
end

