-- ==== Sys2Proof/Machine/Operands.lean ====
section
/-! DEFINITION. How every operand is made and read: configurations, colour bytes, clamping, the character map, glyph
bits (spec/30_encoding.md R94, spec/42_rasterizer.md R172 to R176), and the byte sequences of the operations
(spec/41_engine.md R142, R148, R150). -/

namespace Sys2Proof.Machine

/-- A configuration that passes the check: present, with a positive `clock_hz` (40_transport.md R123). -/
def validConfig (cfg : Option DisplayConfig) : Option DisplayConfig :=
  match cfg with
  | none => none
  | some c => if c.clockHz = 0 then none else some c

/-- A byte of a command, opcode or operand: mode-select low (30_encoding.md R92). -/
def cmd (b : Byte) : WireByte := (false, b)

/-- A byte of a pixel: mode-select high (30_encoding.md R93). -/
def dat (b : Byte) : WireByte := (true, b)

/-- TURN_ON's byte (41_engine.md R146). -/
def turnOnBytes : List WireByte := [cmd 0xAF#8]

/-- TURN_OFF's byte (41_engine.md R147). -/
def turnOffBytes : List WireByte := [cmd 0xAE#8]

/-- The eight bytes of SET_PIXEL (41_engine.md R148); nothing is clamped or checked (R149). -/
def setPixelBytes (x y : Byte) (color : Color) : List WireByte :=
  [cmd 0x15#8, cmd x, cmd x, cmd 0x75#8, cmd y, cmd y, dat (colorHi color), dat (colorLo color)]

/-- The five bytes of CLEAR_WINDOW (41_engine.md R150). -/
def clearWindowBytes : List WireByte := [cmd 0x25#8, cmd 0x00#8, cmd 0x00#8, cmd 0x5F#8, cmd 0x3F#8]

/-- INIT_SEQ (41_engine.md R142): 21 commands, 39 bytes; the operands the source does not print are parameters. -/
def initSeq (k : Params) : List Byte :=
  [0xAE#8, 0xA0#8, k.initRemap, 0xA1#8, 0x00#8, 0xA2#8, 0x00#8, 0xA4#8, 0xA8#8, 0x3F#8] ++
  [0xAD#8, k.initMasterCfg, 0xB0#8, k.initPowerMode, 0xB1#8, k.initPrecharge, 0xB3#8, 0xF0#8] ++
  [0x8A#8, k.initPrechargeA, 0x8B#8, k.initPrechargeB, 0x8C#8, k.initPrechargeC] ++
  [0xBB#8, k.initPrechargeLevel, 0xBE#8, k.initVcomh, 0x87#8, k.initMasterCurrent] ++
  [0x81#8, k.initContrastA, 0x82#8, k.initContrastB, 0x83#8, k.initContrastC, 0xAF#8, 0x26#8, k.initFill]

/-- The clamped origin column (42_rasterizer.md R176). -/
def clampX (x : Nat) : Nat := min x (Config.width - 1)

/-- The clamped origin row (42_rasterizer.md R176). -/
def clampY (y : Nat) : Nat := min y (Config.height - 1)

/-- The table of 42_rasterizer.md R172, over code points. -/
def codePointMap (ch : Nat) : Option Nat :=
  if 0x30 ≤ ch ∧ ch ≤ 0x39 then some (ch - 0x30)
  else
    match ch with
    | 0x43 => some 10
    | 0x3A => some 11
    | 0xB0 => some 12
    | 0x2E => some 13
    | 0x25 => some 14
    | _ => none

/-- CHARMAP (42_rasterizer.md R172). DESIGN CHOICE: for an element that is no code point, of which no rule speaks, a
free value (log 39). -/
def charMap (ch : Nat) : Option Nat :=
  if isCodePoint ch then codePointMap ch else (Config.freeGlyphId ch).map Fin.val

/-- `GLYPH[id][c]` for a valid id and column (10_state.md R33). -/
def glyphColumn (k : Params) (id c : Nat) : Byte :=
  match k.glyph[id]? with
  | some g => (g[c]?).getD 0#8
  | none => 0#8

/-- Whether the pixel at row offset r (1 to 7) of a column byte is lit: bit r - 1 (42_rasterizer.md R174). -/
def litAt (g : Byte) (r : Nat) : Bool := g.getLsbD (r - 1)

/-- The lit (column, row offset) pairs of a glyph in the order the loops of 42_rasterizer.md R173 meet them. -/
def litPixels (k : Params) (id : Nat) : List (Nat × Nat) :=
  [0, 1, 2, 3, 4].flatMap fun c =>
    ([1, 2, 3, 4, 5, 6, 7].filter fun r => litAt (glyphColumn k id c) r).map fun r => (c, r)

/-- The bytes of one glyph at an origin: one SET_PIXEL per lit bit, at the clamped origin plus the offset, itself not
clamped (42_rasterizer.md R173, R176). A coordinate is at most 99 or 70, so it fits its byte (R179). -/
def glyphBytes (k : Params) (x y id : Nat) (color : Color) : List WireByte :=
  (litPixels k id).flatMap fun p =>
    setPixelBytes (BitVec.ofNat 8 (clampX x + p.1)) (BitVec.ofNat 8 (clampY y + p.2)) color

/-- What DRAW_CHAR's body sends: nothing for an invalid id (42_rasterizer.md R175). -/
def drawCharBytes (k : Params) (x y id : Nat) (color : Color) : List WireByte :=
  if Config.nGlyph ≤ id then [] else glyphBytes k x y id color

/-- What DRAW_STRING sends: one glyph per mapped character, the cursor advanced by 7 after each
(42_rasterizer.md R177). -/
def drawStringBytes (k : Params) (cx cy : Nat) (color : Color) : List CodePoint → List WireByte
  | [] => []
  | ch :: rest =>
    match charMap ch with
    | none => drawStringBytes k cx cy color rest
    | some id => drawCharBytes k cx cy id color ++ drawStringBytes k (cx + Config.advance) cy color rest

end Sys2Proof.Machine
end

