-- ==== Sys2Proof/Machine/Flags.lean ====
section
/-! DEFINITION. The status register, the busy bit and the display flag: every computation of them
(spec/10_state.md R25, R28, R29; spec/60_exceptions.md R231; spec/41_engine.md R151). -/

namespace Sys2Proof.Machine

/-- The 2-bit code of `E.fsm` (10_state.md R21). -/
def Fsm.code : Fsm → BitVec 2
  | .uninitialized => 0#2
  | .resetting => 1#2
  | .configuring => 2#2
  | .ready => 3#2

/-- The 2-bit code of a result (60_exceptions.md R231). -/
def Result.code : Result → BitVec 2
  | .ok => 0#2
  | .err .configError => 1#2
  | .err (.busError _) => 2#2
  | .err .argumentError => 3#2

/-- The failure value beside the code (60_exceptions.md R231). -/
def Result.payload : Result → Option TransportFailure
  | .ok => none
  | .err .configError => none
  | .err (.busError t) => some t
  | .err .argumentError => none

/-- `first_error` of two results in order (41_engine.md R151). -/
def firstError (r r' : Result) : Result :=
  match r with
  | .ok => r'
  | .err e => .err e

/-- Every operation starts with `E.busy <- true; E.seq <- 0` (41_engine.md, head). -/
def start (s : State) : State := { s with E := { s.E with busy := true, seq := 0 } }

/-- `finish(r)`: `E.status <- r; E.seq <- 0; E.busy <- false` (41_engine.md, head). -/
def finish (r : Result) (s : State) : State := { s with E := { s.E with status := r, seq := 0, busy := false } }

/-- `E.display_on <- v` (10_state.md R25). -/
def setDisplayOn (v : Bool) (s : State) : State := { s with E := { s.E with displayOn := v } }

/-- `E.fsm <- f` (10_state.md R21). -/
def setFsm (f : Fsm) (s : State) : State := { s with E := { s.E with fsm := f } }

/-- `E.handle <- v` (10_state.md R23). -/
def setHandle (v : Bool) (s : State) : State := { s with E := { s.E with handle := v } }

/-- `E.cfg <- c` (10_state.md R22). -/
def setCfg (c : DisplayConfig) (s : State) : State := { s with E := { s.E with cfg := some c } }

/-- The operand latches loaded or moved on (10_state.md R26). -/
def setLatch (f : Latch → Latch) (s : State) : State := { s with E := { s.E with latch := f s.E.latch } }

/-- `E.seq <- E.seq + 1` (10_state.md R24). -/
def countByte (s : State) : State := { s with E := { s.E with seq := s.E.seq + 1 } }

/-- A request that never answers: the operation never returns and `E.busy` stays true (60_exceptions.md R236). -/
def hang (s : State) : State := { s with E := { s.E with busy := true } }

end Sys2Proof.Machine
end

