-- ==== Sys2Proof/Machine/Panel.lean ====
section
/-! DEFINITION. PANEL, the reference receiver: its free values, the effect of every wire command
(spec/43_wire_commands.md R192 to R215), the pixel data write (spec/20_memory.md R77, R78) and its byte step
(spec/43_wire_commands.md R190). -/

namespace Sys2Proof.Machine

/-- Whether a parser state is one that the byte step can be in: an opcode, its operand count, fewer operands than it
takes (10_state.md R47). -/
def Parse.wf : Parse → Bool
  | .idle => true
  | .collect op need got => operandCount op == some need && got.length < need

/-- An ANY parser state, by draw (log 35). -/
def Parse.drawn (n : Nat) : Parse :=
  if Config.freeBit n 0 then .idle
  else
    match operandCount (Config.freeByte n 0) with
    | some (k + 1) => .collect (Config.freeByte n 0) (k + 1) ((Config.freeOperands n).take k)
    | _ => .idle

/-- `PANEL <- ANY`: every field a free value of the next draw (00_scope.md R15). -/
def Panel.any (p : Panel) : Panel where
  dispOn := Config.freeBit p.draws 1
  remap := Config.freeByte p.draws 1
  startLine := Config.freeByte p.draws 2
  offset := Config.freeByte p.draws 3
  dispMode := if Config.freeBit p.draws 2 then .normal else .other
  mux := Config.freeByte p.draws 4
  masterCfg := Config.freeByte p.draws 5
  powerMode := Config.freeByte p.draws 6
  precharge := Config.freeByte p.draws 7
  clkdiv := Config.freeByte p.draws 8
  prechargeA := Config.freeByte p.draws 9
  prechargeB := Config.freeByte p.draws 10
  prechargeC := Config.freeByte p.draws 11
  prechargeLevel := Config.freeByte p.draws 12
  vcomh := Config.freeByte p.draws 13
  masterCurrent := Config.freeByte p.draws 14
  contrastA := Config.freeByte p.draws 15
  contrastB := Config.freeByte p.draws 16
  contrastC := Config.freeByte p.draws 17
  fill := Config.freeByte p.draws 18
  colStart := Config.freeByte p.draws 19
  colEnd := Config.freeByte p.draws 20
  rowStart := Config.freeByte p.draws 21
  rowEnd := Config.freeByte p.draws 22
  ptrCol := Config.freeByte p.draws 23
  ptrRow := Config.freeByte p.draws 24
  pixHi := if Config.freeBit p.draws 3 then some (Config.freeByte p.draws 25) else none
  parse := Parse.drawn p.draws
  gram := Memory.drawn p.draws
  busyClear := Config.freeBit p.draws 4
  draws := p.draws + 1
  lost := p.lost
  windowFresh := false

/-- PANEL at the end of the hardware reset pulse: parser idle, latch empty, not erasing, every other field ANY
(70_reset_and_hazards.md R262). DEDUCED: the pixel RAM is among them, so a BEGIN does change it (log 41). -/
def Panel.postReset (p : Panel) : Panel :=
  { p.any with parse := .idle, pixHi := none, busyClear := false, lost := false, windowFresh := true }

/-- `Gram <- ANY` (20_memory.md R74). -/
def Panel.gramAny (p : Panel) : Panel := { p with gram := Memory.drawn p.draws, draws := p.draws + 1 }

/-- The premise of the receiver model: `P.remap` and `P.fill` hold what BEGIN writes (43_wire_commands.md R191). -/
def Panel.premise (k : Params) (p : Panel) : Bool := p.remap == k.initRemap && p.fill == k.initFill

/-- The four window bounds are on the panel, no start above its end (20_memory.md R74, R77). -/
def Panel.boundsInRange (p : Panel) : Bool :=
  (p.colStart ≤ p.colEnd && p.colEnd.toNat < Config.width) &&
  (p.rowStart ≤ p.rowEnd && p.rowEnd.toNat < Config.height)

/-- R74's "while a bound is out of range", for an erase. DEDUCED: the ANY that the reset pulse leaves in the window makes no
erase ANY; from the first window command on all four bounds count, also the pair that is still the pulse's ANY while
only one of the two commands has come (log 40). -/
def Panel.windowOff (p : Panel) : Bool := !p.windowFresh && !p.boundsInRange

/-- `window_in_range()` (20_memory.md R77). -/
def Panel.windowInRange (p : Panel) : Bool :=
  p.boundsInRange &&
  (p.colStart ≤ p.ptrCol && p.ptrCol ≤ p.colEnd) &&
  (p.rowStart ≤ p.ptrRow && p.ptrRow ≤ p.rowEnd)

/-- The row of the pointer moved on one (20_memory.md R78). -/
def Panel.advanceRow (p : Panel) : Panel :=
  { p with ptrRow := if p.ptrRow.toNat + 1 > p.rowEnd.toNat then p.rowStart else p.ptrRow + 1 }

/-- `advance_pointer()` (20_memory.md R78; PRESUMED, log 20). -/
def Panel.advancePointer (p : Panel) : Panel :=
  if p.ptrCol.toNat + 1 > p.colEnd.toNat then Panel.advanceRow { p with ptrCol := p.colStart }
  else { p with ptrCol := p.ptrCol + 1 }

/-- A pixel stored at the pointer: the cell, or ANY where the premise of R191 fails (log 29). -/
def Panel.storePixel (k : Params) (v : Color) (p : Panel) : Panel :=
  if p.premise k then { p with gram := p.gram.writePixel p.ptrCol.toNat p.ptrRow.toNat v } else p.gramAny

/-- The pixel data write, on a data byte with the parser idle (20_memory.md R77). -/
def Panel.data (k : Params) (b : Byte) (p : Panel) : Panel :=
  match p.pixHi with
  | none => { p with pixHi := some b }
  | some h =>
    let p := { p with pixHi := none }
    if p.windowInRange then (p.storePixel k (h ++ b)).advancePointer else p.gramAny

/-! The effect of each wire command (43_wire_commands.md). -/

/-- R192 -/
def Panel.setColumnAddress (a b : Byte) (p : Panel) : Panel :=
  { p with colStart := a, colEnd := b, ptrCol := a, windowFresh := false }

/-- R193 -/
def Panel.setRowAddress (a b : Byte) (p : Panel) : Panel :=
  { p with rowStart := a, rowEnd := b, ptrRow := a, windowFresh := false }

/-- R194's bounds: `a <= c <= 95 and b <= d <= 63`. -/
def eraseInRange (a b c d : Byte) : Bool :=
  (a ≤ c && c.toNat < Config.width) && (b ≤ d && d.toNat < Config.height)

/-- R194's erase: the rectangle written with CLEAR_COLOR; ANY where the premise of R191 fails (log 29), and where a
bound of the window is out of range (20_memory.md R74, log 40). -/
def Panel.erase (k : Params) (a b c d : Byte) (p : Panel) : Panel :=
  if p.premise k && !p.windowOff then
    { p with gram := p.gram.fillRect a.toNat b.toNat c.toNat d.toNat k.clearColor }
  else p.gramAny

/-- R194, with `P.busy_clear` where the erase takes time (log 18), also where the erase's effect on the pixel RAM is
ANY. -/
def Panel.clearWindow (k : Params) (a b c d : Byte) (p : Panel) : Panel :=
  if eraseInRange a b c d then
    let p := p.erase k a b c d
    if k.tClear = 0 then p else { p with busyClear := true }
  else p.gramAny

/-- R195 -/
def Panel.fillEnable (a : Byte) (p : Panel) : Panel := { p with fill := a }

/-- R196 -/
def Panel.setContrastA (a : Byte) (p : Panel) : Panel := { p with contrastA := a }

/-- R197 -/
def Panel.setContrastB (a : Byte) (p : Panel) : Panel := { p with contrastB := a }

/-- R198 -/
def Panel.setContrastC (a : Byte) (p : Panel) : Panel := { p with contrastC := a }

/-- R199 -/
def Panel.setMasterCurrent (a : Byte) (p : Panel) : Panel := { p with masterCurrent := a }

/-- R200 -/
def Panel.setPrechargeA (a : Byte) (p : Panel) : Panel := { p with prechargeA := a }

/-- R201 -/
def Panel.setPrechargeB (a : Byte) (p : Panel) : Panel := { p with prechargeB := a }

/-- R202 -/
def Panel.setPrechargeC (a : Byte) (p : Panel) : Panel := { p with prechargeC := a }

/-- R203 -/
def Panel.setRemap (a : Byte) (p : Panel) : Panel := { p with remap := a }

/-- R204 -/
def Panel.setStartLine (a : Byte) (p : Panel) : Panel := { p with startLine := a }

/-- R205 -/
def Panel.setDisplayOffset (a : Byte) (p : Panel) : Panel := { p with offset := a }

/-- R206 -/
def Panel.normalDisplay (p : Panel) : Panel := { p with dispMode := .normal }

/-- R207 -/
def Panel.setMultiplex (a : Byte) (p : Panel) : Panel := { p with mux := a }

/-- R208 -/
def Panel.setMasterConfig (a : Byte) (p : Panel) : Panel := { p with masterCfg := a }

/-- R209; the pixel RAM and every other register keep their values (PRESUMED, log 21). -/
def Panel.displayOff (p : Panel) : Panel := { p with dispOn := false }

/-- R210 -/
def Panel.displayOn (p : Panel) : Panel := { p with dispOn := true }

/-- R211 -/
def Panel.setPowerMode (a : Byte) (p : Panel) : Panel := { p with powerMode := a }

/-- R212 -/
def Panel.setPrecharge (a : Byte) (p : Panel) : Panel := { p with precharge := a }

/-- R213 -/
def Panel.setClockDiv (a : Byte) (p : Panel) : Panel := { p with clkdiv := a }

/-- R214 -/
def Panel.setPrechargeLevel (a : Byte) (p : Panel) : Panel := { p with prechargeLevel := a }

/-- R215 -/
def Panel.setVcomh (a : Byte) (p : Panel) : Panel := { p with vcomh := a }

/-- The rule of each wire command (43_wire_commands.md R192 to R215). What is no command never comes to PANEL this
way. -/
def Panel.effect (k : Params) (i : Instr) (p : Panel) : Panel :=
  match i with
  | .setColumnAddress a b => p.setColumnAddress a b
  | .clearWindowCmd a b c d => p.clearWindow k a b c d
  | .fillEnable a => p.fillEnable a
  | .setRowAddress a b => p.setRowAddress a b
  | .setContrastA a => p.setContrastA a
  | .setContrastB a => p.setContrastB a
  | .setContrastC a => p.setContrastC a
  | .setMasterCurrent a => p.setMasterCurrent a
  | .setPrechargeA a => p.setPrechargeA a
  | .setPrechargeB a => p.setPrechargeB a
  | .setPrechargeC a => p.setPrechargeC a
  | .setRemap a => p.setRemap a
  | .setStartLine a => p.setStartLine a
  | .setDisplayOffset a => p.setDisplayOffset a
  | .normalDisplay => p.normalDisplay
  | .setMultiplex a => p.setMultiplex a
  | .setMasterConfig a => p.setMasterConfig a
  | .displayOff => p.displayOff
  | .displayOn => p.displayOn
  | .setPowerMode a => p.setPowerMode a
  | .setPrecharge a => p.setPrecharge a
  | .setClockDiv a => p.setClockDiv a
  | .setPrechargeLevel a => p.setPrechargeLevel a
  | .setVcomh a => p.setVcomh a
  | .pix _ _ => p
  | .begin _ => p
  | .turnOn => p
  | .turnOff => p
  | .clearWindow => p
  | .setPixel _ _ _ => p
  | .drawChar _ _ _ _ => p
  | .drawString _ _ _ _ => p
  | .configure _ => p
  | .sendCommand _ => p
  | .sendData _ => p

/-- `exec(op, operands)` of 43_wire_commands.md R190: the rule of the command that the opcode and its operands make
(30_encoding.md R96). They make none in no parser state that `Parse.wf` holds of. -/
def Panel.command (k : Params) (op : Byte) (args : List Byte) (p : Panel) : Panel :=
  match commandOf op args with
  | some i => p.effect k i
  | none => p.any

/-- A command-mode byte with the parser idle (43_wire_commands.md R190, case Idle; 30_encoding.md R101). -/
def Panel.opcode (k : Params) (b : Byte) (p : Panel) : Panel :=
  match operandCount b with
  | none => p.any
  | some 0 => p.command k b []
  | some (n + 1) => { p with parse := .collect b (n + 1) [] }

/-- A command-mode byte with an operand due (43_wire_commands.md R190, case Collect). -/
def Panel.operand (k : Params) (op : Byte) (need : Nat) (got : List Byte) (b : Byte) (p : Panel) : Panel :=
  if got.length + 1 = need then Panel.command k op (got ++ [b]) { p with parse := .idle }
  else { p with parse := .collect op need (got ++ [b]) }

/-- A command-mode byte (43_wire_commands.md R190, m = 0): a half pixel is dropped first (20_memory.md R68). -/
def Panel.commandByte (k : Params) (b : Byte) (p : Panel) : Panel :=
  let p := { p with pixHi := none }
  match p.parse with
  | .idle => p.opcode k b
  | .collect op need got => p.operand k op need got b

/-- A data byte (43_wire_commands.md R190, m = 1; 20_memory.md R77, R79). -/
def Panel.dataByte (k : Params) (b : Byte) (p : Panel) : Panel :=
  match p.parse with
  | .idle => p.data k b
  | .collect _ _ _ => p.any

/-- Whether an erase is in progress: `P.busy_clear`, "only if T_CLEAR > 0" (43_wire_commands.md R190). With T_CLEAR = 0 the
bit is not looked at (10_state.md R49, log 37). -/
def Panel.erasing (k : Params) (p : Panel) : Bool := k.tClear != 0 && p.busyClear

/-- `panel_byte(m, b)` (43_wire_commands.md R190). -/
def Panel.byte (k : Params) (w : WireByte) (p : Panel) : Panel :=
  if p.erasing k then p.any
  else if w.1 then p.dataByte k w.2
  else p.commandByte k w.2

/-- The controller finishes an erase: `P.busy_clear` becomes false (10_state.md R49, log 18); where PANEL is ANY until the
next reset pulse it stays ANY, this bit too (10_state.md R39, 60_exceptions.md R240, log 9, log 10). -/
def Panel.eraseEnd (rst : LineState) (p : Panel) : Panel :=
  if rst = ⟨.output, .high⟩ ∧ p.lost = false then { p with busyClear := false } else p.any

/-- A byte that reaches PANEL's pins. While the reset line is not driven high (10_state.md R31,
70_reset_and_hazards.md R262, log 10), or after a failed byte and before the next reset pulse (10_state.md R39, log 9),
PANEL is ANY. -/
def Panel.receive (k : Params) (rst : LineState) (w : WireByte) (p : Panel) : Panel :=
  if rst = ⟨.output, .high⟩ ∧ p.lost = false then p.byte k w else p.any

/-- PANEL at one event of the wire trace (20_memory.md R80, R86): it takes `Tx` with the mode the mode-select line
has, and the reset line's levels; a failed byte leaves it ANY until the next reset pulse (10_state.md R39). -/
def Panel.event (k : Params) (l : Lines) (e : Event) (p : Panel) : Panel :=
  match e with
  | .dir _ => p
  | .level .dc _ => p
  | .level .rst false => p.any
  | .level .rst true => p.postReset
  | .wait _ => p
  | .busInit => p
  | .attach _ _ => p
  | .tx b =>
    match l.dc with
    | ⟨.output, .low⟩ => p.receive k l.rst (false, b)
    | ⟨.output, .high⟩ => p.receive k l.rst (true, b)
    | _ => p.any
  | .txFail _ _ => { p.any with lost := true }
  | .detach => p
  | .busFree => p

end Sys2Proof.Machine
end

