-- ==== Sys2Proof/Machine/Ops.lean ====
section
/-! DEFINITION. The shared operations: an event performed, the transport's requests and answers
(spec/40_transport.md R120, R121), a byte sent (R126, R127), the reset pulse (R124), an error raised and BEGIN's
roll-back (spec/41_engine.md R143), and how an operation's run becomes a step's outcome. -/

namespace Sys2Proof.Machine

/-- How an operation ends: it returns a result, or a transport request never answers (00_scope.md R15). -/
inductive Run where
  | returned (r : Result) (s : State)
  | hung (s : State)

/-- The lines after an event (10_state.md R31). DEDUCED: making a line an output keeps its level, also where the line
was an output and driven before, as in a BEGIN after one that failed (log 36). -/
def Lines.event (e : Event) (l : Lines) : Lines :=
  match e with
  | .dir .dc => { l with dc := { l.dc with dir := .output } }
  | .dir .rst => { l with rst := { l.rst with dir := .output } }
  | .level .dc v => { l with dc := { l.dc with level := if v then .high else .low } }
  | .level .rst v => { l with rst := { l.rst with level := if v then .high else .low } }
  | .wait _ => l
  | .busInit => l
  | .attach _ _ => l
  | .tx _ => l
  | .txFail _ _ => l
  | .detach => l
  | .busFree => l

/-- TRANSPORT after an event (10_state.md R36). -/
def Transport.event (e : Event) (t : Transport) : Transport :=
  match e with
  | .dir _ => t
  | .level _ _ => t
  | .wait _ => t
  | .busInit => { t with bus := .allocated }
  | .attach hz mode => { t with dev := .attached hz mode }
  | .tx _ => t
  | .txFail _ _ => t
  | .detach => { t with dev := .detached }
  | .busFree => { t with bus := .free }

/-- TRANSPORT performs an event: it is appended to the wire trace (10_state.md R38, 40_transport.md R120), and the
lines, TRANSPORT and PANEL take it (20_memory.md R80). -/
def emit (e : Event) (s : State) : State :=
  { s with
    trace := s.trace ++ [e]
    L := s.L.event e
    T := s.T.event e
    P := s.P.event s.params (s.L.event e) e }

/-- The answer TRANSPORT gives next. -/
def Oracle.next (o : Oracle) : Answer :=
  match o.script with
  | [] => o.after
  | a :: _ => a

/-- The answers after the next one. -/
def Oracle.rest (o : Oracle) : Oracle := { o with script := o.script.tail }

/-- One answer taken. -/
def takeAnswer (s : State) : State := { s with oracle := s.oracle.rest }

/-- A request that can fail or hang (40_transport.md R121): what to do on each answer. -/
def request (s : State) (onOk : State → Run) (onErr : TransportFailure → State → Run) : Run :=
  match s.oracle.next with
  | .ok => onOk (takeAnswer s)
  | .err t => onErr t (takeAnswer s)
  | .never => .hung s

/-- `set_dir(line, Output)` (40_transport.md R120); it always answers Ok (R121, log 25). -/
def setDir (line : Line) (s : State) : State := emit (.dir line) s

/-- `set_line(line, v)` (40_transport.md R120). -/
def setLine (line : Line) (v : Bool) (s : State) : State := emit (.level line v) s

/-- `wait_ms(n)`: a wait of at least the minimum, its length above that free (40_transport.md R124, log 23). -/
def waitAtLeast (minimum : Nat) (s : State) : State :=
  emit (.wait (minimum + Config.extraWait s.waits)) { s with waits := s.waits + 1 }

/-- `detach()` (40_transport.md R120). -/
def detach (s : State) : State := emit .detach s

/-- `bus_free()` (40_transport.md R120). -/
def busFree (s : State) : State := emit .busFree s

/-- TAKING AN ERROR, `raise <Error>(info)` (00_scope.md R12): after the rule's clean-up the operation in progress ends
and returns `Err(e)`; there is no trap vector, no saved program counter and no mode change (60_exceptions.md R239).
Recovery is a new BEGIN (60_exceptions.md R240), so there is no return operation. -/
def raise (e : ErrorCause) (s : State) : Run := .returned (.err e) s

/-- SEND_COMMAND and SEND_DATA: the mode-select level driven on every call, then one byte (40_transport.md R126,
R127). -/
def send (w : WireByte) (s : State) : Run :=
  request (setLine .dc w.1 s)
    (fun s => .returned .ok (emit (.tx w.2) (countByte s)))
    (fun t s => raise (.busError t) (emit (.txFail w.2 t) (countByte s)))

/-- A run and then another whatever the first returned; the result is the first error (41_engine.md R151). -/
def Run.both (run : Run) (f : State → Run) : Run :=
  match run with
  | .hung s => .hung s
  | .returned r s =>
    match f s with
    | .hung s' => .hung s'
    | .returned r' s' => .returned (firstError r r') s'

/-- A run and then another only if the first returned Ok (41_engine.md R143). -/
def Run.ifOk (run : Run) (f : State → Run) : Run :=
  match run with
  | .hung s => .hung s
  | .returned .ok s => f s
  | .returned (.err e) s => .returned (.err e) s

/-- A run whose state, if it returns, is changed last. -/
def Run.thenDo (run : Run) (f : State → State) : Run :=
  match run with
  | .hung s => .hung s
  | .returned r s => .returned r (f s)

/-- A run whose state, if it returns an error, is changed last. -/
def Run.onError (run : Run) (f : State → State) : Run :=
  match run with
  | .hung s => .hung s
  | .returned .ok s => .returned .ok s
  | .returned (.err e) s => .returned (.err e) (f s)

/-- Every byte attempted, in order, whatever the earlier ones reported (41_engine.md R151). -/
def sendAll : List WireByte → State → Run
  | [], s => .returned .ok s
  | w :: rest, s => (send w s).both (sendAll rest)

/-- Bytes sent until one fails (41_engine.md R143). -/
def sendUntilError : List WireByte → State → Run
  | [], s => .returned .ok s
  | w :: rest, s => (send w s).ifOk (sendUntilError rest)

/-- The hardware reset pulse (40_transport.md R124). -/
def resetPulse (s : State) : State :=
  waitAtLeast Config.rstHighMin (setLine .rst true (waitAtLeast Config.rstLowMin (setLine .rst false s)))

/-- The lines made outputs, mode-select first, then the reset pulse; then `E.fsm <- Configuring` (40_transport.md
R122). -/
def resetPanel (s : State) : State := setFsm .configuring (resetPulse (setDir .rst (setDir .dc s)))

/-- `bus_init()` (40_transport.md R122, R125). -/
def busInit (s : State) : Run :=
  request s (fun s => .returned .ok (emit .busInit s)) (fun t s => raise (.busError t) s)

/-- `attach(hz, 0)`; on failure the bus allocation is rolled back (40_transport.md R122, R125). -/
def attach (hz : Nat) (s : State) : Run :=
  request s (fun s => .returned .ok (emit (.attach hz Config.spiMode) s))
    (fun t s => raise (.busError t) (busFree s))

/-- CONFIGURE (40_transport.md R122), the check first (R123). -/
def configure (cfg : Option DisplayConfig) (s : State) : Run :=
  match validConfig cfg with
  | none => raise .configError s
  | some c => (busInit (resetPanel s)).ifOk (attach c.clockHz)

/-- BEGIN's clean-up after CONFIGURE failed (41_engine.md R141). -/
def abandon (s : State) : State := setDisplayOn false (setFsm .uninitialized s)

/-- BEGIN's roll-back after a byte of the sequence failed (41_engine.md R141, R143). -/
def rollBack (s : State) : State := abandon (setHandle false (busFree (detach s)))

/-- The step of an operation: what it returned is its result, `finish` (41_engine.md, head); one that hangs leaves
`E.busy` true (60_exceptions.md R236). -/
def conclude (run : Run) : Host.Outcome State Fault Refusal :=
  match run with
  | .returned r s => .next (finish r s)
  | .hung s => .next (hang s)

/-- The step of a host operation that needs `Ready` (41_engine.md R140, 60_exceptions.md R238): the precondition first,
then the body from `E.busy <- true; E.seq <- 0`. -/
def whenReady (body : State → Run) (s : State) : Host.Outcome State Fault Refusal :=
  if s.E.busy then .refused .busy
  else if s.E.fsm = .ready then conclude (body (start s))
  else .refused .notReady

/-- The step of a transport primitive run on its own: what it returned goes to its caller (log 13). -/
def concludeCall (run : Run) : Host.Outcome State Fault Refusal :=
  match run with
  | .returned r s => .next { s with ret := some r }
  | .hung s => .next { hang s with ret := none }

/-- Wire bytes that reach PANEL's pins on their own, in order (43_wire_commands.md R190, log 11). -/
def arrive (bytes : List WireByte) (s : State) : State :=
  { s with P := bytes.foldl (fun p w => p.receive s.params s.L.rst w) s.P }

end Sys2Proof.Machine
end

