-- ==== Sys2Proof/Machine/Engine.lean ====
section
/-! DEFINITION. The controller protocol engine (spec/41_engine.md): BEGIN, TURN_ON, TURN_OFF, SET_PIXEL,
CLEAR_WINDOW. -/

namespace Sys2Proof.Machine

/-- The initialization sequence, rolled back at the first byte that fails (R141, R142, R143). -/
def sendInitSeq (s : State) : Run := (sendUntilError ((initSeq s.params).map cmd) s).onError rollBack

/-- BEGIN after its configuration passed the check (R141). -/
def bringUp (c : DisplayConfig) (s : State) : Run :=
  (((configure (some c) (setFsm .resetting (setCfg c s))).onError abandon).ifOk fun s =>
    sendInitSeq (setHandle true s)).ifOk fun s =>
    .returned .ok (setDisplayOn true (setFsm .ready s))

/-- BEGIN's body (R141): the configuration check before any side effect (60_exceptions.md R232, R238). -/
def beginBody (cfg : Option DisplayConfig) (s : State) : Run :=
  match validConfig cfg with
  | none => raise .configError s
  | some c => bringUp c s

/-- BEGIN (R140, R141). -/
def execBegin (cfg : Option DisplayConfig) (s : State) : Host.Outcome State Fault Refusal :=
  if s.E.busy then .refused .busy
  else if s.E.fsm = .uninitialized then conclude (beginBody cfg (start s))
  else .refused .beginNotUninitialized

/-- TURN_ON (R146): the flag is set whether or not the byte failed (10_state.md R25). -/
def execTurnOn (s : State) : Host.Outcome State Fault Refusal :=
  whenReady (fun s => (sendAll turnOnBytes s).thenDo (setDisplayOn true)) s

/-- TURN_OFF (R147). -/
def execTurnOff (s : State) : Host.Outcome State Fault Refusal :=
  whenReady (fun s => (sendAll turnOffBytes s).thenDo (setDisplayOn false)) s

/-- SET_PIXEL (R148, R149). -/
def execSetPixel (x y : Byte) (color : Color) (s : State) : Host.Outcome State Fault Refusal :=
  whenReady (fun s => sendAll (setPixelBytes x y color)
    (setLatch (fun l => { l with x := x.toNat, y := y.toNat, color := color }) s)) s

/-- CLEAR_WINDOW (R150). -/
def execClearWindow (s : State) : Host.Outcome State Fault Refusal :=
  whenReady (sendAll clearWindowBytes) s

end Sys2Proof.Machine
end

