-- ==== Sys2Proof/Machine/Rasterizer.lean ====
section
/-! DEFINITION. The text rasterizer (spec/42_rasterizer.md): DRAW_CHAR, DRAW_STRING. -/

namespace Sys2Proof.Machine

/-- `draw_char_body` (R173): an invalid id sends nothing (R175), else one SET_PIXEL per lit bit, every byte
attempted. -/
def drawCharBody (x y id : Nat) (color : Color) (s : State) : Run :=
  if Config.nGlyph ≤ id then
    if s.params.strictArgs then raise .argumentError s else .returned .ok s
  else sendAll (glyphBytes s.params x y id color) s

/-- The cursor after a mapped character, and the position in the text (R177, R178 e). -/
def advanceCursor (s : State) : State :=
  setLatch (fun l => { l with curX := l.curX + Config.advance, textPos := l.textPos + 1 }) s

/-- The position in the text after an unmapped character: the cursor does not move (R177). -/
def skipCharacter (s : State) : State := setLatch (fun l => { l with textPos := l.textPos + 1 }) s

/-- The loop of DRAW_STRING (R177) over the text, with the cursor in the latches. DESIGN CHOICE: the `E.char_id` latch takes
the id of each mapped character and keeps the last one (log 3). -/
def drawText (color : Color) : List CodePoint → State → Run
  | [], s => .returned .ok s
  | ch :: rest, s =>
    match charMap ch with
    | none => drawText color rest (skipCharacter s)
    | some id =>
      ((drawCharBody s.E.latch.curX s.E.latch.curY id color
        (setLatch (fun l => { l with charId := id }) s)).thenDo advanceCursor).both (drawText color rest)

/-- DRAW_CHAR (R173). -/
def execDrawChar (x y charId : Nat) (color : Color) (s : State) : Host.Outcome State Fault Refusal :=
  whenReady (fun s => drawCharBody x y charId color
    (setLatch (fun l => { l with x := x, y := y, charId := charId, color := color }) s)) s

/-- DRAW_STRING (R177). -/
def execDrawString (x y : Nat) (text : List CodePoint) (color : Color) (s : State) :
    Host.Outcome State Fault Refusal :=
  whenReady (fun s => drawText color text
    (setLatch (fun l =>
      { l with x := x, y := y, color := color, curX := x, curY := y, text := text, textPos := 0 }) s)) s

end Sys2Proof.Machine
end

