-- ==== Sys2Proof/Machine/Transport.lean ====
section
/-! DEFINITION. The transport primitives as instructions (spec/40_transport.md): what the engine does when it calls
them. Each of them is refused while an operation hangs (60_exceptions.md R236, log 13). -/

namespace Sys2Proof.Machine

/-- CONFIGURE (R122 to R125). With the bus already allocated it is not in the source (R131, log 14). -/
def execConfigure (cfg : Option DisplayConfig) (s : State) : Host.Outcome State Fault Refusal :=
  if s.E.busy then .refused .busy
  else if s.T.bus = .allocated then .refused .busAllocated else concludeCall (configure cfg s)

/-- SEND_COMMAND (R126); without a handle REFUSE (R129). -/
def execSendCommand (b : Byte) (s : State) : Host.Outcome State Fault Refusal :=
  if s.E.busy then .refused .busy
  else if s.E.handle then concludeCall (send (cmd b) s)
  else .refused .noHandle

/-- SEND_DATA (R127); without a handle REFUSE (R129). -/
def execSendData (b : Byte) (s : State) : Host.Outcome State Fault Refusal :=
  if s.E.busy then .refused .busy
  else if s.E.handle then concludeCall (send (dat b) s)
  else .refused .noHandle

end Sys2Proof.Machine
end

