-- ==== Sys2Proof/Machine/WireCommands.lean ====
section
/-! DEFINITION. The wire commands and the pixel data write as instructions (spec/43_wire_commands.md, spec/20_memory.md
R77): the whole command arrives at PANEL, byte by byte (R190). What a command does once it is whole is in
Machine/Panel.lean. -/

namespace Sys2Proof.Machine

/-- SET_COLUMN_ADDRESS (R192; bounds in 20_memory.md R74). -/
def execSetColumnAddress (a b : Byte) (s : State) : Host.Outcome State Fault Refusal :=
  .next (arrive (commandBytes 0x15#8 [a, b]) s)

/-- CLEAR_WINDOW_CMD (R194). -/
def execClearWindowCmd (a b c d : Byte) (s : State) : Host.Outcome State Fault Refusal :=
  .next (arrive (commandBytes 0x25#8 [a, b, c, d]) s)

/-- FILL_ENABLE (R195). -/
def execFillEnable (a : Byte) (s : State) : Host.Outcome State Fault Refusal :=
  .next (arrive (commandBytes 0x26#8 [a]) s)

/-- SET_ROW_ADDRESS (R193; bounds in 20_memory.md R74). -/
def execSetRowAddress (a b : Byte) (s : State) : Host.Outcome State Fault Refusal :=
  .next (arrive (commandBytes 0x75#8 [a, b]) s)

/-- SET_CONTRAST_A (R196). -/
def execSetContrastA (a : Byte) (s : State) : Host.Outcome State Fault Refusal :=
  .next (arrive (commandBytes 0x81#8 [a]) s)

/-- SET_CONTRAST_B (R197). -/
def execSetContrastB (a : Byte) (s : State) : Host.Outcome State Fault Refusal :=
  .next (arrive (commandBytes 0x82#8 [a]) s)

/-- SET_CONTRAST_C (R198). -/
def execSetContrastC (a : Byte) (s : State) : Host.Outcome State Fault Refusal :=
  .next (arrive (commandBytes 0x83#8 [a]) s)

/-- SET_MASTER_CURRENT (R199). -/
def execSetMasterCurrent (a : Byte) (s : State) : Host.Outcome State Fault Refusal :=
  .next (arrive (commandBytes 0x87#8 [a]) s)

/-- SET_PRECHARGE_A (R200). -/
def execSetPrechargeA (a : Byte) (s : State) : Host.Outcome State Fault Refusal :=
  .next (arrive (commandBytes 0x8A#8 [a]) s)

/-- SET_PRECHARGE_B (R201). -/
def execSetPrechargeB (a : Byte) (s : State) : Host.Outcome State Fault Refusal :=
  .next (arrive (commandBytes 0x8B#8 [a]) s)

/-- SET_PRECHARGE_C (R202). -/
def execSetPrechargeC (a : Byte) (s : State) : Host.Outcome State Fault Refusal :=
  .next (arrive (commandBytes 0x8C#8 [a]) s)

/-- SET_REMAP (R203). -/
def execSetRemap (a : Byte) (s : State) : Host.Outcome State Fault Refusal :=
  .next (arrive (commandBytes 0xA0#8 [a]) s)

/-- SET_START_LINE (R204). -/
def execSetStartLine (a : Byte) (s : State) : Host.Outcome State Fault Refusal :=
  .next (arrive (commandBytes 0xA1#8 [a]) s)

/-- SET_DISPLAY_OFFSET (R205). -/
def execSetDisplayOffset (a : Byte) (s : State) : Host.Outcome State Fault Refusal :=
  .next (arrive (commandBytes 0xA2#8 [a]) s)

/-- NORMAL_DISPLAY (R206). -/
def execNormalDisplay (s : State) : Host.Outcome State Fault Refusal :=
  .next (arrive (commandBytes 0xA4#8 []) s)

/-- SET_MULTIPLEX (R207). -/
def execSetMultiplex (a : Byte) (s : State) : Host.Outcome State Fault Refusal :=
  .next (arrive (commandBytes 0xA8#8 [a]) s)

/-- SET_MASTER_CONFIG (R208). -/
def execSetMasterConfig (a : Byte) (s : State) : Host.Outcome State Fault Refusal :=
  .next (arrive (commandBytes 0xAD#8 [a]) s)

/-- DISPLAY_OFF (R209). -/
def execDisplayOff (s : State) : Host.Outcome State Fault Refusal :=
  .next (arrive (commandBytes 0xAE#8 []) s)

/-- DISPLAY_ON (R210). -/
def execDisplayOn (s : State) : Host.Outcome State Fault Refusal :=
  .next (arrive (commandBytes 0xAF#8 []) s)

/-- SET_POWER_MODE (R211). -/
def execSetPowerMode (a : Byte) (s : State) : Host.Outcome State Fault Refusal :=
  .next (arrive (commandBytes 0xB0#8 [a]) s)

/-- SET_PRECHARGE (R212). -/
def execSetPrecharge (a : Byte) (s : State) : Host.Outcome State Fault Refusal :=
  .next (arrive (commandBytes 0xB1#8 [a]) s)

/-- SET_CLOCK_DIV (R213). -/
def execSetClockDiv (a : Byte) (s : State) : Host.Outcome State Fault Refusal :=
  .next (arrive (commandBytes 0xB3#8 [a]) s)

/-- SET_PRECHARGE_LEVEL (R214). -/
def execSetPrechargeLevel (a : Byte) (s : State) : Host.Outcome State Fault Refusal :=
  .next (arrive (commandBytes 0xBB#8 [a]) s)

/-- SET_VCOMH (R215). -/
def execSetVcomh (a : Byte) (s : State) : Host.Outcome State Fault Refusal :=
  .next (arrive (commandBytes 0xBE#8 [a]) s)

/-- PIX (R216, 20_memory.md R77). -/
def execPix (h l : Byte) (s : State) : Host.Outcome State Fault Refusal :=
  .next (arrive [dat h, dat l] s)

end Sys2Proof.Machine
end

