-- ==== Sys2Proof/Machine/Dispatch.lean ====
section
/-! DEFINITION. One arm per instruction. -/

namespace Sys2Proof.Machine

def exec (i : Instr) (s : State) : Host.Outcome State Fault Refusal :=
  match i with
  | .setColumnAddress a b => Sys2Proof.Machine.execSetColumnAddress a b s
  | .clearWindowCmd a b c d => Sys2Proof.Machine.execClearWindowCmd a b c d s
  | .fillEnable a => Sys2Proof.Machine.execFillEnable a s
  | .setRowAddress a b => Sys2Proof.Machine.execSetRowAddress a b s
  | .setContrastA a => Sys2Proof.Machine.execSetContrastA a s
  | .setContrastB a => Sys2Proof.Machine.execSetContrastB a s
  | .setContrastC a => Sys2Proof.Machine.execSetContrastC a s
  | .setMasterCurrent a => Sys2Proof.Machine.execSetMasterCurrent a s
  | .setPrechargeA a => Sys2Proof.Machine.execSetPrechargeA a s
  | .setPrechargeB a => Sys2Proof.Machine.execSetPrechargeB a s
  | .setPrechargeC a => Sys2Proof.Machine.execSetPrechargeC a s
  | .setRemap a => Sys2Proof.Machine.execSetRemap a s
  | .setStartLine a => Sys2Proof.Machine.execSetStartLine a s
  | .setDisplayOffset a => Sys2Proof.Machine.execSetDisplayOffset a s
  | .normalDisplay => Sys2Proof.Machine.execNormalDisplay s
  | .setMultiplex a => Sys2Proof.Machine.execSetMultiplex a s
  | .setMasterConfig a => Sys2Proof.Machine.execSetMasterConfig a s
  | .displayOff => Sys2Proof.Machine.execDisplayOff s
  | .displayOn => Sys2Proof.Machine.execDisplayOn s
  | .setPowerMode a => Sys2Proof.Machine.execSetPowerMode a s
  | .setPrecharge a => Sys2Proof.Machine.execSetPrecharge a s
  | .setClockDiv a => Sys2Proof.Machine.execSetClockDiv a s
  | .setPrechargeLevel a => Sys2Proof.Machine.execSetPrechargeLevel a s
  | .setVcomh a => Sys2Proof.Machine.execSetVcomh a s
  | .pix h l => Sys2Proof.Machine.execPix h l s
  | .begin cfg => Sys2Proof.Machine.execBegin cfg s
  | .turnOn => Sys2Proof.Machine.execTurnOn s
  | .turnOff => Sys2Proof.Machine.execTurnOff s
  | .clearWindow => Sys2Proof.Machine.execClearWindow s
  | .setPixel x y color => Sys2Proof.Machine.execSetPixel x y color s
  | .drawChar x y charId color => Sys2Proof.Machine.execDrawChar x y charId color s
  | .drawString x y text color => Sys2Proof.Machine.execDrawString x y text color s
  | .configure cfg => Sys2Proof.Machine.execConfigure cfg s
  | .sendCommand b => Sys2Proof.Machine.execSendCommand b s
  | .sendData b => Sys2Proof.Machine.execSendData b s

end Sys2Proof.Machine
end

