-- ==== Sys2Proof/Machine/Fetch.lean ====
section
/-! DEFINITION. What the machine takes next: wire bytes at PANEL's pins first, then the next item of the inbox
(spec/30_encoding.md R99, R100, spec/60_exceptions.md R235, R246, R236; log 1, log 12, log 13). -/

namespace Sys2Proof.Machine

/-- What the next step is. -/
inductive Fetched where
  /-- a whole instruction, and the machine with it taken -/
  | run (i : Instr) (s : State)
  /-- something that is no whole instruction, already taken by PANEL: one wire byte, or the end of an erase -/
  | taken (s : State)
  /-- nothing presented -/
  | idle
  | stuck (f : Fault)
  | refuse (r : Refusal)

/-- How a rejected request is refused. -/
def refusalOf (e : DecodeError) (r : Request) : Refusal :=
  match e with
  | .unassignedCode op => .unassignedCode op
  | .empty => .unassignedCode r.op
  | .unknownOpcode _ => .unassignedCode r.op
  | .truncated _ => .unassignedCode r.op
  | .halfPixel _ => .unassignedCode r.op
  | .trailingBytes => .unassignedCode r.op

/-- A request at the host's port: unassigned codes and transport primitives are REFUSE (30_encoding.md R100,
60_exceptions.md R235 d, f). -/
def fetchHost (r : Request) (s : State) : Fetched :=
  match decodeRequest r with
  | .error e => .refuse (refusalOf e r)
  | .ok i => if i.level = .transport then .refuse .transportFromHost else .run i s

/-- A call at an internal interface: any assigned code (log 13). While an operation hangs the instruction itself refuses
it (`Refusal.busy`). -/
def fetchCall (r : Request) (s : State) : Fetched :=
  match decodeRequest r with
  | .error e => .refuse (refusalOf e r)
  | .ok i => .run i s

/-- The next item of the inbox; with none, an operation that hangs leaves nothing to do (60_exceptions.md R236), and
an idle machine waits. -/
def fetchInbox (s : State) : Fetched :=
  match s.inbox with
  | .host r :: rest => fetchHost r { s with inbox := rest }
  | .call r :: rest => fetchCall r { s with inbox := rest }
  | .eraseDone :: rest => .taken { s with inbox := rest, P := s.P.eraseEnd s.L.rst }
  | [] => if s.E.busy then .stuck .hung else .idle

/-- Whether the byte w would begin a whole instruction at PANEL: the parser idle and, for a data byte, no half pixel
latched (20_memory.md R84, R77). -/
def atBoundary (p : Panel) (w : WireByte) : Bool := p.parse = .idle && (!w.1 || p.pixHi = none)

/-- The wire: a whole instruction where one stands, else the one byte (43_wire_commands.md R190). -/
def fetchWire (w : WireByte) (rest : List WireByte) (s : State) : Fetched :=
  if atBoundary s.P w then
    match decodeWire (w :: rest) with
    | .ok (i, rest') => .run i { s with wireIn := rest' }
    | .error _ => .taken (arrive [w] { s with wireIn := rest })
  else .taken (arrive [w] { s with wireIn := rest })

/-- The next thing to do. -/
def fetch (s : State) : Fetched :=
  match s.wireIn with
  | w :: rest => fetchWire w rest s
  | [] => fetchInbox s

/-- A code put where the fetch takes it from next: a request of the transport level at the internal interface, another
at the host's port, wire bytes at PANEL's pins at an instruction boundary (log 1, log 28). -/
def place (c : Code) (s : State) : State :=
  match c with
  | .wire bytes =>
    { s with
      wireIn := bytes ++ s.wireIn
      P := { s.P with parse := .idle, pixHi := if (bytes.head?.map Prod.fst) = some true then none else s.P.pixHi } }
  | .request r =>
    match decodeRequest r with
    | .ok i =>
      { s with wireIn := [], inbox := (if i.level = .transport then .call r else .host r) :: s.inbox }
    | .error _ => { s with wireIn := [], inbox := .host r :: s.inbox }

end Sys2Proof.Machine
end

