-- ==== Sys2Proof/Machine/Step.lean ====
section
/-! DEFINITION. One step: what stands next is taken and run (spec/00_scope.md R7, spec/20_memory.md R80). -/

namespace Sys2Proof.Machine

/-- One step of the machine. -/
def step (s : State) : Host.Outcome State Fault Refusal :=
  match fetch s with
  | .run i s' => exec i s'
  | .taken s' => .next s'
  | .idle => .next s
  | .stuck f => .fault f
  | .refuse r => .refused r

/-- The instruction of an opcode-table word placed where the next step takes it (log 1, log 28). -/
def State.withFetchWord (s : State) (nbits w : Nat) : State := place (codeOfTableWord nbits w) s

end Sys2Proof.Machine
end

