-- ==== Sys2Proof/Safety.lean ====
section
/-! DEFINITION. The terms the claims are stated in: the transport's answers to come, the wire trace of an operation,
PANEL in step with the engine, the invariants of a session and of the trace. -/

namespace Sys2Proof.Machine

/-- The k-th answer to come. -/
def Oracle.answerAt : Oracle → Nat → Answer
  | o, 0 => o.next
  | o, k + 1 => o.rest.answerAt k

/-- The answers after the next n. -/
def Oracle.drop : Oracle → Nat → Oracle
  | o, 0 => o
  | o, n + 1 => o.rest.drop n

/-- The next n requests are all answered Ok. -/
abbrev Oracle.allOk (o : Oracle) (n : Nat) : Prop := ∀ k < n, o.answerAt k = .ok

/-- The next n requests are all answered: the premise of 60_exceptions.md R236. -/
abbrev Oracle.allAnswered (o : Oracle) (n : Nat) : Prop := ∀ k < n, o.answerAt k ≠ .never

/-- The first error among the next n answers (41_engine.md R151). -/
def Oracle.firstError : Oracle → Nat → Result
  | _, 0 => .ok
  | o, n + 1 =>
    match o.next with
    | .err t => .err (.busError t)
    | .ok => o.rest.firstError n
    | .never => .ok

/-- The events of one byte that was sent (40_transport.md R126, R127). -/
def sentEvents (w : WireByte) : List Event := [.level .dc w.1, .tx w.2]

/-- The events of bytes all of which were sent. -/
def sent (bytes : List WireByte) : List Event := bytes.flatMap sentEvents

/-- The events of bytes attempted in order under given answers: a byte that fails is followed by the next, one that is
never answered is the last (41_engine.md R151, 60_exceptions.md R236). -/
def attempts : Oracle → List WireByte → List Event
  | _, [] => []
  | o, w :: rest =>
    match o.next with
    | .ok => .level .dc w.1 :: .tx w.2 :: attempts o.rest rest
    | .err t => .level .dc w.1 :: .txFail w.2 t :: attempts o.rest rest
    | .never => [.level .dc w.1]

/-- The byte view of a trace: one pair per `Tx`, with the level of the mode-select line at it (10_state.md R38); a byte
sent before the line was driven has no pair. -/
def byteView (dc : LineLevel) : List Event → List WireByte
  | [] => []
  | .level .dc v :: rest => byteView (if v then .high else .low) rest
  | .tx b :: rest =>
    match dc with
    | .unknown => byteView dc rest
    | .low => (false, b) :: byteView dc rest
    | .high => (true, b) :: byteView dc rest
  | .dir _ :: rest => byteView dc rest
  | .level .rst _ :: rest => byteView dc rest
  | .wait _ :: rest => byteView dc rest
  | .busInit :: rest => byteView dc rest
  | .attach _ _ :: rest => byteView dc rest
  | .txFail _ _ :: rest => byteView dc rest
  | .detach :: rest => byteView dc rest
  | .busFree :: rest => byteView dc rest

/-- What a host operation needs of the engine in `Ready` (41_engine.md R140, 60_exceptions.md R246). -/
abbrev State.readyIdle (s : State) : Prop := s.E.fsm = .ready ∧ s.E.busy = false

/-- PANEL takes wire bytes as the receiver model states: the reset line driven high, no byte lost since the last reset
pulse, no erase in progress, the parser idle (43_wire_commands.md R190, 10_state.md R39, 70_reset_and_hazards.md
R262). -/
abbrev State.hears (s : State) : Prop :=
  s.L.rst = ⟨.output, .high⟩ ∧ s.P.lost = false ∧ s.P.erasing s.params = false ∧ s.P.parse = .idle

/-- PANEL is in step with the engine: it hears, the mode-select line is an output, no half pixel is latched
(70_reset_and_hazards.md R268). -/
abbrev State.inStep (s : State) : Prop := s.hears ∧ s.L.dc.dir = .output ∧ s.P.pixHi = none

/-- The bytes a host operation of `Ready` sends (41_engine.md R146 to R150, 42_rasterizer.md R173, R177). -/
def readyBytes (k : Params) : Instr → Option (List WireByte)
  | .setColumnAddress _ _ => none
  | .clearWindowCmd _ _ _ _ => none
  | .fillEnable _ => none
  | .setRowAddress _ _ => none
  | .setContrastA _ => none
  | .setContrastB _ => none
  | .setContrastC _ => none
  | .setMasterCurrent _ => none
  | .setPrechargeA _ => none
  | .setPrechargeB _ => none
  | .setPrechargeC _ => none
  | .setRemap _ => none
  | .setStartLine _ => none
  | .setDisplayOffset _ => none
  | .normalDisplay => none
  | .setMultiplex _ => none
  | .setMasterConfig _ => none
  | .displayOff => none
  | .displayOn => none
  | .setPowerMode _ => none
  | .setPrecharge _ => none
  | .setClockDiv _ => none
  | .setPrechargeLevel _ => none
  | .setVcomh _ => none
  | .pix _ _ => none
  | .begin _ => none
  | .turnOn => some turnOnBytes
  | .turnOff => some turnOffBytes
  | .clearWindow => some clearWindowBytes
  | .setPixel x y color => some (setPixelBytes x y color)
  | .drawChar x y id color => some (drawCharBytes k x y id color)
  | .drawString x y text color => some (drawStringBytes k x y color text)
  | .configure _ => none
  | .sendCommand _ => none
  | .sendData _ => none

/-- The result of a host operation of `Ready` under given answers (41_engine.md R151, 42_rasterizer.md R175). -/
def readyResult (k : Params) (o : Oracle) (i : Instr) (n : Nat) : Result :=
  match i with
  | .drawChar _ _ id _ =>
    if Config.nGlyph ≤ id ∧ k.strictArgs = true then .err .argumentError else o.firstError n
  | _ => o.firstError n

/-- The public operations of the host (30_encoding.md R99, 60_exceptions.md R242). -/
def isPublic : Instr → Bool
  | .setColumnAddress _ _ => false
  | .clearWindowCmd _ _ _ _ => false
  | .fillEnable _ => false
  | .setRowAddress _ _ => false
  | .setContrastA _ => false
  | .setContrastB _ => false
  | .setContrastC _ => false
  | .setMasterCurrent _ => false
  | .setPrechargeA _ => false
  | .setPrechargeB _ => false
  | .setPrechargeC _ => false
  | .setRemap _ => false
  | .setStartLine _ => false
  | .setDisplayOffset _ => false
  | .normalDisplay => false
  | .setMultiplex _ => false
  | .setMasterConfig _ => false
  | .displayOff => false
  | .displayOn => false
  | .setPowerMode _ => false
  | .setPrecharge _ => false
  | .setClockDiv _ => false
  | .setPrechargeLevel _ => false
  | .setVcomh _ => false
  | .pix _ _ => false
  | .begin _ => true
  | .turnOn => true
  | .turnOff => true
  | .clearWindow => true
  | .setPixel _ _ _ => false
  | .drawChar _ _ _ _ => true
  | .drawString _ _ _ _ => true
  | .configure _ => false
  | .sendCommand _ => false
  | .sendData _ => false

/-- The cells a glyph at an origin lights, in wire order (42_rasterizer.md R173, R176). -/
def glyphCells (k : Params) (x y id : Nat) : List (Nat × Nat) :=
  (litPixels k id).map fun p => (clampX x + p.1, clampY y + p.2)

/-- The cells a text lights, in wire order, with the cursor at cx (42_rasterizer.md R177). -/
def textCells (k : Params) (cx cy : Nat) : List CodePoint → List (Nat × Nat)
  | [] => []
  | ch :: rest =>
    match charMap ch with
    | none => textCells k cx cy rest
    | some id => glyphCells k cx cy id ++ textCells k (cx + Config.advance) cy rest

/-- Cells on the panel (20_memory.md R73). -/
abbrev onPanel (cells : List (Nat × Nat)) : Prop := ∀ p ∈ cells, p.1 < Config.width ∧ p.2 < Config.height

/-- Exactly these cells took the colour: each reads it, and every byte of the RAM outside them reads as before. -/
def paints (m m' : Memory) (cells : List (Nat × Nat)) (color : Color) : Prop :=
  (∀ p ∈ cells, m'.pixel p.1 p.2 = color) ∧
    ∀ a, (∀ p ∈ cells, a ≠ cellAddr p.1 p.2 ∧ a ≠ cellAddr p.1 p.2 + 1) → m'.byte a = m.byte a

/-- No window bound is out of range (20_memory.md R74); a window that is still as the reset pulse left it, no window
command having come, counts as such (log 40). -/
abbrev Panel.windowOk (p : Panel) : Prop :=
  p.windowFresh = true ∨
    (p.colStart.toNat ≤ p.colEnd.toNat ∧ p.colEnd.toNat ≤ 95 ∧ p.rowStart.toNat ≤ p.rowEnd.toNat ∧ p.rowEnd.toNat ≤ 63)

/-- The state with another PANEL. -/
def State.withPanel (s : State) (p : Panel) : State := { s with P := p }

/-- PANEL with its half pixel dropped (20_memory.md R68). -/
def Panel.dropHalf (p : Panel) : Panel := { p with pixHi := none }

/-- One whole unit of a session's bytes (41_engine.md R153 a), its pixels no further than column 99 and row 70
(60_exceptions.md R242). -/
inductive WholeUnit : List WireByte → Prop where
  | on : WholeUnit turnOnBytes
  | off : WholeUnit turnOffBytes
  | clear : WholeUnit clearWindowBytes
  | pixel (x y : Byte) (color : Color) : x.toNat ≤ 99 → y.toNat ≤ 70 → WholeUnit (setPixelBytes x y color)

/-- The engine between operations (10_state.md R21, R23, R24, R31). -/
def SessionInv (s : State) : Prop :=
  s.E.busy = false →
    s.E.seq = 0 ∧
    ((s.E.fsm = .uninitialized ∧ s.E.handle = false ∧ s.T.bus = .free ∧ s.T.dev = .detached ∧
        s.E.displayOn = false) ∨
      (s.E.fsm = .ready ∧ s.E.handle = true ∧ s.T.bus = .allocated ∧
        (∃ c, s.E.cfg = some c ∧ 0 < c.clockHz ∧ s.T.dev = .attached c.clockHz 0) ∧
        s.L.dc.dir = .output ∧ s.L.rst = ⟨.output, .high⟩))

/-- PANEL's own well-formedness: the pixel RAM in canonical form and a parser state the byte step can be in
(10_state.md R47, R48). -/
def PanelInv (s : State) : Prop := s.P.gram.wf ∧ s.P.parse.wf = true

/-- Nothing presented at the internal interface: only the engine calls a transport primitive (40_transport.md, head). -/
def NoCalls (s : State) : Prop := ∀ r, Input.call r ∉ s.inbox

/-- The invariant of a machine driven through its host port. -/
def Inv (s : State) : Prop := SessionInv s ∧ PanelInv s ∧ NoCalls s

/-- Reset timing as a property of the trace (70_reset_and_hazards.md R267): after each fall of the reset line a wait of
at least 100 ms, the rise, and again a wait of at least 100 ms, with nothing between; and before each bus set-up the
rise and that wait, with nothing between. -/
def ResetTimed (tr : List Event) : Prop :=
  (∀ pre post, tr = pre ++ Event.level .rst false :: post →
    ∃ d1 d2 rest, 100000 ≤ d1 ∧ 100000 ≤ d2 ∧
      post = .wait d1 :: .level .rst true :: .wait d2 :: rest) ∧
    ∀ pre post, tr = pre ++ Event.busInit :: post →
      ∃ d rest, 100000 ≤ d ∧ pre = rest ++ [.level .rst true, .wait d]

/-- Mode-select before the byte as a property of the trace (70_reset_and_hazards.md R269): each byte transmitted or
failed stands straight after a drive of the mode-select line. -/
def ModeBeforeByte (tr : List Event) : Prop :=
  ∀ pre e post, tr = pre ++ e :: post → (∃ b, e = .tx b) ∨ (∃ b t, e = .txFail b t) →
    ∃ pre' v, pre = pre' ++ [.level .dc v]

/-- What the wire trace decides: the lines, TRANSPORT and PANEL (20_memory.md R80, R86). -/
structure WireSide where
  L : Lines
  T : Transport
  P : Panel

/-- That part of a state. -/
def State.wireSide (s : State) : WireSide := { L := s.L, T := s.T, P := s.P }

/-- One event taken by that part. -/
def WireSide.event (k : Params) (v : WireSide) (e : Event) : WireSide where
  L := v.L.event e
  T := v.T.event e
  P := v.P.event k (v.L.event e) e

end Sys2Proof.Machine
end

