-- ==== Sys2Proof/Certificates/Slice0/Obligations.lean ====
section
/-! DEFINITION. The statements for the provers, from the numbered rules of spec/. -/

open Sys2Proof Sys2Proof.Machine

/-! ## Power-on and invariants -/

/-- 10_state.md section 10 and 70_reset_and_hazards.md section 1: the state before the first BEGIN, as far as the spec
gives it. -/
def Obligations.PowerOnState : Prop :=
  State.reset.E.fsm = .uninitialized ∧ State.reset.E.cfg = none ∧ State.reset.E.handle = false ∧
    State.reset.E.seq = 0 ∧ State.reset.E.displayOn = false ∧ State.reset.E.status = .ok ∧
    State.reset.E.busy = false ∧
    State.reset.L = { dc := ⟨.unconfigured, .unknown⟩, rst := ⟨.unconfigured, .unknown⟩ } ∧
    State.reset.T = { bus := .free, dev := .detached } ∧ State.reset.trace = []

/-- The invariants the later statements keep hold at power-on. -/
def Obligations.ResetMeetsEveryInvariant : Prop :=
  Inv State.reset ∧ ResetTimed State.reset.trace ∧ ModeBeforeByte State.reset.trace

/-- 10_state.md R21, R23, R24, R31, R47, R48: every step of a machine driven through its host port keeps the session
invariant, PANEL's parser well formed and the pixel RAM in canonical form. -/
def Obligations.EveryStepKeepsTheSessionInvariant : Prop :=
  ∀ s t : State, Inv s → step s = .next t → Inv t

/-- 70_reset_and_hazards.md R267: every step keeps the reset timing of the trace. -/
def Obligations.EveryStepKeepsTheResetTiming : Prop :=
  ∀ s t : State, ResetTimed s.trace → step s = .next t → ResetTimed t.trace

/-- 70_reset_and_hazards.md R269, 20_memory.md R81: every step keeps the mode-select drive straight before each byte. -/
def Obligations.EveryStepDrivesTheModeBeforeTheByte : Prop :=
  ∀ s t : State, ModeBeforeByte s.trace → step s = .next t → ModeBeforeByte t.trace

/-- 20_memory.md R80, R86: what an operation or a transport primitive does to the lines, TRANSPORT and PANEL is the left
fold of the events it appends to the trace, and it appends only. -/
def Obligations.PanelIsTheFoldOfTheTrace : Prop :=
  ∀ (i : Instr) (s t : State), i.level ≠ .wire → exec i s = .next t →
    ∃ events, t.trace = s.trace ++ events ∧
      t.wireSide = events.foldl (WireSide.event s.params) s.wireSide

/-- 10_state.md R30, R40: nothing PANEL holds reaches the rest of the machine; with another PANEL an instruction ends the
same way, and only PANEL differs after it. -/
def Obligations.NothingFlowsBackFromThePanel : Prop :=
  ∀ (i : Instr) (s t : State) (p : Panel), exec i s = .next t →
    ∃ p', exec i (s.withPanel p) = .next (t.withPanel p')

/-- 41_engine.md R144: no instruction but CONFIGURE, which only BEGIN calls, leaves `Ready`; the configuration, the
handle and TRANSPORT stay, and so do the parameters. -/
def Obligations.NoInstructionLeavesReady : Prop :=
  ∀ (i : Instr) (s t : State), (∀ cfg, i ≠ .configure cfg) → s.E.fsm = .ready → exec i s = .next t →
    t.E.fsm = .ready ∧ t.E.cfg = s.E.cfg ∧ t.E.handle = s.E.handle ∧ t.T = s.T ∧ t.params = s.params

/-! ## Encoding -/

/-- 30_encoding.md R96, R99: decoding an encoded instruction gives it back, alone and at the head of a longer wire byte
stream; every instruction, also one whose text is not well formed (log 39). -/
def Obligations.DecodeOfEncodeIsTheInstruction : Prop :=
  (∀ i : Instr, decode (encode i) = .ok i) ∧
    ∀ (i : Instr) (bytes rest : List WireByte), encode i = .wire bytes →
      decodeWire (bytes ++ rest) = .ok (i, rest)

/-- 30_encoding.md R97, R104: what the wire decoder reads is exactly the encoding of what it answers. -/
def Obligations.WireDecodingIsUnambiguous : Prop :=
  ∀ (bytes rest : List WireByte) (i : Instr), decodeWire bytes = .ok (i, rest) →
    ∃ code, encode i = .wire code ∧ bytes = code ++ rest

/-- 30_encoding.md R96, R99: words written out from the tables. -/
def Obligations.WrittenWordsDecode : Prop :=
  decodeWire [(false, 0b00010101#8), (false, 0x0A#8), (false, 0x0B#8)] = .ok (.setColumnAddress 0x0A#8 0x0B#8, []) ∧
    decodeWire [(false, 0b00100101#8), (false, 1#8), (false, 2#8), (false, 3#8), (false, 4#8)] =
      .ok (.clearWindowCmd 1#8 2#8 3#8 4#8, []) ∧
    decodeWire [(false, 0b10101110#8)] = .ok (.displayOff, []) ∧
    decodeWire [(true, 0xF8#8), (true, 0x00#8)] = .ok (.pix 0xF8#8 0x00#8, []) ∧
    decodeRequest { op := 0b0010#4 } = .ok .turnOff ∧
    decodeRequest { op := 0b0100#4, px := 10#8, py := 20#8, color := 0xF800#16 } =
      .ok (.setPixel 10#8 20#8 0xF800#16) ∧
    decodeRequest { op := 0b1010#4, b := 0xF8#8 } = .ok (.sendData 0xF8#8)

/-- 30_encoding.md R100: unassigned request codes are refused, the transport primitives are never exposed at the host's
port, SET_PIXEL is. -/
def Obligations.UnassignedAndInternalCodesAtTheHostPort : Prop :=
  ∀ (s : State) (r : Request) (rest : List Input), s.wireIn = [] → s.inbox = .host r :: rest →
    (r.op ∈ [0b0111#4, 0b1011#4, 0b1100#4, 0b1101#4, 0b1110#4, 0b1111#4] →
      step s = .refused (.unassignedCode r.op)) ∧
    (r.op ∈ [0b1000#4, 0b1001#4, 0b1010#4] → step s = .refused .transportFromHost) ∧
    (r.op = 0b0100#4 → step s = exec (.setPixel r.px r.py r.color) { s with inbox := rest })

/-! ## The step -/

/-- A step runs the instruction that stands next: a whole one on the wire at an instruction boundary, else a request at
the host's port, else a call at the internal interface (the model's own ports, log 1, 11, 12, 13). -/
def Obligations.StepRunsTheDecodedInstruction : Prop :=
  (∀ (s : State) (w : WireByte) (bytes rest : List WireByte) (i : Instr), s.wireIn = w :: bytes →
      atBoundary s.P w = true → decodeWire (w :: bytes) = .ok (i, rest) →
      step s = exec i { s with wireIn := rest }) ∧
    (∀ (s : State) (r : Request) (rest : List Input) (i : Instr), s.wireIn = [] → s.inbox = .host r :: rest →
      decodeRequest r = .ok i → i.level ≠ .transport → step s = exec i { s with inbox := rest }) ∧
    (∀ (s : State) (r : Request) (rest : List Input) (i : Instr), s.wireIn = [] → s.inbox = .call r :: rest →
      decodeRequest r = .ok i → step s = exec i { s with inbox := rest })

/-- The word of an opcode-table row placed at the fetch is what the next step runs (the model's own, log 28): from a
state with the same engine, lines, TRANSPORT and trace. -/
def Obligations.PlacedWordIsRunNext : Prop :=
  ∀ (s : State) (nbits w : Nat) (i : Instr), decodeTableWord nbits w = some i →
    ∃ t, step (s.withFetchWord nbits w) = exec i t ∧ t.E = s.E ∧ t.L = s.L ∧ t.T = s.T ∧ t.trace = s.trace ∧
      t.P.gram = s.P.gram ∧ t.oracle = s.oracle ∧ t.params = s.params

/-- 43_wire_commands.md R190, 30_encoding.md R101, 20_memory.md R79: the bytes at PANEL that make its state ANY, one
free draw each: an unknown opcode, a data byte while an operand is due, any byte during an erase (with T_CLEAR above 0
only). -/
def Obligations.BytesThatMakeThePanelAny : Prop :=
  ∀ (s : State) (w : WireByte) (rest : List WireByte), s.wireIn = w :: rest →
    s.L.rst = ⟨.output, .high⟩ → s.P.lost = false →
    (s.P.erasing s.params = false → w.1 = false → s.P.parse = .idle → operandCount w.2 = none →
      step s = .next { s with wireIn := rest, P := s.P.any }) ∧
    (∀ op need got, s.P.erasing s.params = false → w.1 = true → s.P.parse = .collect op need got →
      step s = .next { s with wireIn := rest, P := s.P.any }) ∧
    (s.P.erasing s.params = true → arrive [w] s = { s with P := s.P.any } ∧
      (s.P.parse ≠ .idle → step s = .next { s with wireIn := rest, P := s.P.any }))

/-- 43_wire_commands.md R190: one command-mode byte of a command at a time: the opcode starts the collection of its
operands, an operand that is not the last is added, the last one runs the command; a half pixel is dropped by each
(20_memory.md R68). -/
def Obligations.ThePanelCollectsOperands : Prop :=
  ∀ (s : State) (b : Byte), s.L.rst = ⟨.output, .high⟩ → s.P.lost = false → s.P.erasing s.params = false →
    (∀ n, s.P.parse = .idle → operandCount b = some (n + 1) →
      arrive [(false, b)] s = s.withPanel { s.P with pixHi := none, parse := .collect b (n + 1) [] }) ∧
    (∀ op need got, s.P.parse = .collect op need got → got.length + 1 ≠ need →
      arrive [(false, b)] s = s.withPanel { s.P with pixHi := none, parse := .collect op need (got ++ [b]) }) ∧
    (∀ op need got i, s.P.parse = .collect op need got → got.length + 1 = need → commandOf op (got ++ [b]) = some i →
      arrive [(false, b)] s = s.withPanel (Panel.effect s.params i { s.P with pixHi := none, parse := .idle }))

/-- 20_memory.md R68: a command opcode that comes while a half pixel is latched drops it; no cell changes. -/
def Obligations.HalfPixelIsDroppedByACommand : Prop :=
  ∀ (s : State) (op h : Byte) (rest : List WireByte), s.hears → s.P.pixHi = some h → operandCount op ≠ none →
    s.wireIn = (false, op) :: rest →
    (arrive [(false, op)] s).P.pixHi = none ∧ (arrive [(false, op)] s).P.gram = s.P.gram

/-- 10_state.md R39: a byte that fails leaves PANEL ANY and is remembered; from then on every byte that reaches PANEL, sent
by the engine or presented alone, leaves it ANY (a new free draw) and the loss stays, until a reset pulse; the pulse ends
it. How the loss is kept is the model's own (log 9). -/
def Obligations.AfterAFailedByteThePanelStaysAny : Prop :=
  (∀ (s : State) (b : Byte) (f : TransportFailure), (emit (.txFail b f) s).P = { s.P.any with lost := true }) ∧
    (∀ (s : State) (b : Byte), s.P.lost = true →
      (emit (.tx b) s).P = s.P.any ∧ (emit (.tx b) s).P.lost = true) ∧
    (∀ (s : State) (bytes : List WireByte) (w : WireByte), s.P.lost = true →
      (arrive bytes s).P.lost = true ∧ (arrive [w] s).P = s.P.any) ∧
    ∀ s : State, (resetPulse s).P.lost = false

/-- 10_state.md R49, R39: the end of an erase, presented from outside (the model's own input, log 18), clears the erase
bit and changes nothing else; where a byte failed since the last reset pulse PANEL stays ANY (the next free draw, log 9).
The same with the reset line not driven high is the model's reading (log 10). -/
def Obligations.EndOfAnEraseClearsTheBit : Prop :=
  ∀ (s : State) (rest : List Input), s.wireIn = [] → s.inbox = .eraseDone :: rest →
    (s.L.rst = ⟨.output, .high⟩ → s.P.lost = false →
      step s = .next { s with inbox := rest, P := { s.P with busyClear := false } }) ∧
    (s.P.lost = true ∨ s.L.rst ≠ ⟨.output, .high⟩ → step s = .next { s with inbox := rest, P := s.P.any })

/-! ## Wire commands -/

/-- 43_wire_commands.md R192, R193: the window commands write their window registers and the pointer and nothing else (a
half pixel latched before is dropped; the model's own bit says that the window is no longer the reset pulse's, log 40). -/
def Obligations.WindowCommandsSetWindowAndPointer : Prop :=
  ∀ (s : State) (a b : Byte), s.hears →
    exec (.setColumnAddress a b) s =
      .next (s.withPanel { s.P.dropHalf with
        colStart := a, colEnd := b, ptrCol := a, windowFresh := false }) ∧
    exec (.setRowAddress a b) s =
      .next (s.withPanel { s.P.dropHalf with
        rowStart := a, rowEnd := b, ptrRow := a, windowFresh := false })

/-- 43_wire_commands.md R195 to R202: FILL_ENABLE and the contrast, current and pre-charge commands each store their
operand in their own register and change nothing else. -/
def Obligations.AnalogCommandsStoreTheirOperand : Prop :=
  ∀ (s : State) (a : Byte), s.hears →
    exec (.fillEnable a) s = .next (s.withPanel { s.P.dropHalf with fill := a }) ∧
    exec (.setContrastA a) s = .next (s.withPanel { s.P.dropHalf with contrastA := a }) ∧
    exec (.setContrastB a) s = .next (s.withPanel { s.P.dropHalf with contrastB := a }) ∧
    exec (.setContrastC a) s = .next (s.withPanel { s.P.dropHalf with contrastC := a }) ∧
    exec (.setMasterCurrent a) s = .next (s.withPanel { s.P.dropHalf with masterCurrent := a }) ∧
    exec (.setPrechargeA a) s = .next (s.withPanel { s.P.dropHalf with prechargeA := a }) ∧
    exec (.setPrechargeB a) s = .next (s.withPanel { s.P.dropHalf with prechargeB := a }) ∧
    exec (.setPrechargeC a) s = .next (s.withPanel { s.P.dropHalf with prechargeC := a })

/-- 43_wire_commands.md R203 to R205, R207, R208, R211 to R215: the display configuration commands each store their
operand in their own register and change nothing else. -/
def Obligations.ConfigurationCommandsStoreTheirOperand : Prop :=
  ∀ (s : State) (a : Byte), s.hears →
    exec (.setRemap a) s = .next (s.withPanel { s.P.dropHalf with remap := a }) ∧
    exec (.setStartLine a) s = .next (s.withPanel { s.P.dropHalf with startLine := a }) ∧
    exec (.setDisplayOffset a) s = .next (s.withPanel { s.P.dropHalf with offset := a }) ∧
    exec (.setMultiplex a) s = .next (s.withPanel { s.P.dropHalf with mux := a }) ∧
    exec (.setMasterConfig a) s = .next (s.withPanel { s.P.dropHalf with masterCfg := a }) ∧
    exec (.setPowerMode a) s = .next (s.withPanel { s.P.dropHalf with powerMode := a }) ∧
    exec (.setPrecharge a) s = .next (s.withPanel { s.P.dropHalf with precharge := a }) ∧
    exec (.setClockDiv a) s = .next (s.withPanel { s.P.dropHalf with clkdiv := a }) ∧
    exec (.setPrechargeLevel a) s = .next (s.withPanel { s.P.dropHalf with prechargeLevel := a }) ∧
    exec (.setVcomh a) s = .next (s.withPanel { s.P.dropHalf with vcomh := a })

/-- 43_wire_commands.md R206, R209, R210, 60_exceptions.md R250: the commands without operands; DISPLAY_OFF keeps the
pixel RAM and every other register (the spec marks that general knowledge, log 21). -/
def Obligations.OperandlessCommandsSetTheirState : Prop :=
  ∀ s : State, s.hears →
    exec .normalDisplay s = .next (s.withPanel { s.P.dropHalf with dispMode := .normal }) ∧
    exec .displayOff s = .next (s.withPanel { s.P.dropHalf with dispOn := false }) ∧
    exec .displayOn s = .next (s.withPanel { s.P.dropHalf with dispOn := true })

/-- 43_wire_commands.md R194, R191, 20_memory.md R74: CLEAR_WINDOW_CMD answers a next state that differs in the pixel RAM,
the erase bit and the dropped half pixel only. In range, with the registers of the premise and no window bound out of
range, exactly the cells of the rectangle take CLEAR_COLOR, and the erase bit is set when T_CLEAR is not 0 (else it keeps
its value, log 37). That a window left by the reset pulse counts as in range is the model's reading of R74 (log 40). -/
def Obligations.ClearCommandFillsItsRectangle : Prop :=
  ∀ (s : State) (a b c d : Byte), s.hears → s.P.premise s.params = true → s.P.windowOk →
    a.toNat ≤ c.toNat → c.toNat ≤ 95 → b.toNat ≤ d.toNat → d.toNat ≤ 63 →
    ∃ m, exec (.clearWindowCmd a b c d) s =
        .next (s.withPanel { s.P.dropHalf with gram := m, busyClear := decide (s.params.tClear ≠ 0) || s.P.busyClear }) ∧
      (∀ col row, a.toNat ≤ col → col ≤ c.toNat → b.toNat ≤ row → row ≤ d.toNat →
        m.pixel col row = s.params.clearColor) ∧
      ∀ col row, col < 96 → row < 64 →
        ¬ (a.toNat ≤ col ∧ col ≤ c.toNat ∧ b.toNat ≤ row ∧ row ≤ d.toNat) →
        m.byte (cellAddr col row) = s.P.gram.byte (cellAddr col row) ∧
        m.byte (cellAddr col row + 1) = s.P.gram.byte (cellAddr col row + 1)

/-- 43_wire_commands.md R194, 20_memory.md R74: with a bound off the panel or a corner past the other, CLEAR_WINDOW_CMD
runs and makes the pixel RAM ANY (the next free draw) and changes nothing else. With its own bounds in range it makes the
pixel RAM ANY too while a window bound is out of range, a window command having come since the reset pulse (R74, log 40),
or with another remap or fill value than BEGIN writes (R191); the erase bit is set when T_CLEAR is not 0 (the model's reading, log 29, log 40). -/
def Obligations.ClearCommandOutOfRangeMakesTheRamAny : Prop :=
  ∀ (s : State) (a b c d : Byte), s.hears →
    (c.toNat < a.toNat ∨ 95 < c.toNat ∨ d.toNat < b.toNat ∨ 63 < d.toNat →
      exec (.clearWindowCmd a b c d) s =
        .next (s.withPanel { s.P.dropHalf with gram := Memory.drawn s.P.draws, draws := s.P.draws + 1 })) ∧
    (a.toNat ≤ c.toNat → c.toNat ≤ 95 → b.toNat ≤ d.toNat → d.toNat ≤ 63 →
      ¬ s.P.windowOk ∨ s.P.remap ≠ s.params.initRemap ∨ s.P.fill ≠ s.params.initFill →
      exec (.clearWindowCmd a b c d) s =
        .next (s.withPanel { s.P.dropHalf with
          gram := Memory.drawn s.P.draws, draws := s.P.draws + 1,
          busyClear := decide (s.params.tClear ≠ 0) || s.P.busyClear }))

/-- 20_memory.md R77, R63, 43_wire_commands.md R191, R216: PIX in range, with the registers of the premise: the cell at
the pointer takes the high byte and the low byte, every byte outside it reads as before, and PANEL changes in the RAM
and the pointer only. -/
def Obligations.PixelDataWritesTheCellAtThePointer : Prop :=
  ∀ (s : State) (h l : Byte), s.hears → s.P.pixHi = none → s.P.windowInRange = true →
    s.P.premise s.params = true → s.P.gram.wf →
    ∃ m col row, exec (.pix h l) s = .next (s.withPanel { s.P with gram := m, ptrCol := col, ptrRow := row }) ∧
      paints s.P.gram m [(s.P.ptrCol.toNat, s.P.ptrRow.toNat)] (h ++ l)

/-- 20_memory.md R78: where the pointer goes after a pixel: along the row, then to the next row, then back to the first;
in a 1 by 1 window it stays (general knowledge by the spec's mark, log 20). -/
def Obligations.PixelDataAdvancesThePointer : Prop :=
  ∀ (s : State) (h l : Byte), s.hears → s.P.pixHi = none → s.P.windowInRange = true →
    ∃ t, exec (.pix h l) s = .next t ∧
      (s.P.ptrCol.toNat < s.P.colEnd.toNat →
        t.P.ptrCol.toNat = s.P.ptrCol.toNat + 1 ∧ t.P.ptrRow = s.P.ptrRow) ∧
      (s.P.ptrCol = s.P.colEnd → s.P.ptrRow.toNat < s.P.rowEnd.toNat →
        t.P.ptrCol = s.P.colStart ∧ t.P.ptrRow.toNat = s.P.ptrRow.toNat + 1) ∧
      (s.P.ptrCol = s.P.colEnd → s.P.ptrRow = s.P.rowEnd →
        t.P.ptrCol = s.P.colStart ∧ t.P.ptrRow = s.P.rowStart)

/-- 20_memory.md R77, R74: PIX with the window out of range makes the pixel RAM ANY (the next free draw) and changes
nothing else. 43_wire_commands.md R191: in range but with another remap or fill value than BEGIN writes it makes the pixel
RAM ANY too, and the pointer moves on as it does with them (the model's reading, log 29). -/
def Obligations.PixelDataOffThePanelMakesTheRamAny : Prop :=
  ∀ (s : State) (h l : Byte), s.hears → s.P.pixHi = none →
    (s.P.windowInRange = false →
      exec (.pix h l) s = .next (s.withPanel { s.P with gram := Memory.drawn s.P.draws, draws := s.P.draws + 1 })) ∧
    (s.P.windowInRange = true → s.P.remap ≠ s.params.initRemap ∨ s.P.fill ≠ s.params.initFill →
      exec (.pix h l) s = .next (s.withPanel { s.P with
        gram := Memory.drawn s.P.draws, draws := s.P.draws + 1,
        ptrCol := if s.P.ptrCol.toNat < s.P.colEnd.toNat then s.P.ptrCol + 1 else s.P.colStart,
        ptrRow :=
          if s.P.ptrCol.toNat < s.P.colEnd.toNat then s.P.ptrRow
          else if s.P.ptrRow.toNat < s.P.rowEnd.toNat then s.P.ptrRow + 1
          else s.P.rowStart }))

/-- 20_memory.md R65, R77: the first data byte changes the latch only. -/
def Obligations.FirstDataByteIsLatched : Prop :=
  ∀ (s : State) (h : Byte), s.hears → s.P.pixHi = none →
    arrive [(true, h)] s = s.withPanel { s.P with pixHi := some h }

/-! ## Transport primitives -/

/-- 40_transport.md R126, R127: a byte sent by SEND_COMMAND or SEND_DATA: the mode-select level is driven on every call,
then the byte; what TRANSPORT answers decides the event and what is returned; a request that never answers blocks.
Presented while an operation hangs they are refused (RequestsWhileBusyAreRefused). -/
def Obligations.SendPrimitivesDriveTheModeThenTheByte : Prop :=
  ∀ (s : State) (b : Byte) (m : Bool) (i : Instr), s.E.busy = false → s.E.handle = true →
    (i = .sendCommand b ∧ m = false ∨ i = .sendData b ∧ m = true) →
    let dc : LineState := { dir := s.L.dc.dir, level := if m then .high else .low }
    let lines : Lines := { dc := dc, rst := s.L.rst }
    (s.oracle.next = .ok →
      exec i s = .next { s with
        E := { s.E with seq := s.E.seq + 1 }
        L := lines
        trace := s.trace ++ [.level .dc m, .tx b]
        P := if s.L.dc.dir = .output then s.P.receive s.params s.L.rst (m, b) else s.P.any
        oracle := s.oracle.rest
        ret := some .ok }) ∧
    (∀ f, s.oracle.next = .err f →
      exec i s = .next { s with
        E := { s.E with seq := s.E.seq + 1 }
        L := lines
        trace := s.trace ++ [.level .dc m, .txFail b f]
        P := { s.P.any with lost := true }
        oracle := s.oracle.rest
        ret := some (.err (.busError f)) }) ∧
    (s.oracle.next = .never →
      exec i s = .next { s with
        E := { s.E with busy := true }
        L := lines
        trace := s.trace ++ [.level .dc m]
        ret := none })

/-- 40_transport.md R129: a byte without a handle is refused. -/
def Obligations.NoByteWithoutAHandle : Prop :=
  ∀ (s : State) (b : Byte), s.E.busy = false → s.E.handle = false →
    exec (.sendCommand b) s = .refused .noHandle ∧ exec (.sendData b) s = .refused .noHandle

/-- 40_transport.md R122, R124, R125: CONFIGURE with a valid configuration: both lines outputs, the reset pulse with its
two waits of at least 100 ms, the bus, the device at the configured clock in mode 0; PANEL in its post-reset state. The
level mode-select keeps when it is made an output is the model's reading (log 36). -/
def Obligations.ConfigurePulsesResetThenAttaches : Prop :=
  ∀ (s : State) (c : DisplayConfig), s.E.busy = false → 0 < c.clockHz → s.T.bus = .free → s.oracle.allOk 2 →
    ∃ d1 d2, 100000 ≤ d1 ∧ 100000 ≤ d2 ∧
      exec (.configure (some c)) s = .next { s with
        E := { s.E with fsm := .configuring }
        L := { dc := { dir := .output, level := s.L.dc.level }, rst := ⟨.output, .high⟩ }
        T := { bus := .allocated, dev := .attached c.clockHz 0 }
        trace := s.trace ++ [.dir .dc, .dir .rst, .level .rst false, .wait d1, .level .rst true, .wait d2, .busInit,
          .attach c.clockHz 0]
        P := s.P.any.postReset
        waits := s.waits + 2
        oracle := s.oracle.drop 2
        ret := some .ok }

/-- 40_transport.md R122, R123, R125, 95_test_vectors.md V-T9, V-T10: how CONFIGURE fails: an absent or zero-clock
configuration touches nothing; a failing `bus_init` ends after the reset pulse with TRANSPORT as it was; a failing
`attach` frees the bus again. The lines stay outputs with reset high, PANEL is in its post-reset state, the state machine
in `Configuring`. The level mode-select keeps when it is made an output is the model's reading (log 36). -/
def Obligations.ConfigureFailsWithoutLeakingTheBus : Prop :=
  (∀ (s : State) (cfg : Option DisplayConfig), s.E.busy = false → s.T.bus = .free →
      (cfg = none ∨ ∃ c, cfg = some c ∧ c.clockHz = 0) →
      exec (.configure cfg) s = .next { s with ret := some (.err .configError) }) ∧
    ∀ (s : State) (c : DisplayConfig) (f : TransportFailure), s.E.busy = false → 0 < c.clockHz → s.T.bus = .free →
      (s.oracle.answerAt 0 = .err f →
        ∃ d1 d2, 100000 ≤ d1 ∧ 100000 ≤ d2 ∧
          exec (.configure (some c)) s = .next { s with
            E := { s.E with fsm := .configuring }
            L := { dc := { dir := .output, level := s.L.dc.level }, rst := ⟨.output, .high⟩ }
            trace := s.trace ++ [.dir .dc, .dir .rst, .level .rst false, .wait d1, .level .rst true, .wait d2]
            P := s.P.any.postReset
            waits := s.waits + 2
            oracle := s.oracle.drop 1
            ret := some (.err (.busError f)) }) ∧
      (s.oracle.answerAt 0 = .ok → s.oracle.answerAt 1 = .err f →
        ∃ d1 d2, 100000 ≤ d1 ∧ 100000 ≤ d2 ∧
          exec (.configure (some c)) s = .next { s with
            E := { s.E with fsm := .configuring }
            L := { dc := { dir := .output, level := s.L.dc.level }, rst := ⟨.output, .high⟩ }
            trace := s.trace ++ [.dir .dc, .dir .rst, .level .rst false, .wait d1, .level .rst true, .wait d2, .busInit,
              .busFree]
            P := s.P.any.postReset
            waits := s.waits + 2
            oracle := s.oracle.drop 2
            ret := some (.err (.busError f)) })

/-- 70_reset_and_hazards.md R262: PANEL over the reset pulse: at its end the parser is idle, the latch empty, no erase
in progress; every other field was drawn anew. -/
def Obligations.ResetPulseLeavesThePanelPostReset : Prop :=
  ∀ s : State, (resetPulse s).P = s.P.any.postReset ∧ (resetPulse s).P.parse = .idle ∧
    (resetPulse s).P.pixHi = none ∧ (resetPulse s).P.busyClear = false ∧
    (resetPulse s).P.gram = Memory.drawn (s.P.draws + 1)

/-! ## BEGIN -/

/-- 60_exceptions.md R232: BEGIN with an absent or zero-clock configuration: ConfigError, and only the status changes;
no other host operation that returns, and no BEGIN with another configuration, ends with ConfigError. -/
def Obligations.BeginWithoutAConfigurationIsConfigError : Prop :=
  (∀ (s : State) (cfg : Option DisplayConfig), s.E.fsm = .uninitialized → s.E.busy = false →
      (cfg = none ∨ ∃ c, cfg = some c ∧ c.clockHz = 0) →
      exec (.begin cfg) s = .next { s with E := { s.E with status := .err .configError, seq := 0, busy := false } }) ∧
    ∀ (i : Instr) (s t : State), i.level = .host → exec i s = .next t → t.E.busy = false →
      t.E.status = .err .configError → ∃ cfg, i = .begin cfg ∧ (cfg = none ∨ ∃ c, cfg = some c ∧ c.clockHz = 0)

/-- 41_engine.md R141, R142, R145: BEGIN with every request answered Ok: the events of CONFIGURE and then the 39 bytes of
INIT_SEQ, written out here, in command mode, whatever the OPEN parameters are; the engine ends in `Ready` with the
display flag set. -/
def Obligations.BeginBringsTheEngineToReady : Prop :=
  ∀ (s : State) (c : DisplayConfig), s.E.fsm = .uninitialized → s.E.busy = false → 0 < c.clockHz →
    s.oracle.allOk 41 →
    let k := s.params
    let bytes : List Byte :=
      [0xAE#8, 0xA0#8, k.initRemap, 0xA1#8, 0x00#8, 0xA2#8, 0x00#8, 0xA4#8, 0xA8#8, 0x3F#8, 0xAD#8, k.initMasterCfg,
        0xB0#8, k.initPowerMode, 0xB1#8, k.initPrecharge, 0xB3#8, 0xF0#8, 0x8A#8, k.initPrechargeA, 0x8B#8,
        k.initPrechargeB, 0x8C#8, k.initPrechargeC, 0xBB#8, k.initPrechargeLevel, 0xBE#8, k.initVcomh, 0x87#8,
        k.initMasterCurrent, 0x81#8, k.initContrastA, 0x82#8, k.initContrastB, 0x83#8, k.initContrastC, 0xAF#8, 0x26#8,
        k.initFill]
    ∃ t d1 d2, exec (.begin (some c)) s = .next t ∧ 100000 ≤ d1 ∧ 100000 ≤ d2 ∧
      t.trace = s.trace ++ [.dir .dc, .dir .rst, .level .rst false, .wait d1, .level .rst true, .wait d2, .busInit,
        .attach c.clockHz 0] ++ sent (bytes.map fun b => (false, b)) ∧
      bytes.length = 39 ∧ initSeq k = bytes ∧
      t.E = { s.E with fsm := .ready, cfg := some c, handle := true, seq := 0, displayOn := true, status := .ok } ∧
      t.L = { dc := ⟨.output, .low⟩, rst := ⟨.output, .high⟩ } ∧
      t.T = { bus := .allocated, dev := .attached c.clockHz 0 } ∧
      t.waits = s.waits + 2 ∧ t.oracle = s.oracle.drop 41 ∧
      t.ret = s.ret ∧ t.inbox = s.inbox ∧ t.wireIn = s.wireIn ∧ t.params = s.params

/-- 10_state.md R43, 95_test_vectors.md V-E1: after a BEGIN all of whose requests were answered Ok, every command
register of PANEL holds the operand the sequence sent, the display is on in normal mode, the parser idle; the pixel RAM
is the free draw of the reset pulse, since no byte of the sequence changes a cell (41_engine.md R153 d, 20_memory.md R70;
R262 over R153, log 41), and the window makes no erase ANY (log 40). -/
def Obligations.BeginSetsEveryCommandRegister : Prop :=
  ∀ (s t : State) (c : DisplayConfig), s.E.fsm = .uninitialized → s.E.busy = false → 0 < c.clockHz →
    s.oracle.allOk 41 → exec (.begin (some c)) s = .next t →
    t.P.dispOn = true ∧ t.P.dispMode = .normal ∧ t.P.remap = s.params.initRemap ∧ t.P.startLine = 0x00#8 ∧
      t.P.offset = 0x00#8 ∧ t.P.mux = 0x3F#8 ∧ t.P.masterCfg = s.params.initMasterCfg ∧
      t.P.powerMode = s.params.initPowerMode ∧ t.P.precharge = s.params.initPrecharge ∧ t.P.clkdiv = 0xF0#8 ∧
      t.P.prechargeA = s.params.initPrechargeA ∧ t.P.prechargeB = s.params.initPrechargeB ∧
      t.P.prechargeC = s.params.initPrechargeC ∧ t.P.prechargeLevel = s.params.initPrechargeLevel ∧
      t.P.vcomh = s.params.initVcomh ∧ t.P.masterCurrent = s.params.initMasterCurrent ∧
      t.P.contrastA = s.params.initContrastA ∧ t.P.contrastB = s.params.initContrastB ∧
      t.P.contrastC = s.params.initContrastC ∧ t.P.fill = s.params.initFill ∧ t.inStep ∧
      t.P.premise t.params = true ∧ t.P.windowOk ∧ t.P.gram = s.P.any.postReset.gram

/-- 41_engine.md R143, 60_exceptions.md R239, 10_state.md R39: BEGIN whose byte k of INIT_SEQ (written out in
BeginBringsTheEngineToReady) fails: no later byte is sent, the device is detached and the bus freed, the engine is
`Uninitialized` without a handle. PANEL is ANY: registers, parser, latch and pixel RAM are a new free draw, the first
after the two of the reset pulse (log 4), and the loss is kept in the model's own bit until the next reset pulse
(log 9). -/
def Obligations.BeginThatFailsAtAByteRollsBack : Prop :=
  ∀ (s : State) (c : DisplayConfig) (k : Nat) (f : TransportFailure), s.E.fsm = .uninitialized →
    s.E.busy = false → 0 < c.clockHz → k < 39 → s.oracle.allOk (k + 2) → s.oracle.answerAt (k + 2) = .err f →
    ∃ d1 d2, 100000 ≤ d1 ∧ 100000 ≤ d2 ∧
      exec (.begin (some c)) s = .next { s with
        E := { s.E with
          fsm := .uninitialized, cfg := some c, handle := false, seq := 0, displayOn := false,
          status := .err (.busError f) }
        L := { dc := ⟨.output, .low⟩, rst := ⟨.output, .high⟩ }
        T := { bus := .free, dev := .detached }
        trace := s.trace ++ [.dir .dc, .dir .rst, .level .rst false, .wait d1, .level .rst true, .wait d2, .busInit,
          .attach c.clockHz 0] ++ sent (((initSeq s.params).take k).map fun b => (false, b)) ++
          [.level .dc false, .txFail ((initSeq s.params).getD k 0) f, .detach, .busFree]
        P := { ({ s.P with draws := s.P.draws + 2 } : Panel).any with lost := true }
        waits := s.waits + 2
        oracle := s.oracle.drop (k + 3) }

/-- 41_engine.md R141, R144, 95_test_vectors.md V-E4: BEGIN whose bus set-up or attachment fails ends `Uninitialized`
without a handle: after the reset pulse no byte is attempted, and TRANSPORT is as it was, the bus free. The level
mode-select keeps when it is made an output is the model's reading (log 36). -/
def Obligations.BeginThatFailsAtTheBusEndsUninitialized : Prop :=
  ∀ (s : State) (c : DisplayConfig) (f : TransportFailure), s.E.fsm = .uninitialized → s.E.busy = false →
    s.E.handle = false → 0 < c.clockHz → s.T.bus = .free →
    (s.oracle.answerAt 0 = .err f →
      ∃ d1 d2, 100000 ≤ d1 ∧ 100000 ≤ d2 ∧
        exec (.begin (some c)) s = .next { s with
          E := { s.E with
            fsm := .uninitialized, cfg := some c, handle := false, seq := 0, displayOn := false,
            status := .err (.busError f) }
          L := { dc := { dir := .output, level := s.L.dc.level }, rst := ⟨.output, .high⟩ }
          trace := s.trace ++ [.dir .dc, .dir .rst, .level .rst false, .wait d1, .level .rst true, .wait d2]
          P := s.P.any.postReset
          waits := s.waits + 2
          oracle := s.oracle.drop 1 }) ∧
    (s.oracle.answerAt 0 = .ok → s.oracle.answerAt 1 = .err f →
      ∃ d1 d2, 100000 ≤ d1 ∧ 100000 ≤ d2 ∧
        exec (.begin (some c)) s = .next { s with
          E := { s.E with
            fsm := .uninitialized, cfg := some c, handle := false, seq := 0, displayOn := false,
            status := .err (.busError f) }
          L := { dc := { dir := .output, level := s.L.dc.level }, rst := ⟨.output, .high⟩ }
          trace := s.trace ++ [.dir .dc, .dir .rst, .level .rst false, .wait d1, .level .rst true, .wait d2, .busInit,
            .busFree]
          P := s.P.any.postReset
          waits := s.waits + 2
          oracle := s.oracle.drop 2 })

/-! ## Host operations in `Ready` -/

/-- 41_engine.md R140, 60_exceptions.md R235, R238: the preconditions of the host operations: outside them, REFUSE, and
none of the operation happens. -/
def Obligations.OperationsOutsideTheirPreconditionAreRefused : Prop :=
  ∀ (s : State) (cfg : Option DisplayConfig) (i : Instr),
    (s.E.busy = false → s.E.fsm ≠ .uninitialized → exec (.begin cfg) s = .refused .beginNotUninitialized) ∧
    (s.E.busy = false → s.E.fsm ≠ .ready → i.level = .host → (∀ c, i ≠ .begin c) →
      exec i s = .refused .notReady)

/-- 60_exceptions.md R246, R235, R236: a host operation presented while another is in progress is refused, and so is a
transport primitive called then (the model's internal interface, log 13). -/
def Obligations.RequestsWhileBusyAreRefused : Prop :=
  ∀ (s : State) (i : Instr), s.E.busy = true → i.level ≠ .wire → exec i s = .refused .busy

/-- 41_engine.md R146, R147: TURN_ON and TURN_OFF send one command byte and set or clear the display flag, whether the
byte was sent or failed; one that is never answered blocks the engine. -/
def Obligations.TurnOnAndOffSendOneByte : Prop :=
  ∀ (s : State) (v : Bool), s.readyIdle → s.L.dc.dir = .output →
    let i : Instr := if v then .turnOn else .turnOff
    let b : Byte := if v then 0xAF#8 else 0xAE#8
    let lines : Lines := { s.L with dc := ⟨.output, .low⟩ }
    (s.oracle.next = .ok → s.hears →
      exec i s = .next { s with
        E := { s.E with displayOn := v, status := .ok, seq := 0 }
        L := lines
        trace := s.trace ++ [.level .dc false, .tx b]
        P := { s.P.dropHalf with dispOn := v }
        oracle := s.oracle.rest }) ∧
    (∀ f, s.oracle.next = .err f →
      exec i s = .next { s with
        E := { s.E with displayOn := v, status := .err (.busError f), seq := 0 }
        L := lines
        trace := s.trace ++ [.level .dc false, .txFail b f]
        P := { s.P.any with lost := true }
        oracle := s.oracle.rest }) ∧
    (s.oracle.next = .never →
      exec i s = .next { s with
        E := { s.E with busy := true, seq := 0 }
        L := lines
        trace := s.trace ++ [.level .dc false] })

/-- 41_engine.md R148: SET_PIXEL on the panel, every byte sent: eight bytes in the fixed order; the window and the
pointer are the cell, the cell holds the colour, every byte outside it reads as before; nothing else changes (but for
the model's own bit, log 40). -/
def Obligations.SetPixelSendsEightBytesAndWritesOneCell : Prop :=
  ∀ (s : State) (x y : Byte) (color : Color), s.readyIdle → s.inStep → s.P.premise s.params = true →
    s.P.gram.wf → s.oracle.allOk 8 → x.toNat ≤ 95 → y.toNat ≤ 63 →
    ∃ m latch, exec (.setPixel x y color) s = .next { s with
        E := { s.E with latch := latch, status := .ok, seq := 0 }
        L := { s.L with dc := ⟨.output, .high⟩ }
        trace := s.trace ++ [.level .dc false, .tx 0x15#8, .level .dc false, .tx x, .level .dc false, .tx x,
          .level .dc false, .tx 0x75#8, .level .dc false, .tx y, .level .dc false, .tx y,
          .level .dc true, .tx (color.extractLsb' 8 8), .level .dc true, .tx (color.extractLsb' 0 8)]
        P := { s.P with
          colStart := x, colEnd := x, ptrCol := x, rowStart := y, rowEnd := y, ptrRow := y, windowFresh := false,
          gram := m }
        oracle := s.oracle.drop 8 } ∧
      paints s.P.gram m [(x.toNat, y.toNat)] color

/-- 41_engine.md R149 (a), 20_memory.md R74: SET_PIXEL off the panel sends its eight bytes with the operands unchanged
and makes the pixel RAM ANY (the next free draw). -/
def Obligations.SetPixelOffThePanelIsSentUnchanged : Prop :=
  ∀ (s : State) (x y : Byte) (color : Color), s.readyIdle → s.inStep → s.oracle.allOk 8 →
    95 < x.toNat ∨ 63 < y.toNat →
    ∃ t, exec (.setPixel x y color) s = .next t ∧ t.E.status = .ok ∧
      t.trace = s.trace ++ sent [(false, 0x15#8), (false, x), (false, x), (false, 0x75#8), (false, y), (false, y),
        (true, color.extractLsb' 8 8), (true, color.extractLsb' 0 8)] ∧
      t.P = { s.P with
        colStart := x, colEnd := x, ptrCol := x, rowStart := y, rowEnd := y, ptrRow := y, windowFresh := false,
        gram := Memory.drawn s.P.draws, draws := s.P.draws + 1 }

/-- 41_engine.md R150, 20_memory.md R74: CLEAR_WINDOW, every byte sent: five command bytes covering (0,0) to (95,63);
every cell holds CLEAR_COLOR, whatever was drawn before; the window, the pointer and every other register keep their
values. While a window bound is out of range, a window command having come since the reset pulse (as after a SET_PIXEL off
the panel), the pixel RAM is ANY instead, the next free draw: R74 over R150, and the window of the reset pulse counts as in range (log 40). -/
def Obligations.ClearWindowErasesEveryCell : Prop :=
  ∀ s : State, s.readyIdle → s.inStep → s.P.premise s.params = true → s.oracle.allOk 5 →
    ∃ p, exec .clearWindow s = .next { s with
        E := { s.E with status := .ok, seq := 0 }
        L := { s.L with dc := ⟨.output, .low⟩ }
        trace := s.trace ++ sent [(false, 0x25#8), (false, 0x00#8), (false, 0x00#8), (false, 0x5F#8), (false, 0x3F#8)]
        P := { p with busyClear := decide (s.params.tClear ≠ 0) || s.P.busyClear }
        oracle := s.oracle.drop 5 } ∧
      (s.P.windowOk → p = { s.P with gram := p.gram } ∧
        ∀ col row, col < 96 → row < 64 → p.gram.pixel col row = s.params.clearColor) ∧
      (¬ s.P.windowOk → p = { s.P with gram := Memory.drawn s.P.draws, draws := s.P.draws + 1 })

/-- 41_engine.md R151, 42_rasterizer.md R173, R177: every host operation of `Ready`, whatever TRANSPORT answers as long as
it answers: every byte is attempted once, in order, and the result is the first error; the engine stays `Ready`, with
its configuration, handle and TRANSPORT. -/
def Obligations.EveryByteIsAttemptedAndTheFirstErrorReported : Prop :=
  ∀ (s : State) (i : Instr) (bytes : List WireByte), s.readyIdle → readyBytes s.params i = some bytes →
    s.oracle.allAnswered bytes.length →
    ∃ t, exec i s = .next t ∧ t.trace = s.trace ++ attempts s.oracle bytes ∧
      t.E.status = readyResult s.params s.oracle i bytes.length ∧ t.E.fsm = .ready ∧ t.E.busy = false ∧
      t.E.seq = 0 ∧ t.E.cfg = s.E.cfg ∧ t.E.handle = s.E.handle ∧
      (i ≠ .turnOn → i ≠ .turnOff → t.E.displayOn = s.E.displayOn) ∧
      t.T = s.T ∧ t.L.rst = s.L.rst ∧ t.oracle = s.oracle.drop bytes.length ∧ t.waits = s.waits ∧
      t.ret = s.ret ∧ t.inbox = s.inbox ∧ t.wireIn = s.wireIn ∧ t.params = s.params

/-- 60_exceptions.md R236: a host operation of `Ready` one of whose requests never answers never returns: the bytes
before it were attempted, `E.busy` stays true, the state machine keeps its state and the status is not written; then a
request at the host's port and a call at the internal interface are refused, and with nothing presented there is no
further step (log 8, log 13). -/
def Obligations.AnOperationThatHangsBlocksTheEngine : Prop :=
  (∀ (s : State) (i : Instr) (bytes : List WireByte), s.readyIdle → readyBytes s.params i = some bytes →
      ¬ s.oracle.allAnswered bytes.length →
      ∃ t, exec i s = .next t ∧ t.trace = s.trace ++ attempts s.oracle bytes ∧ t.E.busy = true ∧
        t.E.fsm = .ready ∧ t.E.status = s.E.status) ∧
    ∀ t : State, t.E.busy = true → t.wireIn = [] →
      (t.inbox = [] → step t = .fault .hung) ∧
      (∀ r rest i, t.inbox = .host r :: rest → decodeRequest r = .ok i → i.level = .host →
        step t = .refused .busy) ∧
      ∀ r rest i, t.inbox = .call r :: rest → decodeRequest r = .ok i → step t = .refused .busy

/-- 60_exceptions.md R236, 40_transport.md R125: a BEGIN whose bus set-up, attachment or byte k never answers stays in
`Configuring`, busy, with the status not written and nothing rolled back. With `bus_init` unanswered the trace ends at the
reset pulse and TRANSPORT is as it was; with `attach` unanswered it ends at `BusInit` and the bus stays allocated; with
byte k unanswered the bytes before it were sent, the trace ends at the mode-select drive, and bus, device and handle stay
(log 8). The level mode-select keeps when it is made an output is the model's reading (log 36). -/
def Obligations.ABeginThatHangsStaysConfiguring : Prop :=
  ∀ (s : State) (c : DisplayConfig), s.E.fsm = .uninitialized → s.E.busy = false → 0 < c.clockHz →
    (s.oracle.answerAt 0 = .never →
      ∃ d1 d2, 100000 ≤ d1 ∧ 100000 ≤ d2 ∧
        exec (.begin (some c)) s = .next { s with
          E := { s.E with fsm := .configuring, cfg := some c, seq := 0, busy := true }
          L := { dc := { dir := .output, level := s.L.dc.level }, rst := ⟨.output, .high⟩ }
          trace := s.trace ++ [.dir .dc, .dir .rst, .level .rst false, .wait d1, .level .rst true, .wait d2]
          P := s.P.any.postReset
          waits := s.waits + 2 }) ∧
    (s.oracle.answerAt 0 = .ok → s.oracle.answerAt 1 = .never →
      ∃ d1 d2, 100000 ≤ d1 ∧ 100000 ≤ d2 ∧
        exec (.begin (some c)) s = .next { s with
          E := { s.E with fsm := .configuring, cfg := some c, seq := 0, busy := true }
          L := { dc := { dir := .output, level := s.L.dc.level }, rst := ⟨.output, .high⟩ }
          T := { s.T with bus := .allocated }
          trace := s.trace ++ [.dir .dc, .dir .rst, .level .rst false, .wait d1, .level .rst true, .wait d2, .busInit]
          P := s.P.any.postReset
          waits := s.waits + 2
          oracle := s.oracle.drop 1 }) ∧
    ∀ k < 39, s.oracle.allOk (k + 2) → s.oracle.answerAt (k + 2) = .never →
      ∃ d1 d2, 100000 ≤ d1 ∧ 100000 ≤ d2 ∧
        exec (.begin (some c)) s = .next { s with
          E := { s.E with fsm := .configuring, cfg := some c, handle := true, seq := k, busy := true }
          L := { dc := ⟨.output, .low⟩, rst := ⟨.output, .high⟩ }
          T := { bus := .allocated, dev := .attached c.clockHz 0 }
          trace := s.trace ++ [.dir .dc, .dir .rst, .level .rst false, .wait d1, .level .rst true, .wait d2, .busInit,
            .attach c.clockHz 0] ++ sent (((initSeq s.params).take k).map fun b => (false, b)) ++ [.level .dc false]
          P := (((initSeq s.params).take k).map fun b => (false, b)).foldl
            (fun p w => p.receive s.params ⟨.output, .high⟩ w) s.P.any.postReset
          waits := s.waits + 2
          oracle := s.oracle.drop (k + 2) }

/-- 41_engine.md R153 (b), 70_reset_and_hazards.md R268, R276: a host operation of `Ready` all of whose bytes were sent
leaves PANEL in step: parser idle, no half pixel (with T_CLEAR = 0, so that no erase is left in progress). -/
def Obligations.OperationsKeepThePanelInStep : Prop :=
  ∀ (s t : State) (i : Instr) (bytes : List WireByte), s.readyIdle → s.inStep → s.params.tClear = 0 →
    readyBytes s.params i = some bytes → s.oracle.allOk bytes.length → exec i s = .next t → t.inStep

/-- 60_exceptions.md R242, 41_engine.md R153 (a): a host restricted to the public operations sends whole units only, no
pixel past column 99 or row 70. -/
def Obligations.PublicOperationsSendWholeUnits : Prop :=
  ∀ (k : Params) (i : Instr) (bytes : List WireByte), isPublic i = true → readyBytes k i = some bytes →
    ∃ units : List (List WireByte), bytes = units.flatten ∧ ∀ u ∈ units, WholeUnit u

/-- 20_memory.md R62, R67, 41_engine.md R153 d, 42_rasterizer.md R173, R177, R180: the data bytes of every operation are
its pixels, each two bytes, the high byte first: one pixel for SET_PIXEL, one per lit bit for DRAW_CHAR, one per lit cell
for DRAW_STRING; TURN_ON, TURN_OFF and CLEAR_WINDOW send no data byte, and BEGIN, whatever TRANSPORT answers, never drives
mode-select high. That operand bytes go out with mode-select low is the spec's decision D4 (30_encoding.md R92), from
general knowledge (log 15). -/
def Obligations.PixelsAreSentHighByteFirst : Prop :=
  ∀ (k : Params) (color : Color),
    let pixels : Nat → List WireByte := fun n =>
      (List.replicate n [(true, color.extractLsb' 8 8), (true, color.extractLsb' 0 8)]).flatten
    (∀ x y bytes, readyBytes k (.setPixel x y color) = some bytes →
      bytes.filter (fun w => w.1) = pixels 1 ∧ bytes.drop 6 = pixels 1) ∧
    (∀ x y id bytes, readyBytes k (.drawChar x y id color) = some bytes →
      bytes.filter (fun w => w.1) = pixels (if id < Config.nGlyph then (litPixels k id).length else 0)) ∧
    (∀ x y text bytes, readyBytes k (.drawString x y text color) = some bytes →
      bytes.filter (fun w => w.1) = pixels (textCells k x y text).length) ∧
    (∀ i bytes, readyBytes k i = some bytes → i = .turnOn ∨ i = .turnOff ∨ i = .clearWindow →
      bytes.filter (fun w => w.1) = []) ∧
    ∀ (s t : State) (cfg : Option DisplayConfig), exec (.begin cfg) s = .next t →
      ∃ events, t.trace = s.trace ++ events ∧ Event.level .dc true ∉ events

/-- 41_engine.md R148, 42_rasterizer.md R173, R177, 43_wire_commands.md R217: what drawing leaves alone: with every byte
sent, SET_PIXEL, DRAW_CHAR and DRAW_STRING change of PANEL the window, the pointer, the pixel RAM, the free-value counter
and the model's window bit (log 40) only, and of the lines the mode-select level only. -/
def Obligations.DrawingTouchesWindowPointerAndRamOnly : Prop :=
  ∀ (s t : State) (i : Instr) (bytes : List WireByte), s.readyIdle → s.inStep →
    (∃ x y color, i = .setPixel x y color) ∨ (∃ x y id color, i = .drawChar x y id color) ∨
      (∃ x y text color, i = .drawString x y text color) →
    readyBytes s.params i = some bytes → s.oracle.allOk bytes.length → exec i s = .next t →
    t.P = { s.P with
      colStart := t.P.colStart, colEnd := t.P.colEnd, ptrCol := t.P.ptrCol, rowStart := t.P.rowStart,
      rowEnd := t.P.rowEnd, ptrRow := t.P.ptrRow, gram := t.P.gram, draws := t.P.draws,
      windowFresh := t.P.windowFresh } ∧
    t.L = { dc := ⟨.output, t.L.dc.level⟩, rst := s.L.rst }

/-! ## The rasterizer -/

/-- 60_exceptions.md R234, 42_rasterizer.md R175, with the 15 ids of the spec's decision D13 (log 22): DRAW_CHAR with an
invalid glyph id sends nothing, moves no line and leaves PANEL alone; ArgumentError where STRICT_ARGS holds, else Ok; no
other host operation that returns ends with ArgumentError. -/
def Obligations.InvalidGlyphIdIsANoOp : Prop :=
  (∀ (s : State) (x y id : Nat) (color : Color), s.readyIdle → 15 ≤ id →
      ∃ latch, exec (.drawChar x y id color) s = .next { s with
        E := { s.E with
          latch := latch, status := if s.params.strictArgs then .err .argumentError else .ok, seq := 0 } }) ∧
    ∀ (i : Instr) (s t : State), i.level = .host → exec i s = .next t → t.E.busy = false →
      t.E.status = .err .argumentError →
      s.params.strictArgs = true ∧ ∃ x y id color, i = .drawChar x y id color ∧ 15 ≤ id

/-- 42_rasterizer.md R174, 10_state.md R33: which pixels of a glyph are lit: row offsets 1 to 7 of the five columns, by
bit (row - 1), so neither row 0 nor bit 7; each once, column by column and downwards. For a valid id the column bytes are
those of the glyph table. -/
def Obligations.GlyphBitsDecideTheLitPixels : Prop :=
  ∀ (k : Params) (id : Nat),
    (∀ c r, (c, r) ∈ litPixels k id ↔
      c ≤ 4 ∧ 1 ≤ r ∧ r ≤ 7 ∧ (glyphColumn k id c).getLsbD (r - 1) = true) ∧
    (∀ (h : id < 15) (c r : Nat), (c, r) ∈ litPixels k id ↔
      ∃ hc : c < 5, 1 ≤ r ∧ r ≤ 7 ∧ k.glyph[id][c].getLsbD (r - 1) = true) ∧
    (litPixels k id).Pairwise fun p q => p.1 < q.1 ∨ p.1 = q.1 ∧ p.2 < q.2

/-- 42_rasterizer.md R173, R176: DRAW_CHAR with a valid id and every byte sent: one SET_PIXEL sequence per lit pixel, at
the clamped origin plus the offset; on the panel, exactly those cells take the colour. -/
def Obligations.DrawCharPaintsTheLitCells : Prop :=
  ∀ (s : State) (x y id : Nat) (color : Color), s.readyIdle → s.inStep → s.P.premise s.params = true →
    s.P.gram.wf → id < 15 → s.oracle.allOk (8 * (litPixels s.params id).length) →
    ∃ t, exec (.drawChar x y id color) s = .next t ∧ t.E.status = .ok ∧
      t.trace = s.trace ++ sent ((litPixels s.params id).flatMap fun p =>
        setPixelBytes (BitVec.ofNat 8 (min x 95 + p.1)) (BitVec.ofNat 8 (min y 63 + p.2)) color) ∧
      (onPanel (glyphCells s.params x y id) →
        paints s.P.gram t.P.gram (glyphCells s.params x y id) color)

/-- 42_rasterizer.md R172, R177, R178: the character map of every code point (its ids and U+00B0 are the spec's decisions
D13, D15), and DRAW_STRING with every byte sent: the mapped characters' glyphs in order, the cursor advanced by 7 after
each mapped character and by nothing else; on the panel, exactly the lit cells take the colour. That the cursor is still
in its latches after the operation is the model's choice (log 3); R177 says it is gone then. -/
def Obligations.DrawStringPaintsTheMappedCharacters : Prop :=
  (∀ d < 10, charMap (0x30 + d) = some d) ∧ charMap 0x43 = some 10 ∧ charMap 0x3A = some 11 ∧
    charMap 0xB0 = some 12 ∧ charMap 0x2E = some 13 ∧ charMap 0x25 = some 14 ∧
    (∀ ch < 0x110000, (∀ d < 10, ch ≠ 0x30 + d) → ch ∉ [0x43, 0x3A, 0xB0, 0x2E, 0x25] → charMap ch = none) ∧
    ∀ (s : State) (x y : Nat) (text : List CodePoint) (color : Color), s.readyIdle → s.inStep →
      s.P.premise s.params = true → s.P.gram.wf →
      s.oracle.allOk (drawStringBytes s.params x y color text).length →
      ∃ t, exec (.drawString x y text color) s = .next t ∧ t.E.status = .ok ∧
        t.trace = s.trace ++ sent (drawStringBytes s.params x y color text) ∧
        t.E.latch.curX = x + 7 * (text.filter fun ch => (charMap ch).isSome).length ∧ t.E.latch.curY = y ∧
        (onPanel (textCells s.params x y text) →
          paints s.P.gram t.P.gram (textCells s.params x y text) color)

/-- 42_rasterizer.md R172, R178 (a), (b), (c): every code point but the fifteen of the table is unmapped; a text of
unmapped characters, the empty one among them, sends nothing; an unmapped character leaves no gap. -/
def Obligations.UnmappedCharactersSendNothing : Prop :=
  (∀ ch < 0x110000, charMap ch = none ↔ ¬ (0x30 ≤ ch ∧ ch ≤ 0x39) ∧ ch ∉ [0x43, 0x3A, 0xB0, 0x2E, 0x25]) ∧
    (∀ (s : State) (x y : Nat) (text : List CodePoint) (color : Color), s.readyIdle →
      (∀ ch ∈ text, charMap ch = none) →
      ∃ latch, exec (.drawString x y text color) s =
        .next { s with E := { s.E with latch := latch, status := .ok, seq := 0 } }) ∧
    ∀ (k : Params) (x y : Nat) (text text' : List CodePoint) (ch : CodePoint) (color : Color), charMap ch = none →
      drawStringBytes k x y color (text ++ ch :: text') = drawStringBytes k x y color (text ++ text')

/-! ## Codes -/

/-- 60_exceptions.md R231: the result codes, and the payload of a BusError. -/
def Obligations.ResultCodes : Prop :=
  Result.ok.code = 0#2 ∧ (Result.err .configError).code = 1#2 ∧
    (∀ t, (Result.err (.busError t)).code = 2#2 ∧ (Result.err (.busError t)).payload = some t) ∧
    (Result.err .argumentError).code = 3#2

/-- 10_state.md R21: the 2-bit code of the state machine. -/
def Obligations.StateMachineCodes : Prop :=
  Fsm.uninitialized.code = 0#2 ∧ Fsm.resetting.code = 1#2 ∧ Fsm.configuring.code = 2#2 ∧ Fsm.ready.code = 3#2
end

