-- ==== Sys2Proof/Laws/State.lean ====
section
/-! SUPPORT. One lemma per field per update of the state, each true by rfl,
    so that no proof unfolds a record update. -/

namespace Sys2Proof.Machine

variable (s : State)

@[simp] theorem start_E : (start s).E = { s.E with busy := true, seq := 0 } := rfl
@[simp] theorem start_L : (start s).L = s.L := rfl
@[simp] theorem start_T : (start s).T = s.T := rfl
@[simp] theorem start_trace : (start s).trace = s.trace := rfl
@[simp] theorem start_P : (start s).P = s.P := rfl
@[simp] theorem start_waits : (start s).waits = s.waits := rfl
@[simp] theorem start_oracle : (start s).oracle = s.oracle := rfl
@[simp] theorem start_ret : (start s).ret = s.ret := rfl
@[simp] theorem start_inbox : (start s).inbox = s.inbox := rfl
@[simp] theorem start_wireIn : (start s).wireIn = s.wireIn := rfl
@[simp] theorem start_params : (start s).params = s.params := rfl

@[simp] theorem finish_E (r : Result) : (finish r s).E = { s.E with status := r, seq := 0, busy := false } := rfl
@[simp] theorem finish_L (r : Result) : (finish r s).L = s.L := rfl
@[simp] theorem finish_T (r : Result) : (finish r s).T = s.T := rfl
@[simp] theorem finish_trace (r : Result) : (finish r s).trace = s.trace := rfl
@[simp] theorem finish_P (r : Result) : (finish r s).P = s.P := rfl
@[simp] theorem finish_waits (r : Result) : (finish r s).waits = s.waits := rfl
@[simp] theorem finish_oracle (r : Result) : (finish r s).oracle = s.oracle := rfl
@[simp] theorem finish_ret (r : Result) : (finish r s).ret = s.ret := rfl
@[simp] theorem finish_inbox (r : Result) : (finish r s).inbox = s.inbox := rfl
@[simp] theorem finish_wireIn (r : Result) : (finish r s).wireIn = s.wireIn := rfl
@[simp] theorem finish_params (r : Result) : (finish r s).params = s.params := rfl

@[simp] theorem setDisplayOn_E (v : Bool) : (setDisplayOn v s).E = { s.E with displayOn := v } := rfl
@[simp] theorem setDisplayOn_L (v : Bool) : (setDisplayOn v s).L = s.L := rfl
@[simp] theorem setDisplayOn_T (v : Bool) : (setDisplayOn v s).T = s.T := rfl
@[simp] theorem setDisplayOn_trace (v : Bool) : (setDisplayOn v s).trace = s.trace := rfl
@[simp] theorem setDisplayOn_P (v : Bool) : (setDisplayOn v s).P = s.P := rfl
@[simp] theorem setDisplayOn_waits (v : Bool) : (setDisplayOn v s).waits = s.waits := rfl
@[simp] theorem setDisplayOn_oracle (v : Bool) : (setDisplayOn v s).oracle = s.oracle := rfl
@[simp] theorem setDisplayOn_ret (v : Bool) : (setDisplayOn v s).ret = s.ret := rfl
@[simp] theorem setDisplayOn_inbox (v : Bool) : (setDisplayOn v s).inbox = s.inbox := rfl
@[simp] theorem setDisplayOn_wireIn (v : Bool) : (setDisplayOn v s).wireIn = s.wireIn := rfl
@[simp] theorem setDisplayOn_params (v : Bool) : (setDisplayOn v s).params = s.params := rfl

@[simp] theorem setFsm_E (f : Fsm) : (setFsm f s).E = { s.E with fsm := f } := rfl
@[simp] theorem setFsm_L (f : Fsm) : (setFsm f s).L = s.L := rfl
@[simp] theorem setFsm_T (f : Fsm) : (setFsm f s).T = s.T := rfl
@[simp] theorem setFsm_trace (f : Fsm) : (setFsm f s).trace = s.trace := rfl
@[simp] theorem setFsm_P (f : Fsm) : (setFsm f s).P = s.P := rfl
@[simp] theorem setFsm_waits (f : Fsm) : (setFsm f s).waits = s.waits := rfl
@[simp] theorem setFsm_oracle (f : Fsm) : (setFsm f s).oracle = s.oracle := rfl
@[simp] theorem setFsm_ret (f : Fsm) : (setFsm f s).ret = s.ret := rfl
@[simp] theorem setFsm_inbox (f : Fsm) : (setFsm f s).inbox = s.inbox := rfl
@[simp] theorem setFsm_wireIn (f : Fsm) : (setFsm f s).wireIn = s.wireIn := rfl
@[simp] theorem setFsm_params (f : Fsm) : (setFsm f s).params = s.params := rfl

@[simp] theorem setHandle_E (v : Bool) : (setHandle v s).E = { s.E with handle := v } := rfl
@[simp] theorem setHandle_L (v : Bool) : (setHandle v s).L = s.L := rfl
@[simp] theorem setHandle_T (v : Bool) : (setHandle v s).T = s.T := rfl
@[simp] theorem setHandle_trace (v : Bool) : (setHandle v s).trace = s.trace := rfl
@[simp] theorem setHandle_P (v : Bool) : (setHandle v s).P = s.P := rfl
@[simp] theorem setHandle_waits (v : Bool) : (setHandle v s).waits = s.waits := rfl
@[simp] theorem setHandle_oracle (v : Bool) : (setHandle v s).oracle = s.oracle := rfl
@[simp] theorem setHandle_ret (v : Bool) : (setHandle v s).ret = s.ret := rfl
@[simp] theorem setHandle_inbox (v : Bool) : (setHandle v s).inbox = s.inbox := rfl
@[simp] theorem setHandle_wireIn (v : Bool) : (setHandle v s).wireIn = s.wireIn := rfl
@[simp] theorem setHandle_params (v : Bool) : (setHandle v s).params = s.params := rfl

@[simp] theorem setCfg_E (c : DisplayConfig) : (setCfg c s).E = { s.E with cfg := some c } := rfl
@[simp] theorem setCfg_L (c : DisplayConfig) : (setCfg c s).L = s.L := rfl
@[simp] theorem setCfg_T (c : DisplayConfig) : (setCfg c s).T = s.T := rfl
@[simp] theorem setCfg_trace (c : DisplayConfig) : (setCfg c s).trace = s.trace := rfl
@[simp] theorem setCfg_P (c : DisplayConfig) : (setCfg c s).P = s.P := rfl
@[simp] theorem setCfg_waits (c : DisplayConfig) : (setCfg c s).waits = s.waits := rfl
@[simp] theorem setCfg_oracle (c : DisplayConfig) : (setCfg c s).oracle = s.oracle := rfl
@[simp] theorem setCfg_ret (c : DisplayConfig) : (setCfg c s).ret = s.ret := rfl
@[simp] theorem setCfg_inbox (c : DisplayConfig) : (setCfg c s).inbox = s.inbox := rfl
@[simp] theorem setCfg_wireIn (c : DisplayConfig) : (setCfg c s).wireIn = s.wireIn := rfl
@[simp] theorem setCfg_params (c : DisplayConfig) : (setCfg c s).params = s.params := rfl

@[simp] theorem setLatch_E (f : Latch → Latch) : (setLatch f s).E = { s.E with latch := f s.E.latch } := rfl
@[simp] theorem setLatch_L (f : Latch → Latch) : (setLatch f s).L = s.L := rfl
@[simp] theorem setLatch_T (f : Latch → Latch) : (setLatch f s).T = s.T := rfl
@[simp] theorem setLatch_trace (f : Latch → Latch) : (setLatch f s).trace = s.trace := rfl
@[simp] theorem setLatch_P (f : Latch → Latch) : (setLatch f s).P = s.P := rfl
@[simp] theorem setLatch_waits (f : Latch → Latch) : (setLatch f s).waits = s.waits := rfl
@[simp] theorem setLatch_oracle (f : Latch → Latch) : (setLatch f s).oracle = s.oracle := rfl
@[simp] theorem setLatch_ret (f : Latch → Latch) : (setLatch f s).ret = s.ret := rfl
@[simp] theorem setLatch_inbox (f : Latch → Latch) : (setLatch f s).inbox = s.inbox := rfl
@[simp] theorem setLatch_wireIn (f : Latch → Latch) : (setLatch f s).wireIn = s.wireIn := rfl
@[simp] theorem setLatch_params (f : Latch → Latch) : (setLatch f s).params = s.params := rfl

@[simp] theorem countByte_E : (countByte s).E = { s.E with seq := s.E.seq + 1 } := rfl
@[simp] theorem countByte_L : (countByte s).L = s.L := rfl
@[simp] theorem countByte_T : (countByte s).T = s.T := rfl
@[simp] theorem countByte_trace : (countByte s).trace = s.trace := rfl
@[simp] theorem countByte_P : (countByte s).P = s.P := rfl
@[simp] theorem countByte_waits : (countByte s).waits = s.waits := rfl
@[simp] theorem countByte_oracle : (countByte s).oracle = s.oracle := rfl
@[simp] theorem countByte_ret : (countByte s).ret = s.ret := rfl
@[simp] theorem countByte_inbox : (countByte s).inbox = s.inbox := rfl
@[simp] theorem countByte_wireIn : (countByte s).wireIn = s.wireIn := rfl
@[simp] theorem countByte_params : (countByte s).params = s.params := rfl

@[simp] theorem hang_E : (hang s).E = { s.E with busy := true } := rfl
@[simp] theorem hang_L : (hang s).L = s.L := rfl
@[simp] theorem hang_T : (hang s).T = s.T := rfl
@[simp] theorem hang_trace : (hang s).trace = s.trace := rfl
@[simp] theorem hang_P : (hang s).P = s.P := rfl
@[simp] theorem hang_waits : (hang s).waits = s.waits := rfl
@[simp] theorem hang_oracle : (hang s).oracle = s.oracle := rfl
@[simp] theorem hang_ret : (hang s).ret = s.ret := rfl
@[simp] theorem hang_inbox : (hang s).inbox = s.inbox := rfl
@[simp] theorem hang_wireIn : (hang s).wireIn = s.wireIn := rfl
@[simp] theorem hang_params : (hang s).params = s.params := rfl

@[simp] theorem emit_E (e : Event) : (emit e s).E = s.E := rfl
@[simp] theorem emit_L (e : Event) : (emit e s).L = s.L.event e := rfl
@[simp] theorem emit_T (e : Event) : (emit e s).T = s.T.event e := rfl
@[simp] theorem emit_trace (e : Event) : (emit e s).trace = s.trace ++ [e] := rfl
@[simp] theorem emit_P (e : Event) : (emit e s).P = s.P.event s.params (s.L.event e) e := rfl
@[simp] theorem emit_waits (e : Event) : (emit e s).waits = s.waits := rfl
@[simp] theorem emit_oracle (e : Event) : (emit e s).oracle = s.oracle := rfl
@[simp] theorem emit_ret (e : Event) : (emit e s).ret = s.ret := rfl
@[simp] theorem emit_inbox (e : Event) : (emit e s).inbox = s.inbox := rfl
@[simp] theorem emit_wireIn (e : Event) : (emit e s).wireIn = s.wireIn := rfl
@[simp] theorem emit_params (e : Event) : (emit e s).params = s.params := rfl

@[simp] theorem takeAnswer_E : (takeAnswer s).E = s.E := rfl
@[simp] theorem takeAnswer_L : (takeAnswer s).L = s.L := rfl
@[simp] theorem takeAnswer_T : (takeAnswer s).T = s.T := rfl
@[simp] theorem takeAnswer_trace : (takeAnswer s).trace = s.trace := rfl
@[simp] theorem takeAnswer_P : (takeAnswer s).P = s.P := rfl
@[simp] theorem takeAnswer_waits : (takeAnswer s).waits = s.waits := rfl
@[simp] theorem takeAnswer_oracle : (takeAnswer s).oracle = s.oracle.rest := rfl
@[simp] theorem takeAnswer_ret : (takeAnswer s).ret = s.ret := rfl
@[simp] theorem takeAnswer_inbox : (takeAnswer s).inbox = s.inbox := rfl
@[simp] theorem takeAnswer_wireIn : (takeAnswer s).wireIn = s.wireIn := rfl
@[simp] theorem takeAnswer_params : (takeAnswer s).params = s.params := rfl

@[simp] theorem arrive_E (bytes : List WireByte) : (arrive bytes s).E = s.E := rfl
@[simp] theorem arrive_L (bytes : List WireByte) : (arrive bytes s).L = s.L := rfl
@[simp] theorem arrive_T (bytes : List WireByte) : (arrive bytes s).T = s.T := rfl
@[simp] theorem arrive_trace (bytes : List WireByte) : (arrive bytes s).trace = s.trace := rfl
@[simp] theorem arrive_P (bytes : List WireByte) :
    (arrive bytes s).P = bytes.foldl (fun p w => p.receive s.params s.L.rst w) s.P := rfl
@[simp] theorem arrive_waits (bytes : List WireByte) : (arrive bytes s).waits = s.waits := rfl
@[simp] theorem arrive_oracle (bytes : List WireByte) : (arrive bytes s).oracle = s.oracle := rfl
@[simp] theorem arrive_ret (bytes : List WireByte) : (arrive bytes s).ret = s.ret := rfl
@[simp] theorem arrive_inbox (bytes : List WireByte) : (arrive bytes s).inbox = s.inbox := rfl
@[simp] theorem arrive_wireIn (bytes : List WireByte) : (arrive bytes s).wireIn = s.wireIn := rfl
@[simp] theorem arrive_params (bytes : List WireByte) : (arrive bytes s).params = s.params := rfl

/-! TRANSPORT and the lines at each event. -/

section Events
variable (l : Lines) (t : Transport)

@[simp] theorem lines_dir_dc : l.event (.dir .dc) = { l with dc := { l.dc with dir := .output } } := rfl
@[simp] theorem lines_dir_rst : l.event (.dir .rst) = { l with rst := { l.rst with dir := .output } } := rfl
@[simp] theorem lines_level_dc (v : Bool) :
    l.event (.level .dc v) = { l with dc := { l.dc with level := if v then .high else .low } } := rfl
@[simp] theorem lines_level_rst (v : Bool) :
    l.event (.level .rst v) = { l with rst := { l.rst with level := if v then .high else .low } } := rfl
@[simp] theorem lines_wait (d : Nat) : l.event (.wait d) = l := rfl
@[simp] theorem lines_busInit : l.event .busInit = l := rfl
@[simp] theorem lines_attach (hz m : Nat) : l.event (.attach hz m) = l := rfl
@[simp] theorem lines_tx (b : Byte) : l.event (.tx b) = l := rfl
@[simp] theorem lines_txFail (b : Byte) (f : TransportFailure) : l.event (.txFail b f) = l := rfl
@[simp] theorem lines_detach : l.event .detach = l := rfl
@[simp] theorem lines_busFree : l.event .busFree = l := rfl

@[simp] theorem transport_dir (x : Line) : t.event (.dir x) = t := rfl
@[simp] theorem transport_level (x : Line) (v : Bool) : t.event (.level x v) = t := rfl
@[simp] theorem transport_wait (d : Nat) : t.event (.wait d) = t := rfl
@[simp] theorem transport_busInit : t.event .busInit = { t with bus := .allocated } := rfl
@[simp] theorem transport_attach (hz m : Nat) : t.event (.attach hz m) = { t with dev := .attached hz m } := rfl
@[simp] theorem transport_tx (b : Byte) : t.event (.tx b) = t := rfl
@[simp] theorem transport_txFail (b : Byte) (f : TransportFailure) : t.event (.txFail b f) = t := rfl
@[simp] theorem transport_detach : t.event .detach = { t with dev := .detached } := rfl
@[simp] theorem transport_busFree : t.event .busFree = { t with bus := .free } := rfl

end Events

end Sys2Proof.Machine
end

