-- ==== Sys2Proof/Laws/Decode.lean ====
section
/-! SUPPORT. What the wire decoder reads, said once: the operands of a command, a whole command, and that a command's
bytes are its encoding. -/

namespace Sys2Proof

theorem takeOperands_map (args : List Byte) (rest : List WireByte) :
    takeOperands args.length (args.map (fun a => (false, a)) ++ rest) = some (args, rest) := by
  induction args with
  | nil => simp [takeOperands]
  | cons a l ih => simp [takeOperands, ih]

theorem decodeWire_command {op : Byte} {args : List Byte} {i : Instr} (rest : List WireByte)
    (h : operandCount op = some args.length) (hc : commandOf op args = some i) :
    decodeWire (commandBytes op args ++ rest) = .ok (i, rest) := by
  simp [commandBytes, decodeWire, h, takeOperands_map, hc]

theorem takeOperands_some {n : Nat} {bytes rest : List WireByte} {args : List Byte}
    (h : takeOperands n bytes = some (args, rest)) : bytes = args.map (fun a => (false, a)) ++ rest ∧
        args.length = n := by
  induction n generalizing bytes args with
  | zero => simp [takeOperands] at h; simp [h]
  | succ n ih =>
    match bytes with
    | [] => simp [takeOperands] at h
    | (true, b) :: r => simp [takeOperands] at h
    | (false, b) :: r =>
      simp only [takeOperands, Bool.false_eq_true, if_false] at h
      split at h
      · rename_i a r' he
        simp only [Option.some.injEq, Prod.mk.injEq] at h
        obtain ⟨rfl, rfl⟩ := h
        obtain ⟨h1, h2⟩ := ih he
        simp [h1, h2]
      · cases h

/-- The 24 opcodes (30_encoding.md R96). -/
def opcodes : List Byte :=
  [0x15#8, 0x25#8, 0x26#8, 0x75#8, 0x81#8, 0x82#8, 0x83#8, 0x87#8, 0x8A#8, 0x8B#8, 0x8C#8, 0xA0#8] ++
  [0xA1#8, 0xA2#8, 0xA4#8, 0xA8#8, 0xAD#8, 0xAE#8, 0xAF#8, 0xB0#8, 0xB1#8, 0xB3#8, 0xBB#8, 0xBE#8]

theorem operandCount_cases {op : Byte} {n : Nat} (h : operandCount op = some n) : op ∈ opcodes := by
  have all : ∀ op : Byte, (operandCount op).isSome → op ∈ opcodes := by decide
  exact all op (by simp [h])

theorem encode_of_commandOf {op : Byte} {args : List Byte} {i : Instr} (ho : operandCount op = some args.length)
    (h : commandOf op args = some i) : encode i = .wire (commandBytes op args) := by
  have hm := operandCount_cases ho
  simp only [opcodes, List.mem_append, List.mem_cons, List.not_mem_nil, or_false, or_assoc] at hm
  generalize hl : args.length = n at ho
  rcases hm with h' | h' | h' | h' | h' | h' | h' | h' | h' | h' | h' | h' | h' | h' | h' | h' | h' | h' | h' | h' |
    h' | h' | h' | h' <;> subst h' <;>
    (cases Option.some.inj ho
     rcases args with _ | ⟨a, _ | ⟨b, _ | ⟨c, _ | ⟨d, _ | _⟩⟩⟩⟩ <;>
       first | (rw [← Option.some.inj h]; rfl) | cases hl)

/-- What the wire decoder reads is the encoding of what it answers. -/
theorem decodeWire_ok {bytes rest : List WireByte} {i : Instr} (h : decodeWire bytes = .ok (i, rest)) :
    (∃ h l, i = .pix h l ∧ bytes = (true, h) :: (true, l) :: rest) ∨
      ∃ op args, operandCount op = some args.length ∧ commandOf op args = some i ∧
        encode i = .wire (commandBytes op args) ∧ bytes = commandBytes op args ++ rest := by
  unfold decodeWire at h
  split at h
  · cases h
  · split at h
    · cases h
    · rename_i ho
      split at h
      · cases h
      · rename_i ht
        split at h
        · cases h
        · rename_i hc
          cases h
          obtain ⟨h1, rfl⟩ := takeOperands_some ht
          exact .inr ⟨_, _, ho, hc, encode_of_commandOf ho hc, by simp [commandBytes, h1]⟩
  · cases h
    exact .inl ⟨_, _, rfl, rfl⟩
  · cases h

theorem level_of_encode {i : Instr} {bytes : List WireByte} (h : encode i = .wire bytes) : i.level = .wire := by
  cases i <;> first | rfl | cases h

theorem level_of_decodeWire {bytes rest : List WireByte} {i : Instr} (h : decodeWire bytes = .ok (i, rest)) :
    i.level = .wire := by
  rcases decodeWire_ok h with ⟨_, _, rfl, _⟩ | ⟨_, _, _, _, he, _⟩
  · rfl
  · exact level_of_encode he

end Sys2Proof
end

