-- ==== Sys2Proof/Laws/Memory.lean ====
section
/-! SUPPORT. The laws of the pixel RAM: what a byte reads as after a write,
    and that every operation keeps the canonical
form. -/

namespace Sys2Proof.Machine

@[simp] theorem write_epoch (m : Memory) (a : Nat) (v : Byte) : (m.write a v).epoch = m.epoch := rfl

@[simp] theorem write_background (m : Memory) (a b : Nat) (v : Byte) :
    (m.write a v).background b = m.background b := rfl

@[simp] theorem table_background (n e : Nat) (f : Nat → Byte) (a : Nat) :
    (Memory.table n e f).background a = Config.freeRamByte e a := rfl

theorem drawn_wf (n : Nat) : (Memory.drawn n).wf := ⟨List.Pairwise.nil, by simp [Memory.drawn]⟩

/-- Rising entries above an address list nothing at it. -/
theorem cellAt_eq_none {a : Nat} {l : List Host.Cell} (h : ∀ c ∈ l, a < c.1) : cellAt a l = none := by
  induction l with
  | nil => rfl
  | cons c rest ih =>
    have hc : a < c.1 := h c (by simp)
    rw [cellAt, if_neg (by omega)]
    exact ih fun d hd => h d (by simp [hd])

theorem cellAt_insertCell_same (a : Nat) (v : Byte) (l : List Host.Cell) :
    cellAt a (insertCell a v l) = some v := by
  induction l with
  | nil => simp [insertCell, cellAt]
  | cons c rest ih =>
    rw [insertCell]
    split
    · rw [cellAt, if_neg (by omega), ih]
    · split <;> simp [cellAt]

theorem cellAt_insertCell_ne {a b : Nat} (h : b ≠ a) (v : Byte) (l : List Host.Cell) :
    cellAt b (insertCell a v l) = cellAt b l := by
  induction l with
  | nil => simp [insertCell, cellAt, h.symm]
  | cons c rest ih =>
    rw [insertCell]
    split
    · simp only [cellAt, ih]
    · split
      · subst a
        simp [cellAt, h.symm]
      · simp [cellAt, h.symm]

theorem cellAt_eraseCell_ne {a b : Nat} (h : b ≠ a) (l : List Host.Cell) :
    cellAt b (eraseCell a l) = cellAt b l := by
  induction l with
  | nil => rfl
  | cons c rest ih =>
    rw [eraseCell]
    split
    · subst a
      simp [cellAt, h.symm]
    · simp only [cellAt, ih]

theorem cellAt_eraseCell_same {a : Nat} {l : List Host.Cell} (h : l.Pairwise (fun c d => c.1 < d.1)) :
    cellAt a (eraseCell a l) = none := by
  induction l with
  | nil => rfl
  | cons c rest ih =>
    rw [List.pairwise_cons] at h
    rw [eraseCell]
    split
    · subst a
      exact cellAt_eq_none h.1
    · rename_i hne
      rw [cellAt, if_neg hne, ih h.2]

theorem mem_eraseCell {a : Nat} {l : List Host.Cell} {c : Host.Cell} (h : c ∈ eraseCell a l) : c ∈ l := by
  induction l with
  | nil => exact h
  | cons d rest ih =>
    rw [eraseCell] at h
    split at h
    · exact List.mem_cons_of_mem _ h
    · rcases List.mem_cons.1 h with rfl | h
      · exact List.mem_cons_self
      · exact List.mem_cons_of_mem _ (ih h)

theorem mem_insertCell {a : Nat} {v : Byte} {l : List Host.Cell} {c : Host.Cell} (h : c ∈ insertCell a v l) :
    c = (a, v) ∨ c ∈ l := by
  induction l with
  | nil => simpa [insertCell] using h
  | cons d rest ih =>
    rw [insertCell] at h
    split at h
    · rcases List.mem_cons.1 h with rfl | h
      · simp
      · rcases ih h with h | h <;> simp [h]
    · split at h
      · rcases List.mem_cons.1 h with h | h <;> simp [h]
      · rcases List.mem_cons.1 h with h | h
        · exact .inl h
        · exact .inr h

theorem eraseCell_rising {a : Nat} {l : List Host.Cell} (h : l.Pairwise (fun c d => c.1 < d.1)) :
    (eraseCell a l).Pairwise (fun c d => c.1 < d.1) := by
  induction l with
  | nil => exact h
  | cons d rest ih =>
    rw [List.pairwise_cons] at h
    rw [eraseCell]
    split
    · exact h.2
    · exact List.pairwise_cons.2 ⟨fun c hc => h.1 c (mem_eraseCell hc), ih h.2⟩

theorem insertCell_rising {a : Nat} {v : Byte} {l : List Host.Cell} (h : l.Pairwise (fun c d => c.1 < d.1)) :
    (insertCell a v l).Pairwise (fun c d => c.1 < d.1) := by
  induction l with
  | nil => simp [insertCell]
  | cons d rest ih =>
    have hd := List.pairwise_cons.1 h
    rw [insertCell]
    split
    · rename_i hlt
      refine List.pairwise_cons.2 ⟨fun c hc => ?_, ih hd.2⟩
      rcases mem_insertCell hc with rfl | hc
      · exact hlt
      · exact hd.1 c hc
    · split
      · subst a
        exact List.pairwise_cons.2 ⟨hd.1, hd.2⟩
      · refine List.pairwise_cons.2 ⟨fun c hc => ?_, h⟩
        rcases List.mem_cons.1 hc with rfl | hc
        · show a < d.1
          omega
        · have := hd.1 c hc
          show a < c.1
          omega

/-- A byte reads as it was written. -/
theorem byte_write_same {m : Memory} (h : m.wf) (a : Nat) (v : Byte) : (m.write a v).byte a = v := by
  unfold Memory.byte
  rw [write_background]
  unfold Memory.write
  by_cases hv : v = m.background a
  · simp only [hv, if_true, cellAt_eraseCell_same h.1, Option.getD_none]
  · simp only [hv, if_false, cellAt_insertCell_same, Option.getD_some]

/-- A write leaves every other byte alone. -/
theorem byte_write_ne {a b : Nat} (h : b ≠ a) (m : Memory) (v : Byte) : (m.write a v).byte b = m.byte b := by
  unfold Memory.byte
  rw [write_background]
  unfold Memory.write
  by_cases hv : v = m.background a
  · simp only [hv, if_true, cellAt_eraseCell_ne h]
  · simp only [hv, if_false, cellAt_insertCell_ne h]

/-- A write keeps the canonical form. -/
theorem write_wf {m : Memory} (h : m.wf) {a : Nat} (ha : a < Config.ramBytes) (v : Byte) : (m.write a v).wf := by
  by_cases hv : v = m.background a
  · refine ⟨?_, fun c hc => ?_⟩
    · simp only [Memory.write, hv, if_true]
      exact eraseCell_rising h.1
    · simp only [Memory.write, hv, if_true] at hc
      exact h.2 c (mem_eraseCell hc)
  · refine ⟨?_, fun c hc => ?_⟩
    · simp only [Memory.write, hv, if_false]
      exact insertCell_rising h.1
    · simp only [Memory.write, hv, if_false] at hc
      rcases mem_insertCell hc with rfl | hc
      · exact ⟨ha, hv⟩
      · exact h.2 c hc

/-- A cell on the panel lies in the RAM. -/
theorem cellAddr_lt {c r : Nat} (hc : c < Config.width) (hr : r < Config.height) :
    cellAddr c r + 1 < Config.ramBytes := by
  simp only [cellAddr, Config.width, Config.height, Config.ramBytes] at *
  omega

theorem writePixel_wf {m : Memory} (h : m.wf) {c r : Nat} (hc : c < Config.width) (hr : r < Config.height)
    (v : Color) : (m.writePixel c r v).wf :=
  write_wf (write_wf h (by have := cellAddr_lt hc hr; omega) _) (cellAddr_lt hc hr) _

/-- The bits of two bytes joined. -/
theorem getLsbD_join (h l : Byte) (i : Nat) :
    BitVec.getLsbD (h ++ l : Color) i = if i < 8 then l.getLsbD i else h.getLsbD (i - 8) :=
  BitVec.getLsbD_append

/-- The two halves of a colour make the colour. -/
theorem colorHi_append_colorLo (v : Color) : colorHi v ++ colorLo v = v := by
  apply BitVec.eq_of_getLsbD_eq
  intro i hi
  rw [getLsbD_join]
  by_cases h : i < 8
  · simp [colorLo, h]
  · have h8 : i - 8 < 8 := by omega
    have h9 : 8 + (i - 8) = i := by omega
    simp [colorHi, h, h8, h9]

@[simp] theorem colorHi_append (h l : Byte) : colorHi (h ++ l) = h := by
  apply BitVec.eq_of_getLsbD_eq
  intro i hi
  rw [colorHi, BitVec.getLsbD_extractLsb', getLsbD_join]
  simp [hi]

@[simp] theorem colorLo_append (h l : Byte) : colorLo (h ++ l) = l := by
  apply BitVec.eq_of_getLsbD_eq
  intro i hi
  rw [colorLo, BitVec.getLsbD_extractLsb', getLsbD_join]
  simp [hi]

/-- A cell reads as it was written. -/
theorem pixel_writePixel_same {m : Memory} (h : m.wf) {c r : Nat} (hc : c < Config.width) (hr : r < Config.height)
    (v : Color) : (m.writePixel c r v).pixel c r = v := by
  have h1 : (m.write (cellAddr c r) (colorHi v)).wf := write_wf h (by have := cellAddr_lt hc hr; omega) _
  unfold Memory.pixel Memory.writePixel
  rw [byte_write_ne (by omega), byte_write_same h, byte_write_same h1, colorHi_append_colorLo]

/-- A cell written leaves every byte outside its two alone. -/
theorem byte_writePixel_ne {c r a : Nat} (h : a ≠ cellAddr c r) (h' : a ≠ cellAddr c r + 1) (m : Memory) (v : Color) :
    (m.writePixel c r v).byte a = m.byte a := by
  unfold Memory.writePixel
  rw [byte_write_ne h', byte_write_ne h]

/-- A table of bytes lists an address exactly when it differs from the background. -/
theorem cellAt_filterMap (e : Nat) (f : Nat → Byte) {a : Nat} {l : List Nat} (hl : l.Pairwise (· < ·)) :
    cellAt a (l.filterMap fun k => if f k = Config.freeRamByte e k then none else some (k, f k)) =
      if a ∈ l ∧ f a ≠ Config.freeRamByte e a then some (f a) else none := by
  induction l with
  | nil => simp [cellAt]
  | cons k rest ih =>
    have hk := List.pairwise_cons.1 hl
    rw [List.filterMap_cons]
    by_cases hf : f k = Config.freeRamByte e k
    · simp only [hf, if_true, ih hk.2, List.mem_cons]
      by_cases hak : a = k
      · subst a
        simp [hf]
      · simp [hak]
    · simp only [hf, if_false, cellAt, ih hk.2, List.mem_cons]
      by_cases hak : k = a
      · subst a
        simp [hf]
      · have : a ≠ k := fun h => hak h.symm
        simp [hak, this]

/-- A table of the first n addresses reads as its function. -/
theorem byte_table (n e : Nat) (f : Nat → Byte) {a : Nat} (ha : a < n) : (Memory.table n e f).byte a = f a := by
  unfold Memory.byte
  rw [table_background]
  unfold Memory.table
  rw [cellAt_filterMap e f List.pairwise_lt_range]
  by_cases hf : f a = Config.freeRamByte e a
  · simp [hf]
  · simp [hf, ha]

/-- A table over rising addresses below a bound is in canonical form. -/
theorem filterMap_wf (n e : Nat) (f : Nat → Byte) {l : List Nat} (hl : l.Pairwise (· < ·)) (hb : ∀ k ∈ l, k < n) :
    (l.filterMap fun k => if f k = Config.freeRamByte e k then none else some (k, f k)).Pairwise
        (fun (c d : Host.Cell) => c.1 < d.1) ∧
      ∀ c ∈ l.filterMap (fun k => if f k = Config.freeRamByte e k then none else some (k, f k)),
        c.1 ∈ l ∧ c.1 < n ∧ c.2 ≠ Config.freeRamByte e c.1 := by
  induction l with
  | nil => simp
  | cons k rest ih =>
    have hk := List.pairwise_cons.1 hl
    obtain ⟨h1, h2⟩ := ih hk.2 fun j hj => hb j (by simp [hj])
    rw [List.filterMap_cons]
    by_cases hf : f k = Config.freeRamByte e k
    · simp only [hf, if_true]
      exact ⟨h1, fun c hc => ⟨by simp [(h2 c hc).1], (h2 c hc).2⟩⟩
    · simp only [hf, if_false]
      refine ⟨List.pairwise_cons.2 ⟨fun c hc => hk.1 _ (h2 c hc).1, h1⟩, fun c hc => ?_⟩
      rcases List.mem_cons.1 hc with rfl | hc
      · exact ⟨by simp, hb k (by simp), hf⟩
      · exact ⟨by simp [(h2 c hc).1], (h2 c hc).2⟩

theorem table_wf {n : Nat} (hn : n ≤ Config.ramBytes) (e : Nat) (f : Nat → Byte) : (Memory.table n e f).wf :=
  have h := filterMap_wf n e f List.pairwise_lt_range fun _ hk => List.mem_range.1 hk
  ⟨h.1, fun c hc => ⟨Nat.lt_of_lt_of_le (h.2 c hc).2.1 hn, (h.2 c hc).2.2⟩⟩

theorem fillRect_wf (m : Memory) (c0 r0 c1 r1 : Nat) (v : Color) : (m.fillRect c0 r0 c1 r1 v).wf :=
  table_wf (Nat.le_refl _) _ _

/-- A byte after a fill: the value's byte inside the rectangle, as before outside. -/
theorem byte_fillRect (m : Memory) (c0 r0 c1 r1 : Nat) (v : Color) {a : Nat} (ha : a < Config.ramBytes) :
    (m.fillRect c0 r0 c1 r1 v).byte a = if inRect c0 r0 c1 r1 a then byteOfColor v a else m.byte a :=
  byte_table _ _ _ ha

/-- A cell inside a filled rectangle holds the value. -/
theorem pixel_fillRect_inside (m : Memory) {c0 r0 c1 r1 c r : Nat} (v : Color)
    (hc : c0 ≤ c ∧ c ≤ c1) (hr : r0 ≤ r ∧ r ≤ r1) (hc1 : c < Config.width) (hr1 : r < Config.height) :
    (m.fillRect c0 r0 c1 r1 v).pixel c r = v := by
  have hlt := cellAddr_lt hc1 hr1
  have h2 : cellAddr c r / 2 = 96 * r + c := by simp only [cellAddr, Config.width]; omega
  have h3 : (cellAddr c r + 1) / 2 = 96 * r + c := by simp only [cellAddr, Config.width]; omega
  have hm : (96 * r + c) % 96 = c := by simp only [Config.width] at hc1; omega
  have hd : (96 * r + c) / 96 = r := by simp only [Config.width] at hc1; omega
  have h4 : cellAddr c r % 2 = 0 := by simp only [cellAddr]; omega
  have h5 : (cellAddr c r + 1) % 2 = 1 := by simp only [cellAddr]; omega
  unfold Memory.pixel
  rw [byte_fillRect _ _ _ _ _ _ (by omega), byte_fillRect _ _ _ _ _ _ hlt]
  simp only [inRect, h2, h3, Config.width, hm, hd, hc, hr, byteOfColor, h4, h5]
  simpa using colorHi_append_colorLo v

end Sys2Proof.Machine
end

