-- ==== Sys2Proof/Laws/Ops.lean ====
section
/-! SUPPORT. What each shared operation can do, said once: the runs and their combinators, the requests by answer,
    a byte
sent, bytes sent best-effort and until an error, the reset pulse, CONFIGURE. -/

namespace Sys2Proof.Machine

/-! ## Runs -/

@[simp] theorem both_returned (r : Result) (s : State) (f : State → Run) :
    (Run.returned r s).both f =
      match f s with
      | .hung s' => .hung s'
      | .returned r' s' => .returned (firstError r r') s' := rfl
@[simp] theorem both_hung (s : State) (f : State → Run) : (Run.hung s).both f = .hung s := rfl
@[simp] theorem ifOk_ok (s : State) (f : State → Run) : (Run.returned .ok s).ifOk f = f s := rfl
@[simp] theorem ifOk_err (e : ErrorCause) (s : State) (f : State → Run) :
    (Run.returned (.err e) s).ifOk f = .returned (.err e) s := rfl
@[simp] theorem ifOk_hung (s : State) (f : State → Run) : (Run.hung s).ifOk f = .hung s := rfl
@[simp] theorem thenDo_returned (r : Result) (s : State) (f : State → State) :
    (Run.returned r s).thenDo f = .returned r (f s) := rfl
@[simp] theorem thenDo_hung (s : State) (f : State → State) : (Run.hung s).thenDo f = .hung s := rfl
@[simp] theorem onError_ok (s : State) (f : State → State) :
    (Run.returned .ok s).onError f = .returned .ok s := rfl
@[simp] theorem onError_err (e : ErrorCause) (s : State) (f : State → State) :
    (Run.returned (.err e) s).onError f = .returned (.err e) (f s) := rfl
@[simp] theorem onError_hung (s : State) (f : State → State) : (Run.hung s).onError f = .hung s := rfl
@[simp] theorem conclude_returned (r : Result) (s : State) :
    conclude (.returned r s) = .next (finish r s) := rfl
@[simp] theorem conclude_hung (s : State) : conclude (.hung s) = .next (hang s) := rfl
@[simp] theorem concludeCall_returned (r : Result) (s : State) :
    concludeCall (.returned r s) = .next { s with ret := some r } := rfl
@[simp] theorem concludeCall_hung (s : State) : concludeCall (.hung s) = .next { hang s with ret := none } := rfl

@[simp] theorem firstError_ok (r : Result) : firstError .ok r = r := rfl
@[simp] theorem firstError_err (e : ErrorCause) (r : Result) : firstError (.err e) r = .err e := rfl

theorem firstError_assoc (a b c : Result) : firstError (firstError a b) c = firstError a (firstError b c) := by
  cases a <;> rfl

/-- A host operation of `Ready`, idle, is its body from the start. -/
theorem whenReady_of_ready {s : State} (h : s.readyIdle) (body : State → Run) :
    whenReady body s = conclude (body (start s)) := by
  simp [whenReady, h.1, h.2]

/-- An operation that ended with the engine not busy returned; it did not hang. -/
theorem conclude_next {run : Run} {t : State} (h : conclude run = .next t) (hb : t.E.busy = false) :
    ∃ r s, run = .returned r s ∧ t = finish r s := by
  cases run <;> cases h
  · exact ⟨_, _, rfl, rfl⟩
  · cases hb

/-- `whenReady` answers next exactly when the engine is `Ready` and idle. -/
theorem whenReady_next {s t : State} {body : State → Run} (h : whenReady body s = .next t) :
    s.readyIdle ∧ conclude (body (start s)) = .next t := by
  unfold whenReady at h
  cases hb : s.E.busy with
  | true => rw [hb] at h; cases h
  | false =>
    rw [hb] at h
    by_cases hf : s.E.fsm = .ready
    · simp only [hf, Bool.false_eq_true, if_true, if_false] at h
      exact ⟨⟨hf, hb⟩, h⟩
    · simp [hf] at h

/-! ## The answers to come -/

@[simp] theorem answerAt_zero (o : Oracle) : o.answerAt 0 = o.next := rfl
@[simp] theorem answerAt_succ (o : Oracle) (k : Nat) : o.answerAt (k + 1) = o.rest.answerAt k := rfl
@[simp] theorem drop_zero (o : Oracle) : o.drop 0 = o := rfl
@[simp] theorem drop_succ (o : Oracle) (n : Nat) : o.drop (n + 1) = o.rest.drop n := rfl

theorem drop_add (o : Oracle) (m n : Nat) : o.drop (m + n) = (o.drop m).drop n := by
  induction m generalizing o with
  | zero => simp
  | succ m ih => rw [Nat.succ_add]; exact ih o.rest

theorem answerAt_add (o : Oracle) (m n : Nat) : o.answerAt (m + n) = (o.drop m).answerAt n := by
  induction m generalizing o with
  | zero => simp
  | succ m ih => rw [Nat.succ_add]; exact ih o.rest

theorem allOk_succ (o : Oracle) (n : Nat) : o.allOk (n + 1) ↔ o.next = .ok ∧ o.rest.allOk n := by
  constructor
  · exact fun h => ⟨h 0 (by omega), fun k hk => h (k + 1) (by omega)⟩
  · rintro ⟨h0, h⟩ (_ | k) hk
    · exact h0
    · exact h k (by omega)

theorem allAnswered_succ (o : Oracle) (n : Nat) :
    o.allAnswered (n + 1) ↔ o.next ≠ .never ∧ o.rest.allAnswered n := by
  constructor
  · exact fun h => ⟨h 0 (by omega), fun k hk => h (k + 1) (by omega)⟩
  · rintro ⟨h0, h⟩ (_ | k) hk
    · exact h0
    · exact h k (by omega)

theorem allOk_add (o : Oracle) (m n : Nat) : o.allOk (m + n) ↔ o.allOk m ∧ (o.drop m).allOk n := by
  induction m generalizing o with
  | zero => simp [Oracle.allOk]
  | succ m ih => rw [Nat.succ_add, allOk_succ, ih, allOk_succ, drop_succ, and_assoc]

theorem allOk.allAnswered {o : Oracle} {n : Nat} (h : o.allOk n) : o.allAnswered n := by
  intro k hk
  rw [h k hk]
  simp

/-! ## A request by answer -/

theorem request_ok {s : State} (h : s.oracle.next = .ok) (f : State → Run) (g : TransportFailure → State → Run) :
    request s f g = f (takeAnswer s) := by
  simp [request, h]

theorem request_err {s : State} {t : TransportFailure} (h : s.oracle.next = .err t) (f : State → Run)
    (g : TransportFailure → State → Run) : request s f g = g t (takeAnswer s) := by
  simp [request, h]

theorem request_never {s : State} (h : s.oracle.next = .never) (f : State → Run)
    (g : TransportFailure → State → Run) : request s f g = .hung s := by
  simp [request, h]

/-- The state after a byte that was sent. -/
def sentState (w : WireByte) (s : State) : State := emit (.tx w.2) (countByte (takeAnswer (setLine .dc w.1 s)))

/-- The state after a byte that failed. -/
def failedState (w : WireByte) (t : TransportFailure) (s : State) : State :=
  emit (.txFail w.2 t) (countByte (takeAnswer (setLine .dc w.1 s)))

theorem send_ok {s : State} (h : s.oracle.next = .ok) (w : WireByte) : send w s = .returned .ok (sentState w s) :=
  request_ok (s := setLine .dc w.1 s) h _ _

theorem send_err {s : State} {t : TransportFailure} (h : s.oracle.next = .err t) (w : WireByte) :
    send w s = .returned (.err (.busError t)) (failedState w t s) :=
  request_err (s := setLine .dc w.1 s) h _ _

theorem send_never {s : State} (h : s.oracle.next = .never) (w : WireByte) :
    send w s = .hung (setLine .dc w.1 s) :=
  request_never (s := setLine .dc w.1 s) h _ _

/-! ## Bytes sent -/

@[simp] theorem sendAll_nil (s : State) : sendAll [] s = .returned .ok s := rfl
@[simp] theorem sendAll_cons (w : WireByte) (rest : List WireByte) (s : State) :
    sendAll (w :: rest) s = (send w s).both (sendAll rest) := rfl
@[simp] theorem sendUntilError_nil (s : State) : sendUntilError [] s = .returned .ok s := rfl
@[simp] theorem sendUntilError_cons (w : WireByte) (rest : List WireByte) (s : State) :
    sendUntilError (w :: rest) s = (send w s).ifOk (sendUntilError rest) := rfl

theorem both_returned_ok (run : Run) : run.both (fun s => .returned .ok s) = run := by
  cases run with
  | hung s => rfl
  | returned r s => cases r <;> rfl

theorem both_assoc (run : Run) (f g : State → Run) :
    (run.both f).both g = run.both fun s => (f s).both g := by
  cases run with
  | hung s => rfl
  | returned r s =>
    simp only [both_returned]
    cases f s with
    | hung s' => rfl
    | returned r' s' =>
      simp only [both_returned]
      cases g s' with
      | hung s'' => rfl
      | returned r'' s'' => simp [firstError_assoc]

/-- Two lists of bytes sent one after the other. -/
theorem sendAll_append (as bs : List WireByte) (s : State) :
    sendAll (as ++ bs) s = (sendAll as s).both (sendAll bs) := by
  induction as generalizing s with
  | nil =>
    simp only [List.nil_append, sendAll_nil, both_returned, firstError_ok]
    cases sendAll bs s <;> rfl
  | cons w rest ih =>
    rw [List.cons_append, sendAll_cons, sendAll_cons, both_assoc]
    congr 1
    funext s'
    exact ih s'

/-- What a run of sends leaves alone: everything but the sequencer index, the lines, PANEL, the trace and the
answers. -/
structure SendFrame (s s' : State) (n : Nat) : Prop where
  E : s'.E = { s.E with seq := s.E.seq + n }
  T : s'.T = s.T
  rst : s'.L.rst = s.L.rst
  dcDir : s'.L.dc.dir = s.L.dc.dir
  waits : s'.waits = s.waits
  oracle : s'.oracle = s.oracle.drop n
  ret : s'.ret = s.ret
  inbox : s'.inbox = s.inbox
  wireIn : s'.wireIn = s.wireIn
  params : s'.params = s.params

theorem SendFrame.refl (s : State) : SendFrame s s 0 := by
  constructor <;> rfl

theorem SendFrame.trans {s s' s'' : State} {m n : Nat} (h : SendFrame s s' m) (h' : SendFrame s' s'' n) :
    SendFrame s s'' (m + n) where
  E := by rw [h'.E, h.E]; simp [Nat.add_assoc]
  T := h'.T.trans h.T
  rst := h'.rst.trans h.rst
  dcDir := h'.dcDir.trans h.dcDir
  waits := h'.waits.trans h.waits
  oracle := by rw [h'.oracle, h.oracle, drop_add]
  ret := h'.ret.trans h.ret
  inbox := h'.inbox.trans h.inbox
  wireIn := h'.wireIn.trans h.wireIn
  params := h'.params.trans h.params

theorem sentState_frame (w : WireByte) (s : State) : SendFrame s (sentState w s) 1 := by
  constructor <;> rfl

theorem failedState_frame (w : WireByte) (t : TransportFailure) (s : State) : SendFrame s (failedState w t s) 1 := by
  constructor <;> rfl

theorem sentState_trace (w : WireByte) (s : State) :
    (sentState w s).trace = s.trace ++ [.level .dc w.1, .tx w.2] := by
  simp [sentState, setLine]

theorem failedState_trace (w : WireByte) (t : TransportFailure) (s : State) :
    (failedState w t s).trace = s.trace ++ [.level .dc w.1, .txFail w.2 t] := by
  simp [failedState, setLine]

/-- Best-effort sending, when every request is answered: every byte attempted, the first error the result. -/
theorem sendAll_answered (bytes : List WireByte) (s : State) (h : s.oracle.allAnswered bytes.length) :
    ∃ s', sendAll bytes s = .returned (s.oracle.firstError bytes.length) s' ∧
      s'.trace = s.trace ++ attempts s.oracle bytes ∧ SendFrame s s' bytes.length := by
  induction bytes generalizing s with
  | nil => exact ⟨s, rfl, by simp [attempts], SendFrame.refl s⟩
  | cons w rest ih =>
    obtain ⟨h0, hr⟩ := (allAnswered_succ s.oracle rest.length).1 h
    have len : (w :: rest).length = 1 + rest.length := by simp [Nat.add_comm]
    cases hn : s.oracle.next with
    | never => exact absurd hn h0
    | ok =>
      obtain ⟨s', hs', ht, hf⟩ := ih (sentState w s) hr
      refine ⟨s', ?_, ?_, len ▸ (sentState_frame w s).trans hf⟩
      · have ho : (sentState w s).oracle = s.oracle.rest := rfl
        rw [sendAll_cons, send_ok hn, both_returned, hs']
        simp [Oracle.firstError, hn, ho]
      · have ho : (sentState w s).oracle = s.oracle.rest := rfl
        rw [ht, sentState_trace, ho]
        simp [attempts, hn]
    | err t =>
      obtain ⟨s', hs', ht, hf⟩ := ih (failedState w t s) hr
      refine ⟨s', ?_, ?_, len ▸ (failedState_frame w t s).trans hf⟩
      · rw [sendAll_cons, send_err hn, both_returned, hs']
        simp [Oracle.firstError, hn]
      · have ho : (failedState w t s).oracle = s.oracle.rest := rfl
        rw [ht, failedState_trace, ho]
        simp [attempts, hn]

/-- The level of the mode-select line after bytes that were attempted. -/
def dcAfter (l : LineLevel) (bytes : List WireByte) : LineLevel :=
  bytes.foldl (fun _ w => if w.1 then .high else .low) l

/-- Best-effort sending, when every byte is sent: PANEL receives every byte, in order. -/
theorem sendAll_allOk (bytes : List WireByte) (s : State) (h : s.oracle.allOk bytes.length)
    (hdc : s.L.dc.dir = .output) :
    sendAll bytes s = .returned .ok
      { s with
        E := { s.E with seq := s.E.seq + bytes.length }
        L := { s.L with dc := { s.L.dc with level := dcAfter s.L.dc.level bytes } }
        trace := s.trace ++ sent bytes
        P := bytes.foldl (fun p w => p.receive s.params s.L.rst w) s.P
        oracle := s.oracle.drop bytes.length } := by
  induction bytes generalizing s with
  | nil => simp [sent, dcAfter]
  | cons w rest ih =>
    obtain ⟨h0, hr⟩ := (allOk_succ s.oracle rest.length).1 h
    have hP : (sentState w s).P = s.P.receive s.params s.L.rst w := by
      rcases hL : s.L with ⟨⟨dir, level⟩, rst⟩
      rw [hL] at hdc
      obtain ⟨m, b⟩ := w
      cases hdc
      cases m <;> simp [sentState, setLine, hL, Panel.event]
    rw [sendAll_cons, send_ok h0, both_returned, ih (sentState w s) hr hdc, hP]
    simp only [firstError_ok]
    congr 1
    simp [sentState, setLine, sent, sentEvents, dcAfter]
    omega

/-- The strict sending of bytes all of which are sent is the best-effort one. -/
theorem sendUntilError_allOk (bytes : List WireByte) (s : State) (h : s.oracle.allOk bytes.length) :
    sendUntilError bytes s = sendAll bytes s := by
  induction bytes generalizing s with
  | nil => rfl
  | cons w rest ih =>
    obtain ⟨h0, hr⟩ := (allOk_succ s.oracle rest.length).1 h
    rw [sendUntilError_cons, sendAll_cons, send_ok h0, ifOk_ok, both_returned, ih (sentState w s) hr]
    cases sendAll rest (sentState w s) <;> rfl

/-- Strict sending with the first k bytes sent: those, then byte k, then the rest. -/
theorem sendUntilError_split (bytes : List WireByte) (k : Nat) :
    ∀ (s : State) (hk : k < bytes.length), s.oracle.allOk k →
    sendUntilError bytes s =
      (sendAll (bytes.take k) s).ifOk fun s => (send bytes[k] s).ifOk (sendUntilError (bytes.drop (k + 1))) := by
  induction k generalizing bytes with
  | zero =>
    intro s hk _
    cases bytes with
    | nil => cases hk
    | cons w rest => rfl
  | succ k ih =>
    intro s hk h
    cases bytes with
    | nil => cases hk
    | cons w rest =>
      obtain ⟨h0, hr⟩ := (allOk_succ s.oracle k).1 h
      have hk' : k < rest.length := by simpa using hk
      have he := ih rest (sentState w s) hk' hr
      rw [sendUntilError_cons, send_ok h0, ifOk_ok, he, List.take_succ_cons, sendAll_cons, send_ok h0]
      simp only [both_returned, firstError_ok, List.getElem_cons_succ, List.drop_succ_cons]
      cases sendAll (rest.take k) (sentState w s) <;> rfl

/-- What strict sending can do: it hangs, or returns Ok, or returns the error of one byte. -/
theorem sendUntilError_frame (bytes : List WireByte) (s : State) :
    (∃ s' n, sendUntilError bytes s = .hung s' ∧ SendFrame s s' n) ∨
      (∃ r s' n, sendUntilError bytes s = .returned r s' ∧ SendFrame s s' n) := by
  induction bytes generalizing s with
  | nil => exact .inr ⟨.ok, s, 0, rfl, SendFrame.refl s⟩
  | cons w rest ih =>
    rw [sendUntilError_cons]
    cases hn : s.oracle.next with
    | never => exact .inl ⟨_, 0, by rw [send_never hn]; rfl, by constructor <;> rfl⟩
    | err t => exact .inr ⟨_, _, 1, by rw [send_err hn]; rfl, failedState_frame w t s⟩
    | ok =>
      rw [send_ok hn, ifOk_ok]
      rcases ih (sentState w s) with ⟨s', n, h, hf⟩ | ⟨r, s', n, h, hf⟩
      · exact .inl ⟨s', _, h, (sentState_frame w s).trans hf⟩
      · exact .inr ⟨r, s', _, h, (sentState_frame w s).trans hf⟩

/-- What best-effort sending can do: it hangs or returns. -/
theorem sendAll_frame (bytes : List WireByte) (s : State) :
    (∃ s' n, sendAll bytes s = .hung s' ∧ SendFrame s s' n) ∨
      (∃ r s' n, sendAll bytes s = .returned r s' ∧ SendFrame s s' n) := by
  induction bytes generalizing s with
  | nil => exact .inr ⟨.ok, s, 0, rfl, SendFrame.refl s⟩
  | cons w rest ih =>
    rw [sendAll_cons]
    cases hn : s.oracle.next with
    | never => exact .inl ⟨_, 0, by rw [send_never hn]; rfl, by constructor <;> rfl⟩
    | err t =>
      rw [send_err hn, both_returned]
      rcases ih (failedState w t s) with ⟨s', n, h, hf⟩ | ⟨r, s', n, h, hf⟩
      · exact .inl ⟨s', _, by rw [h], (failedState_frame w t s).trans hf⟩
      · exact .inr ⟨_, s', _, by rw [h], (failedState_frame w t s).trans hf⟩
    | ok =>
      rw [send_ok hn, both_returned]
      rcases ih (sentState w s) with ⟨s', n, h, hf⟩ | ⟨r, s', n, h, hf⟩
      · exact .inl ⟨s', _, by rw [h], (sentState_frame w s).trans hf⟩
      · exact .inr ⟨_, s', _, by rw [h], (sentState_frame w s).trans hf⟩

/-! ## DRAW_STRING -/

theorem drawCharBody_valid {id : Nat} (h : id < Config.nGlyph) (x y : Nat) (color : Color) (s : State) :
    drawCharBody x y id color s = sendAll (drawCharBytes s.params x y id color) s := by
  simp [drawCharBody, drawCharBytes, Nat.not_le.2 h]

theorem codePointMap_lt {ch id : Nat} (h : codePointMap ch = some id) : id < Config.nGlyph := by
  by_cases hc : 0x30 ≤ ch ∧ ch ≤ 0x39
  · simp only [codePointMap, hc, if_true, and_self] at h
    have := Option.some.inj h
    show id < 15
    omega
  · simp only [codePointMap, hc, if_false] at h
    split at h <;> cases h <;> decide

/-- CHARMAP of a code point is the table of 42_rasterizer.md R172. -/
theorem charMap_codePoint {ch : Nat} (h : isCodePoint ch = true) : charMap ch = codePointMap ch := if_pos h

/-- CHARMAP yields only valid ids (42_rasterizer.md R177). -/
theorem charMap_lt {ch id : Nat} (h : charMap ch = some id) : id < Config.nGlyph := by
  unfold charMap at h
  split at h
  · exact codePointMap_lt h
  · obtain ⟨g, -, rfl⟩ := Option.map_eq_some_iff.1 h
    exact g.isLt

/-! ## The reset pulse and CONFIGURE -/

@[simp] theorem validConfig_none : validConfig none = none := rfl

theorem validConfig_some {c : DisplayConfig} (h : 0 < c.clockHz) : validConfig (some c) = some c := by
  simp [validConfig, Nat.ne_of_gt h]

theorem validConfig_eq_some {cfg : Option DisplayConfig} {c : DisplayConfig} (h : validConfig cfg = some c) :
    cfg = some c ∧ 0 < c.clockHz := by
  unfold validConfig at h
  split at h
  · cases h
  · split at h
    · cases h
    · cases h
      exact ⟨rfl, by omega⟩

/-- The events of the lines and the reset pulse (40_transport.md R122). -/
def resetEvents (w : Nat) : List Event :=
  [.dir .dc, .dir .rst, .level .rst false, .wait (Config.rstLowMin + Config.extraWait w), .level .rst true,
    .wait (Config.rstHighMin + Config.extraWait (w + 1))]

/-- What the lines and the reset pulse do, whole. -/
theorem resetPanel_eq (s : State) :
    resetPanel s =
      { s with
        E := { s.E with fsm := .configuring }
        L := { dc := { s.L.dc with dir := .output }, rst := ⟨.output, .high⟩ }
        trace := s.trace ++ resetEvents s.waits
        P := s.P.any.postReset
        waits := s.waits + 2 } := by
  simp [resetPanel, resetPulse, waitAtLeast, setLine, setDir, setFsm, emit, resetEvents, Panel.event,
    Lines.event, Transport.event]

/-- CONFIGURE with a valid configuration, whole, by the two answers (40_transport.md R122, R125). -/
theorem configure_some {c : DisplayConfig} (hc : 0 < c.clockHz) (s : State) :
    configure (some c) s =
      match s.oracle.next with
      | .never => .hung (resetPanel s)
      | .err f => .returned (.err (.busError f)) (takeAnswer (resetPanel s))
      | .ok =>
        match s.oracle.rest.next with
        | .never => .hung (emit .busInit (takeAnswer (resetPanel s)))
        | .err f => .returned (.err (.busError f))
            (emit .busFree (takeAnswer (emit .busInit (takeAnswer (resetPanel s)))))
        | .ok => .returned .ok (emit (.attach c.clockHz 0) (takeAnswer (emit .busInit (takeAnswer (resetPanel s)))))
            := by
  have ho : (resetPanel s).oracle = s.oracle := by rw [resetPanel_eq]
  have ho1 : (emit .busInit (takeAnswer (resetPanel s))).oracle = s.oracle.rest := by rw [resetPanel_eq]; rfl
  rw [configure, validConfig_some hc]
  simp only
  cases h : s.oracle.next with
  | never => simp only; rw [busInit, request_never (by rw [ho]; exact h)]; rfl
  | err f => simp only; rw [busInit, request_err (by rw [ho]; exact h)]; rfl
  | ok =>
    simp only
    rw [busInit, request_ok (by rw [ho]; exact h), ifOk_ok, attach]
    cases h' : s.oracle.rest.next with
    | never => rw [request_never (by rw [ho1]; exact h')]
    | err f => rw [request_err (by rw [ho1]; exact h')]; rfl
    | ok => rw [request_ok (by rw [ho1]; exact h')]; rfl

end Sys2Proof.Machine
end

