-- ==== Sys2Proof/Laws/Panel.lean ====
section
/-! SUPPORT. What PANEL does, said once: a byte it hears, a whole command, a whole pixel,
    and that every byte keeps its
invariants. -/

namespace Sys2Proof.Machine

/-- PANEL takes bytes as the receiver model states. -/
structure Panel.Hears (p : Panel) (k : Params) (rst : LineState) : Prop where
  rst : rst = ⟨.output, .high⟩
  lost : p.lost = false
  busy : p.erasing k = false

/-- With T_CLEAR = 0 no erase is in progress (43_wire_commands.md R190, 10_state.md R49). -/
theorem erasing_of_tClear_zero {k : Params} (h : k.tClear = 0) (p : Panel) : p.erasing k = false := by
  simp [Panel.erasing, h]

/-- With T_CLEAR above 0 the erase bit says it (43_wire_commands.md R190). -/
theorem erasing_of_tClear_pos {k : Params} (h : k.tClear ≠ 0) (p : Panel) : p.erasing k = p.busyClear := by
  simp [Panel.erasing, h]

theorem receive_hears {p : Panel} {k : Params} {rst : LineState} (h : p.Hears k rst) (w : WireByte) :
    p.receive k rst w = if w.1 then p.dataByte k w.2 else p.commandByte k w.2 := by
  simp [Panel.receive, Panel.byte, h.rst, h.lost, h.busy]

/-- The operands that end a command run it; the ones before are collected. -/
theorem receive_operands (k : Params) (op : Byte) {rst : LineState} :
    ∀ (args got : List Byte) (p : Panel), p.Hears k rst → args ≠ [] →
      p.parse = .collect op (got.length + args.length) got →
      (args.map fun a => (false, a)).foldl (fun p w => p.receive k rst w) p =
        Panel.command k op (got ++ args) { p with pixHi := none, parse := .idle } := by
  intro args
  induction args with
  | nil => intro _ _ _ h; exact absurd rfl h
  | cons a rest ih =>
    intro got p hp _ hparse
    rw [List.map_cons, List.foldl_cons, receive_hears hp]
    simp only [Panel.commandByte, hparse, Panel.operand, Bool.false_eq_true, if_false]
    cases rest with
    | nil => simp
    | cons b rest' =>
      have hlen : ¬ (got.length + 1 = got.length + (a :: b :: rest').length) := by simp
      rw [if_neg hlen]
      refine (ih (got ++ [a])
        { p with pixHi := none, parse := .collect op (got.length + (a :: b :: rest').length) (got ++ [a]) }
        ⟨hp.rst, hp.lost, hp.busy⟩ (by simp) ?_).trans ?_
      · simp
        omega
      · simp

/-- A whole command arriving with the parser idle is the rule of the command, the half pixel dropped
(43_wire_commands.md R190). -/
theorem receive_command {p : Panel} {k : Params} {rst : LineState} (h : p.Hears k rst) (hp : p.parse = .idle)
    {op : Byte} {args : List Byte} (hop : operandCount op = some args.length) :
    (commandBytes op args).foldl (fun p w => p.receive k rst w) p =
      Panel.command k op args { p with pixHi := none } := by
  rw [commandBytes, List.foldl_cons, receive_hears h]
  simp only [Panel.commandByte, hp, Panel.opcode, hop, Bool.false_eq_true, if_false]
  cases args with
  | nil => simp
  | cons a rest =>
    simp only [List.length_cons]
    refine (receive_operands k op (a :: rest) []
      { p with pixHi := none, parse := .collect op (rest.length + 1) [] }
      ⟨h.rst, h.lost, h.busy⟩ (by simp) (by simp)).trans ?_
    simp

/-- A whole pixel arriving with the parser idle and no half pixel (20_memory.md R77). -/
theorem receive_pixel {p : Panel} {k : Params} {rst : LineState} (h : p.Hears k rst) (hp : p.parse = .idle)
    (hx : p.pixHi = none) (hi lo : Byte) :
    [(true, hi), (true, lo)].foldl (fun p w => p.receive k rst w) p =
      if p.windowInRange then (p.storePixel k (hi ++ lo)).advancePointer else p.gramAny := by
  have h2 : ({ p with pixHi := some hi } : Panel).Hears k rst := ⟨h.rst, h.lost, h.busy⟩
  have first : p.receive k rst (true, hi) = { p with pixHi := some hi } := by
    simp [receive_hears h, Panel.dataByte, hp, Panel.data, hx]
  have hq : ({ p with pixHi := none } : Panel) = p := by rw [← hx]
  rw [List.foldl_cons, List.foldl_cons, List.foldl_nil, first, receive_hears h2]
  simp only [if_true, Panel.dataByte, hp, Panel.data]
  rw [← hp, hq]

/-! ## Instructions at PANEL -/

theorem hears_of {s : State} (h : s.hears) : s.P.Hears s.params s.L.rst := ⟨h.1, h.2.1, h.2.2.1⟩

/-- A whole command arriving at PANEL. -/
theorem arrive_command {s : State} (h : s.hears) {op : Byte} {args : List Byte} {i : Instr}
    (ho : operandCount op = some args.length) (hc : commandOf op args = some i) :
    arrive (commandBytes op args) s = s.withPanel (s.P.dropHalf.effect s.params i) := by
  simp only [arrive, State.withPanel]
  rw [receive_command (hears_of h) h.2.2.2 ho]
  simp only [Panel.command, hc]
  rfl

/-- A whole pixel arriving at PANEL. -/
theorem arrive_pixel {s : State} (h : s.hears) (hx : s.P.pixHi = none) (hi lo : Byte) :
   arrive [(true, hi), (true, lo)] s = s.withPanel (if s.P.windowInRange then (s.P.storePixel s.params (hi ++
       lo)).advancePointer else s.P.gramAny) := by
  simp only [arrive, State.withPanel]
  rw [receive_pixel (hears_of h) h.2.2.2 hx]

/-- What a wire command does where PANEL hears it: its rule, the half pixel dropped. -/
theorem exec_command {s : State} (h : s.hears) {i : Instr} (hl : i.level = .wire) (hp : ∀ a b, i ≠ .pix a b) :
    exec i s = .next (s.withPanel (s.P.dropHalf.effect s.params i)) := by
  cases i
  case pix a b => exact absurd rfl (hp a b)
  all_goals first | exact congrArg _ (arrive_command h rfl rfl) | cases hl

/-- What a pixel does where PANEL hears it. -/
theorem exec_pix {s : State} (h : s.hears) (hx : s.P.pixHi = none) (hi lo : Byte) : exec (.pix hi lo)
    s = .next (s.withPanel (if s.P.windowInRange then (s.P.storePixel s.params (hi ++ lo)).advancePointer else
    s.P.gramAny)) :=
  congrArg _ (arrive_pixel h hx hi lo)

/-- The eight bytes of SET_PIXEL arriving at PANEL (43_wire_commands.md R192, R193, 20_memory.md R77). -/
theorem setPixel_foldl {p : Panel} {k : Params} {rst : LineState} (h : p.Hears k rst) (hp : p.parse = .idle)
    (hx : p.pixHi = none) (x y : Byte) (color : Color) :
    (setPixelBytes x y color).foldl (fun p w => p.receive k rst w) p =
      (let q := { p with
         colStart := x, colEnd := x, ptrCol := x, rowStart := y, rowEnd := y, ptrRow := y, windowFresh := false }
       if q.windowInRange then (q.storePixel k color).advancePointer else q.gramAny) := by
  have e : setPixelBytes x y color = commandBytes 0x15#8 [x, x] ++ (commandBytes 0x75#8 [y, y] ++ [(true,
      colorHi color), (true, colorLo color)]) := rfl
  rw [e, List.foldl_append, List.foldl_append, receive_command h hp rfl]
  have e1 : Panel.command k 0x15#8 [x, x] { p with pixHi := none } =
      { p with colStart := x, colEnd := x, ptrCol := x, windowFresh := false } := by
    rw [← hx]; rfl
  have h1 : ({ p with colStart := x, colEnd := x, ptrCol := x, windowFresh := false } : Panel).Hears k rst :=
    ⟨h.rst, h.lost, h.busy⟩
  rw [e1, receive_command h1 hp rfl]
  have e2 : Panel.command k 0x75#8 [y, y]
      { ({ p with colStart := x, colEnd := x, ptrCol := x, windowFresh := false } : Panel) with pixHi := none } =
      { p with
        colStart := x, colEnd := x, ptrCol := x, rowStart := y, rowEnd := y, ptrRow := y, windowFresh := false } := by
    rw [← hx]; rfl
  have h2 : ({ p with
      colStart := x, colEnd := x, ptrCol := x, rowStart := y, rowEnd := y, ptrRow := y, windowFresh := false } :
      Panel).Hears k rst := ⟨h.rst, h.lost, h.busy⟩
  rw [e2, receive_pixel h2 hp hx, colorHi_append_colorLo]

/-- In a one by one window the pointer stays (20_memory.md R78). -/
theorem storePixel_advance {k : Params} {p : Panel} (x y : Byte) (color : Color) (hp : p.premise k = true) :
   let q : Panel := { p with
     colStart := x, colEnd := x, ptrCol := x, rowStart := y, rowEnd := y, ptrRow := y, windowFresh := false }
   (q.storePixel k color).advancePointer = { q with gram := p.gram.writePixel x.toNat y.toNat color } := by
  intro q
  have hq : q.premise k = true := hp
  simp only [Panel.storePixel, hq, if_true, Panel.advancePointer, Panel.advanceRow]
  simp [q]

/-! ## PANEL's invariants -/

theorem drawn_parse_wf (n : Nat) : (Parse.drawn n).wf = true := by
  unfold Parse.drawn
  split
  · rfl
  · split
    · rename_i k hk
      simp [Parse.wf, hk]
    · rfl

theorem any_inv (p : Panel) : p.any.gram.wf ∧ p.any.parse.wf = true := ⟨drawn_wf _, drawn_parse_wf _⟩

/-- In range, the pointer names a cell of the panel. -/
theorem windowInRange_ptr {p : Panel} (h : p.windowInRange = true) :
    p.ptrCol.toNat < Config.width ∧ p.ptrRow.toNat < Config.height := by
  simp only [Panel.windowInRange, Panel.boundsInRange, Bool.and_eq_true, decide_eq_true_eq, BitVec.le_def] at h
  omega

theorem storePixel_inv {p : Panel} (hw : p.windowInRange = true) (h : p.gram.wf ∧ p.parse.wf = true) (k : Params)
    (v : Color) : (p.storePixel k v).gram.wf ∧ (p.storePixel k v).parse.wf = true := by
  unfold Panel.storePixel
  split
  · exact ⟨writePixel_wf h.1 (windowInRange_ptr hw).1 (windowInRange_ptr hw).2 v, h.2⟩
  · exact ⟨drawn_wf _, h.2⟩

theorem advancePointer_gram (p : Panel) : p.advancePointer.gram = p.gram := by
  unfold Panel.advancePointer Panel.advanceRow
  split <;> rfl

theorem advancePointer_parse (p : Panel) : p.advancePointer.parse = p.parse := by
  unfold Panel.advancePointer Panel.advanceRow
  split <;> rfl

theorem data_inv {p : Panel} (h : p.gram.wf ∧ p.parse.wf = true) (k : Params) (b : Byte) :
    (p.data k b).gram.wf ∧ (p.data k b).parse.wf = true := by
  unfold Panel.data
  split
  · exact h
  · simp only
    split
    · rw [advancePointer_gram, advancePointer_parse]
      exact storePixel_inv (p := { p with pixHi := none }) (by assumption) h k _
    · exact ⟨drawn_wf _, h.2⟩

/-- The end of an erase: the bit falls, or PANEL is drawn anew. -/
theorem eraseEnd_cases (p : Panel) (rst : LineState) :
    (rst = ⟨.output, .high⟩ ∧ p.lost = false ∧ p.eraseEnd rst = { p with busyClear := false }) ∨
      p.eraseEnd rst = p.any := by
  unfold Panel.eraseEnd
  split
  next h => exact .inl ⟨h.1, h.2, rfl⟩
  next => exact .inr rfl

theorem eraseEnd_inv {p : Panel} (h : p.gram.wf ∧ p.parse.wf = true) (rst : LineState) :
    (p.eraseEnd rst).gram.wf ∧ (p.eraseEnd rst).parse.wf = true := by
  rcases eraseEnd_cases p rst with ⟨-, -, e⟩ | e <;> rw [e]
  · exact h
  · exact any_inv p

/-- No window bound that a command sent is out of range, as the bits say it and as the numbers do. -/
theorem windowOff_eq_false {p : Panel} : p.windowOff = false ↔ p.windowOk := by
  have hb : p.boundsInRange = true ↔
      p.colStart.toNat ≤ p.colEnd.toNat ∧ p.colEnd.toNat ≤ 95 ∧ p.rowStart.toNat ≤ p.rowEnd.toNat ∧
        p.rowEnd.toNat ≤ 63 := by
    simp only [Panel.boundsInRange, Bool.and_eq_true, decide_eq_true_eq, BitVec.le_def]
    simp only [Config.width, Config.height]
    omega
  rw [Panel.windowOk, ← hb]
  cases hf : p.windowFresh <;> cases h : p.boundsInRange <;> simp [Panel.windowOff, hf, h]

theorem clearWindow_inv {p : Panel} (h : p.gram.wf ∧ p.parse.wf = true) (k : Params) (a b c d : Byte) :
    (p.clearWindow k a b c d).gram.wf ∧ (p.clearWindow k a b c d).parse.wf = true := by
  have he : (p.erase k a b c d).gram.wf ∧ (p.erase k a b c d).parse.wf = true := by
    unfold Panel.erase
    split
    · exact ⟨fillRect_wf _ _ _ _ _ _, h.2⟩
    · exact ⟨drawn_wf _, h.2⟩
  unfold Panel.clearWindow
  split
  · simp only
    split
    · exact he
    · exact he
  · exact ⟨drawn_wf _, h.2⟩

theorem effect_inv {p : Panel} (h : p.gram.wf ∧ p.parse.wf = true) (k : Params) (i : Instr) :
    (p.effect k i).gram.wf ∧ (p.effect k i).parse.wf = true := by
  cases i
  case clearWindowCmd a b c d => exact clearWindow_inv h k a b c d
  all_goals exact h

theorem command_inv {p : Panel} (h : p.gram.wf ∧ p.parse.wf = true) (k : Params) (op : Byte) (args : List Byte) :
    (Panel.command k op args p).gram.wf ∧ (Panel.command k op args p).parse.wf = true := by
  unfold Panel.command
  split
  · exact effect_inv h k _
  · exact any_inv p

theorem commandByte_inv {p : Panel} (h : p.gram.wf ∧ p.parse.wf = true) (k : Params) (b : Byte) :
    (p.commandByte k b).gram.wf ∧ (p.commandByte k b).parse.wf = true := by
  unfold Panel.commandByte
  simp only
  split
  · unfold Panel.opcode
    split
    · exact any_inv _
    · exact command_inv (p := { p with pixHi := none }) h _ _ _
    · rename_i n hn
      exact ⟨h.1, by simp [Parse.wf, hn]⟩
  · rename_i op need got hp
    have hw := h.2
    rw [hp] at hw
    simp only [Parse.wf, Bool.and_eq_true, decide_eq_true_eq] at hw
    unfold Panel.operand
    split
    · exact command_inv (p := { p with pixHi := none, parse := .idle }) ⟨h.1, rfl⟩ _ _ _
    · refine ⟨h.1, ?_⟩
      simp only [Parse.wf, Bool.and_eq_true, decide_eq_true_eq, List.length_append, List.length_singleton]
      exact ⟨hw.1, by omega⟩

theorem receive_inv {p : Panel} (h : p.gram.wf ∧ p.parse.wf = true) (k : Params) (rst : LineState) (w : WireByte) :
    (p.receive k rst w).gram.wf ∧ (p.receive k rst w).parse.wf = true := by
  unfold Panel.receive
  split
  · unfold Panel.byte
    split
    · exact any_inv p
    · split
      · unfold Panel.dataByte
        split
        · exact data_inv h k _
        · exact any_inv p
      · exact commandByte_inv h k _
  · exact any_inv p

/-- Every event keeps PANEL's invariants. -/
theorem event_inv {p : Panel} (h : p.gram.wf ∧ p.parse.wf = true) (k : Params) (l : Lines) (e : Event) :
    (p.event k l e).gram.wf ∧ (p.event k l e).parse.wf = true := by
  unfold Panel.event
  split <;> try exact h
  · exact any_inv p
  · exact ⟨drawn_wf _, rfl⟩
  · split
    · exact receive_inv h _ _ _
    · exact receive_inv h _ _ _
    · exact any_inv p
  · exact any_inv p

/-- A command of one byte or two that leaves the counter of free values, the loss, the erase bit and the parser. -/
def QuietCommand (k : Params) (c : Byte × List Byte) : Prop :=
  (c.2 = [] ∨ ∃ a, c.2 = [a]) ∧ operandCount c.1 = some c.2.length ∧
    ∃ i, commandOf c.1 c.2 = some i ∧ ∀ p : Panel,
      (p.effect k i).draws = p.draws ∧ (p.effect k i).lost = p.lost ∧ (p.effect k i).busyClear = p.busyClear ∧
        (p.effect k i).parse = p.parse

/-- However many of their bytes arrive, such commands leave the counter and the loss as they were. -/
theorem quiet_prefix {k : Params} {rst : LineState} (cmds : List (Byte × List Byte)) :
    ∀ (p : Panel) (n : Nat), p.Hears k rst → p.parse = .idle → (∀ c ∈ cmds, QuietCommand k c) →
      let q := ((cmds.flatMap fun c => commandBytes c.1 c.2).take n).foldl (fun p w => p.receive k rst w) p
      q.draws = p.draws ∧ q.lost = p.lost := by
  induction cmds with
  | nil => intro p n _ _ _; simp
  | cons c rest ih =>
    intro p n hp hi hc
    obtain ⟨h1, ho, i, hcm, hq⟩ := hc c (by simp)
    obtain ⟨q0, q1, q2, q3⟩ := hq { p with pixHi := none }
    have whole : ∀ m,
        let q := (commandBytes c.1 c.2 ++ (rest.flatMap fun c => commandBytes c.1 c.2).take m).foldl
          (fun p w => p.receive k rst w) p
        q.draws = p.draws ∧ q.lost = p.lost := by
      intro m
      simp only
      rw [List.foldl_append, receive_command hp hi ho]
      have he : Panel.command k c.1 c.2 { p with pixHi := none } = Panel.effect k i { p with pixHi := none } := by
        simp [Panel.command, hcm]
      rw [he]
      obtain ⟨a, b⟩ := ih (Panel.effect k i { p with pixHi := none }) m
        ⟨hp.rst, q1.trans hp.lost, by have := hp.busy; simp only [Panel.erasing] at this ⊢; rw [q2]; exact this⟩
        (q3.trans hi) (fun c' h => hc c' (by simp [h]))
      exact ⟨a.trans q0, b.trans q1⟩
    have step : (p.receive k rst (false, c.1)) = Panel.opcode k c.1 { p with pixHi := none } := by
      simp [receive_hears hp, Panel.commandByte, hi]
    obtain ⟨op, args⟩ := c
    rcases h1 with h1 | ⟨a, h1⟩ <;> simp only at h1 <;> subst h1
    · cases n with
      | zero => exact ⟨rfl, rfl⟩
      | succ m => exact whole m
    · cases n with
      | zero => exact ⟨rfl, rfl⟩
      | succ m =>
        cases m with
        | zero =>
          show (p.receive k rst (false, op)).draws = _ ∧ (p.receive k rst (false, op)).lost = _
          rw [step]
          simp only [Panel.opcode, ho]
          exact ⟨rfl, rfl⟩
        | succ m => exact whole m

end Sys2Proof.Machine
end

