-- ==== Sys2Proof/Laws/Engine.lean ====
section
/-! SUPPORT. BEGIN and SET_PIXEL, said once: BEGIN with a valid configuration, up to the initialization sequence and up to
each of its bytes; SET_PIXEL with every byte sent. -/

namespace Sys2Proof.Machine

/-- BEGIN with a valid configuration is its bring-up. -/
theorem begin_some {s : State} {c : DisplayConfig} (hf : s.E.fsm = .uninitialized) (hb : s.E.busy = false)
    (hc : 0 < c.clockHz) : execBegin (some c) s = conclude (bringUp c (start s)) := by
  rw [execBegin, if_neg (by simp [hb]), if_pos hf, beginBody, validConfig_some hc]

/-- BEGIN once CONFIGURE has succeeded: what is left is the initialization sequence. -/
theorem begin_ok {s : State} {c : DisplayConfig} (hf : s.E.fsm = .uninitialized) (hb : s.E.busy = false) (hc :
    0 < c.clockHz)
    (h0 : s.oracle.answerAt 0 = .ok) (h1 : s.oracle.answerAt 1 = .ok) :
    execBegin (some c) s = conclude ((sendInitSeq
     { s with
        E := { s.E with fsm := .configuring, cfg := some c, handle := true, seq := 0, busy := true }
        L := { dc := { s.L.dc with dir := .output }, rst := ⟨.output, .high⟩ }
        T := { bus := .allocated, dev := .attached c.clockHz 0 }
        trace := s.trace ++ (resetEvents s.waits ++ [.busInit, .attach c.clockHz 0])
        P := s.P.any.postReset
        waits := s.waits + 2
        oracle := s.oracle.drop 2 }).ifOk fun s => .returned .ok (setDisplayOn true (setFsm .ready s))) := by
  simp only [answerAt_succ, answerAt_zero] at h0 h1
  rw [begin_some hf hb hc]
  simp only [bringUp]
  rw [configure_some hc]
  have e0 : (setFsm .resetting (setCfg c (start s))).oracle.next = .ok := h0
  have e1 : (setFsm .resetting (setCfg c (start s))).oracle.rest.next = .ok := h1
  rw [e0]
  simp only [e1, onError_ok, ifOk_ok]
  rw [resetPanel_eq]
  simp [emit, takeAnswer, Panel.event, Lines.event, Transport.event, setHandle, setFsm, setCfg, start]

@[simp] theorem initSeq_length (k : Params) : (initSeq k).length = 39 := rfl

/-- INIT_SEQ as its 21 commands (41_engine.md R142). -/
def initCommands (k : Params) : List (Byte × List Byte) :=
  [(0xAE#8, []), (0xA0#8, [k.initRemap]), (0xA1#8, [0x00#8]), (0xA2#8, [0x00#8]), (0xA4#8, []), (0xA8#8, [0x3F#8]),
    (0xAD#8, [k.initMasterCfg]), (0xB0#8, [k.initPowerMode]), (0xB1#8, [k.initPrecharge]), (0xB3#8, [0xF0#8]),
    (0x8A#8, [k.initPrechargeA]), (0x8B#8, [k.initPrechargeB]), (0x8C#8, [k.initPrechargeC]),
    (0xBB#8, [k.initPrechargeLevel]), (0xBE#8, [k.initVcomh]), (0x87#8, [k.initMasterCurrent]),
    (0x81#8, [k.initContrastA]), (0x82#8, [k.initContrastB]), (0x83#8, [k.initContrastC]), (0xAF#8, []),
    (0x26#8, [k.initFill])]

/-- The bytes of INIT_SEQ are those commands, one after another. -/
theorem initSeq_commands (k : Params) :
    (initSeq k).map cmd = (initCommands k).flatMap fun c => commandBytes c.1 c.2 := rfl

/-- No command of INIT_SEQ draws a free value. -/
theorem initCommands_quiet (k : Params) : ∀ c ∈ initCommands k, QuietCommand k c := by
  intro c hc
  simp only [initCommands, List.mem_cons, List.not_mem_nil, or_false] at hc
  rcases hc with rfl | rfl | rfl | rfl | rfl | rfl | rfl | rfl | rfl | rfl | rfl | rfl | rfl | rfl | rfl | rfl | rfl |
    rfl | rfl | rfl | rfl <;>
    exact ⟨by first | exact .inl rfl | exact .inr ⟨_, rfl⟩, rfl, _, rfl, fun p => ⟨rfl, rfl, rfl, rfl⟩⟩

/-- After the reset pulse, the bytes of INIT_SEQ draw no free value and lose nothing, however many arrive. -/
theorem initSeq_prefix_quiet (k : Params) (p : Panel) (n : Nat) :
    let q := (((initSeq k).map cmd).take n).foldl (fun p w => p.receive k ⟨.output, .high⟩ w) p.postReset
    q.draws = p.draws + 1 ∧ q.lost = false := by
  rw [initSeq_commands]
  exact quiet_prefix _ _ n ⟨rfl, rfl, by simp [Panel.erasing, Panel.postReset]⟩ rfl (initCommands_quiet k)

/-- BEGIN up to byte k of INIT_SEQ, every request before it answered Ok: what is left is that byte and the rest. -/
theorem begin_at {s : State} {c : DisplayConfig} (hf : s.E.fsm = .uninitialized) (hb : s.E.busy = false)
    (hc : 0 < c.clockHz) {k : Nat} (hk : k < 39) (ho : s.oracle.allOk (k + 2)) :
    execBegin (some c) s = conclude ((((send (false, (initSeq s.params).getD k 0) { s with
        E := { s.E with fsm := .configuring, cfg := some c, handle := true, seq := k, busy := true }
        L := { dc := ⟨.output, dcAfter s.L.dc.level (((initSeq s.params).take k).map cmd)⟩, rst := ⟨.output, .high⟩ }
        T := { bus := .allocated, dev := .attached c.clockHz 0 }
        trace := s.trace ++ (resetEvents s.waits ++ [.busInit, .attach c.clockHz 0]) ++
          sent (((initSeq s.params).take k).map cmd)
        P := (((initSeq s.params).take k).map cmd).foldl (fun p w => p.receive s.params ⟨.output, .high⟩ w)
          s.P.any.postReset
        waits := s.waits + 2
        oracle := s.oracle.drop (k + 2) }).ifOk
      (sendUntilError (((initSeq s.params).map cmd).drop (k + 1)))).onError rollBack).ifOk fun s =>
        .returned .ok (setDisplayOn true (setFsm .ready s))) := by
  rw [Nat.add_comm k 2] at ho ⊢
  have hr := ((allOk_add _ 2 k).1 ho).2
  have hl : (((initSeq s.params).map cmd).take k).length = k := by simp; omega
  rw [begin_ok hf hb hc (ho 0 (by omega)) (ho 1 (by omega)), sendInitSeq]
  rw [sendUntilError_split _ k _ (by simpa using hk) (by exact hr)]
  rw [sendAll_allOk _ _ (by rw [hl]; exact hr) rfl, ifOk_ok, hl]
  congr 4
  have hg : ((initSeq s.params).map cmd)[k]'(by simpa using hk) = (false, (initSeq s.params).getD k 0) := by
    rw [List.getD_eq_getElem _ _ (by simpa using hk)]
    simp [cmd]
  simp only [hg, List.map_take, drop_add, Nat.zero_add]

/-- SET_PIXEL with every byte sent. -/
theorem exec_setPixel {s : State} (x y : Byte) (color : Color) (hr : s.readyIdle) (hdc : s.L.dc.dir = .output)
    (ho : s.oracle.allOk 8) :
   exec (.setPixel x y color) s = .next { s with
        E := { s.E with
          latch := { s.E.latch with x := x.toNat, y := y.toNat, color := color }, status := .ok, seq := 0 }
        L := { s.L with dc := ⟨.output, .high⟩ }
        trace := s.trace ++ sent (setPixelBytes x y color)
        P := (setPixelBytes x y color).foldl (fun p w => p.receive s.params s.L.rst w) s.P
        oracle := s.oracle.drop 8 } := by
  show execSetPixel x y color s = _
  rw [execSetPixel, whenReady_of_ready hr, sendAll_allOk _ _ (by simpa [setPixelBytes] using ho) (by exact hdc)]
  simp only [conclude_returned, finish]
  simp [dcAfter, setPixelBytes, cmd, dat, hr.2, start, setLatch, hdc]

end Sys2Proof.Machine
end

