-- ==== Sys2Proof/Laws/Path.lean ====
section
/-! SUPPORT. What an operation or a transport primitive can do,
    said once: a path of the moves TRANSPORT and the engine
make. Every claim about all of them goes by induction on the path. -/

namespace Sys2Proof.Machine

/-- What an operation or a primitive does, as a path of the moves TRANSPORT and the engine make: the engine's own
registers change, a mode-select level is driven and left, a byte is sent, a byte fails, the reset pulse, the pulse and
then the bus set-up, the device and roll-back requests. -/
inductive Path : State → State → Prop where
  | refl (s : State) : Path s s
  | quiet {s t : State} (u : State) (h : Path s t) (hL : u.L = t.L) (hT : u.T = t.T) (ht : u.trace = t.trace)
      (hP : u.P = t.P) (hi : u.inbox = t.inbox) (hw : u.wireIn = t.wireIn) (hk : u.params = t.params) : Path s u
  | drive {s t : State} (m : Bool) (h : Path s t) : Path s (setLine .dc m t)
  | sent {s t : State} (w : WireByte) (h : Path s t) : Path s (sentState w t)
  | failed {s t : State} (w : WireByte) (f : TransportFailure) (h : Path s t) : Path s (failedState w f t)
  | pulse {s t : State} (h : Path s t) : Path s (resetPanel t)
  | busInit {s t : State} (h : Path s t) : Path s (emit .busInit (takeAnswer (resetPanel t)))
  | attach {s t : State} (hz mode : Nat) (h : Path s t) : Path s (emit (.attach hz mode) t)
  | detach {s t : State} (h : Path s t) : Path s (emit .detach t)
  | busFree {s t : State} (h : Path s t) : Path s (emit .busFree t)

theorem Path.trans {s t u : State} (h : Path s t) (h' : Path t u) : Path s u := by
  induction h' with
  | refl => exact h
  | quiet u _ hL hT ht hP hi hw hk ih => exact .quiet u ih hL hT ht hP hi hw hk
  | drive m _ ih => exact .drive m ih
  | sent w _ ih => exact .sent w ih
  | failed w f _ ih => exact .failed w f ih
  | pulse _ ih => exact .pulse ih
  | busInit _ ih => exact .busInit ih
  | attach hz mode _ ih => exact .attach hz mode ih
  | detach _ ih => exact .detach ih
  | busFree _ ih => exact .busFree ih

/-- A run that ends in a state on a path from s. -/
def Run.On (s : State) : Run → Prop
  | .hung t => Path s t
  | .returned _ t => Path s t

theorem Path.take (s : State) : Path s (takeAnswer s) := .quiet _ (.refl s) rfl rfl rfl rfl rfl rfl rfl
theorem Path.engine (s : State) (e : Engine) : Path s { s with E := e } := .quiet _ (.refl s)
    rfl rfl rfl rfl rfl rfl rfl

theorem setDisplayOn_path (v : Bool) (s : State) : Path s (setDisplayOn v s) := .engine s _

theorem Run.On.prepend {s t : State} {run : Run} (h : Path s t) (hr : run.On t) : run.On s := by
  cases run <;> exact h.trans hr

theorem send_on (w : WireByte) (s : State) : (send w s).On s := by
  cases h : s.oracle.next with
  | ok => rw [send_ok h]; exact .sent w (.refl s)
  | err f => rw [send_err h]; exact .failed w f (.refl s)
  | never => rw [send_never h]; exact .drive w.1 (.refl s)

theorem both_on {s : State} {run : Run} {f : State → Run} (h : run.On s) (hf : ∀ t, (f t).On t) :
    (run.both f).On s := by
  cases run with
  | hung t => exact h
  | returned r t =>
    have := (hf t).prepend h
    rw [both_returned]
    revert this
    cases f t <;> exact id

theorem ifOk_on {s : State} {run : Run} {f : State → Run} (h : run.On s) (hf : ∀ t, (f t).On t) :
    (run.ifOk f).On s := by
  cases run with
  | hung t => exact h
  | returned r t =>
    cases r with
    | ok => exact (hf t).prepend h
    | err e => exact h

theorem thenDo_on {s : State} {run : Run} {f : State → State} (h : run.On s) (hf : ∀ t, Path t (f t)) :
    (run.thenDo f).On s := by
  cases run with
  | hung t => exact h
  | returned r t => exact h.trans (hf t)

theorem onError_on {s : State} {run : Run} {f : State → State} (h : run.On s) (hf : ∀ t, Path t (f t)) :
    (run.onError f).On s := by
  cases run with
  | hung t => exact h
  | returned r t =>
    cases r with
    | ok => exact h
    | err e => exact h.trans (hf t)

theorem sendAll_on (bytes : List WireByte) : ∀ s, (sendAll bytes s).On s := by
  induction bytes with
  | nil => exact .refl
  | cons w rest ih => exact fun s => both_on (send_on w s) ih

theorem sendUntilError_on (bytes : List WireByte) : ∀ s, (sendUntilError bytes s).On s := by
  induction bytes with
  | nil => exact .refl
  | cons w rest ih => exact fun s => ifOk_on (send_on w s) ih

theorem configure_on (cfg : Option DisplayConfig) (s : State) : (configure cfg s).On s := by
  cases hv : validConfig cfg with
  | none => unfold configure; rw [hv]; exact .refl s
  | some c =>
    obtain ⟨rfl, hc⟩ := validConfig_eq_some hv
    rw [configure_some hc]
    split
    · exact .pulse (.refl s)
    · exact .quiet _ (.pulse (.refl s)) rfl rfl rfl rfl rfl rfl rfl
    · split
      · exact .busInit (.refl s)
      · exact .busFree (.quiet (takeAnswer _) (.busInit (.refl s)) rfl rfl rfl rfl rfl rfl rfl)
      · exact .attach _ _ (.quiet (takeAnswer _) (.busInit (.refl s)) rfl rfl rfl rfl rfl rfl rfl)

theorem drawCharBody_on (x y id : Nat) (color : Color) (s : State) : (drawCharBody x y id color s).On s := by
  unfold drawCharBody
  split
  · split <;> exact .refl s
  · exact sendAll_on _ s

theorem drawText_on (color : Color) (text : List CodePoint) : ∀ s, (drawText color text s).On s := by
  induction text with
  | nil => exact .refl
  | cons ch rest ih =>
    intro s
    unfold drawText
    split
    · exact (ih _).prepend (.engine s _)
    · exact both_on (thenDo_on ((drawCharBody_on _ _ _ _ _).prepend (.engine s _)) fun t => .engine t _) ih

theorem beginBody_on (cfg : Option DisplayConfig) (s : State) : (beginBody cfg s).On s := by
  unfold beginBody
  cases validConfig cfg with
  | none => exact .refl s
  | some c =>
    refine ifOk_on (ifOk_on (onError_on ((configure_on _ _).prepend (.engine s _)) fun t => .engine t _) fun t => ?_)
      fun t => .engine t _
    refine Run.On.prepend (t := setHandle true t) (.engine t _) (onError_on (sendUntilError_on _ _) fun u => ?_)
    exact .quiet (rollBack u) (.busFree (.detach (.refl u))) rfl rfl rfl rfl rfl rfl rfl

theorem conclude_path {s t : State} {run : Run} (h : run.On s) (hn : conclude run = .next t) : Path s t := by
  cases run <;> cases hn <;> exact h.trans (.engine _ _)

theorem concludeCall_path {s t : State} {run : Run} (h : run.On s) (hn : concludeCall run = .next t) : Path s t := by
  cases run <;> cases hn <;> exact .quiet _ h rfl rfl rfl rfl rfl rfl rfl

theorem whenReady_path {s t : State} {body : State → Run} (h : ∀ u, (body u).On u)
    (hn : whenReady body s = .next t) : Path s t :=
  conclude_path ((h _).prepend (.engine s _)) (whenReady_next hn).2

theorem execBegin_path {s t : State} {cfg : Option DisplayConfig} (hn : execBegin cfg s = .next t) : Path s t := by
  unfold execBegin at hn
  split at hn
  · cases hn
  · split at hn
    · exact conclude_path ((beginBody_on _ _).prepend (.engine s _)) hn
    · cases hn

theorem execConfigure_path {s t : State} {cfg : Option DisplayConfig} (hn : execConfigure cfg s = .next t) :
    Path s t := by
  unfold execConfigure at hn
  split at hn
  · cases hn
  · split at hn
    · cases hn
    · exact concludeCall_path (configure_on _ _) hn

theorem execSendCommand_path {s t : State} {b : Byte} (hn : execSendCommand b s = .next t) : Path s t := by
  unfold execSendCommand at hn
  split at hn
  · cases hn
  · split at hn
    · exact concludeCall_path (send_on _ _) hn
    · cases hn

theorem execSendData_path {s t : State} {b : Byte} (hn : execSendData b s = .next t) : Path s t := by
  unfold execSendData at hn
  split at hn
  · cases hn
  · split at hn
    · exact concludeCall_path (send_on _ _) hn
    · cases hn

/-- A wire instruction is bytes that arrive at PANEL. -/
theorem exec_wire {i : Instr} (h : i.level = .wire) (s : State) : ∃ bytes, encode i = .wire bytes ∧
    exec i s = .next (arrive bytes s) := by
  cases i <;> first | exact ⟨_, rfl, rfl⟩ | cases h

/-- An operation or a primitive that answers next makes a path. -/
theorem exec_path {i : Instr} {s t : State} (h : i.level ≠ .wire) (hn : exec i s = .next t) : Path s t := by
  cases i
  case begin cfg => exact execBegin_path hn
  case turnOn => exact whenReady_path (fun u => thenDo_on (sendAll_on _ u) fun v => setDisplayOn_path _ v) hn
  case turnOff => exact whenReady_path (fun u => thenDo_on (sendAll_on _ u) fun v => setDisplayOn_path _ v) hn
  case clearWindow => exact whenReady_path (sendAll_on _) hn
  case setPixel x y c => exact whenReady_path (fun u => (sendAll_on _ _).prepend (.engine u _)) hn
  case drawChar x y id c => exact whenReady_path (fun u => (drawCharBody_on _ _ _ _ _).prepend (.engine u _)) hn
  case drawString x y t c => exact whenReady_path (fun u => (drawText_on _ _ _).prepend (.engine u _)) hn
  case configure cfg => exact execConfigure_path hn
  case sendCommand b => exact execSendCommand_path hn
  case sendData b => exact execSendData_path hn
  all_goals exact absurd rfl h

/-- A host operation but BEGIN is a body run in `Ready`. -/
theorem exec_host {i : Instr} (hl : i.level = .host) (hb : ∀ c, i ≠ .begin c) :
    ∃ body, ∀ s, exec i s = whenReady body s := by
  cases i
  case begin c => exact absurd rfl (hb c)
  case turnOn => exact ⟨fun s => (sendAll turnOnBytes s).thenDo (setDisplayOn true), fun _ => rfl⟩
  case turnOff => exact ⟨fun s => (sendAll turnOffBytes s).thenDo (setDisplayOn false), fun _ => rfl⟩
  case clearWindow => exact ⟨sendAll clearWindowBytes, fun _ => rfl⟩
  case setPixel x y c => exact ⟨fun s => sendAll (setPixelBytes x y c) (setLatch _ s), fun _ => rfl⟩
  case drawChar x y id c => exact ⟨fun s => drawCharBody x y id c (setLatch _ s), fun _ => rfl⟩
  case drawString x y t c => exact ⟨fun s => drawText c t (setLatch _ s), fun _ => rfl⟩
  all_goals cases hl

end Sys2Proof.Machine
end

