-- ==== Sys2Proof/Laws/PerInstr.lean ====
section
/-! SUPPORT. The family EncodingShape of LAWS.json: what the encoding of an instruction looks like, one lemma per
constructor. -/

namespace Sys2Proof.Laws.EncodingShape

/-- The code of an instruction: a command of the wire has its opcode first, as many operand bytes as the opcode takes,
every byte with mode-select low, and decodes to the instruction (30_encoding.md R91, R92, R96, R104); the pixel data
write is two bytes with mode-select high (R93); a request carries a code below 0111 or from 1000 to 1010, and decodes to
the instruction (R99, R100). -/
def Statement (i : Instr) : Prop :=
  match encode i with
  | .wire bytes =>
    i.level = .wire ∧ decodeWire bytes = .ok (i, []) ∧
      ((∃ op args, bytes = commandBytes op args ∧ operandCount op = some args.length) ∨
        ∃ h l, bytes = [(true, h), (true, l)])
  | .request r =>
    i.level ≠ .wire ∧ (r.op.toNat < 7 ∨ 8 ≤ r.op.toNat ∧ r.op.toNat ≤ 10) ∧
      decodeRequest r = .ok i

theorem of_command {i : Instr} {op : Byte} {args : List Byte} (hl : i.level = .wire)
    (he : encode i = .wire (commandBytes op args)) (ho : operandCount op = some args.length)
    (hc : commandOf op args = some i) : Statement i := by
  unfold Statement
  rw [he]
  exact ⟨hl, by simpa using decodeWire_command [] ho hc, .inl ⟨op, args, rfl, ho⟩⟩

theorem setColumnAddress (a b : Byte) : Statement (.setColumnAddress a b) := of_command rfl rfl rfl rfl

theorem clearWindowCmd (a b c d : Byte) : Statement (.clearWindowCmd a b c d) := of_command rfl rfl rfl rfl

theorem fillEnable (a : Byte) : Statement (.fillEnable a) := of_command rfl rfl rfl rfl

theorem setRowAddress (a b : Byte) : Statement (.setRowAddress a b) := of_command rfl rfl rfl rfl

theorem setContrastA (a : Byte) : Statement (.setContrastA a) := of_command rfl rfl rfl rfl

theorem setContrastB (a : Byte) : Statement (.setContrastB a) := of_command rfl rfl rfl rfl

theorem setContrastC (a : Byte) : Statement (.setContrastC a) := of_command rfl rfl rfl rfl

theorem setMasterCurrent (a : Byte) : Statement (.setMasterCurrent a) := of_command rfl rfl rfl rfl

theorem setPrechargeA (a : Byte) : Statement (.setPrechargeA a) := of_command rfl rfl rfl rfl

theorem setPrechargeB (a : Byte) : Statement (.setPrechargeB a) := of_command rfl rfl rfl rfl

theorem setPrechargeC (a : Byte) : Statement (.setPrechargeC a) := of_command rfl rfl rfl rfl

theorem setRemap (a : Byte) : Statement (.setRemap a) := of_command rfl rfl rfl rfl

theorem setStartLine (a : Byte) : Statement (.setStartLine a) := of_command rfl rfl rfl rfl

theorem setDisplayOffset (a : Byte) : Statement (.setDisplayOffset a) := of_command rfl rfl rfl rfl

theorem normalDisplay : Statement (.normalDisplay) := of_command rfl rfl rfl rfl

theorem setMultiplex (a : Byte) : Statement (.setMultiplex a) := of_command rfl rfl rfl rfl

theorem setMasterConfig (a : Byte) : Statement (.setMasterConfig a) := of_command rfl rfl rfl rfl

theorem displayOff : Statement (.displayOff) := of_command rfl rfl rfl rfl

theorem displayOn : Statement (.displayOn) := of_command rfl rfl rfl rfl

theorem setPowerMode (a : Byte) : Statement (.setPowerMode a) := of_command rfl rfl rfl rfl

theorem setPrecharge (a : Byte) : Statement (.setPrecharge a) := of_command rfl rfl rfl rfl

theorem setClockDiv (a : Byte) : Statement (.setClockDiv a) := of_command rfl rfl rfl rfl

theorem setPrechargeLevel (a : Byte) : Statement (.setPrechargeLevel a) := of_command rfl rfl rfl rfl

theorem setVcomh (a : Byte) : Statement (.setVcomh a) := of_command rfl rfl rfl rfl

theorem pix (h l : Byte) : Statement (.pix h l) := ⟨rfl, rfl, .inr ⟨h, l, rfl⟩⟩

theorem begin (cfg : Option DisplayConfig) : Statement (.begin cfg) :=
  ⟨by simp [Instr.level], by simp, rfl⟩

theorem turnOn : Statement .turnOn := ⟨by decide, by decide, rfl⟩

theorem turnOff : Statement .turnOff := ⟨by decide, by decide, rfl⟩

theorem clearWindow : Statement .clearWindow := ⟨by decide, by decide, rfl⟩

theorem setPixel (x y : Byte) (color : Color) : Statement (.setPixel x y color) :=
  ⟨by simp [Instr.level], by simp, rfl⟩

theorem drawChar (x y charId : Nat) (color : Color) : Statement (.drawChar x y charId color) :=
  ⟨by simp [Instr.level], by simp, rfl⟩

theorem drawString (x y : Nat) (text : List CodePoint) (color : Color) : Statement (.drawString x y text color) :=
  ⟨by simp [Instr.level], by simp, rfl⟩

theorem configure (cfg : Option DisplayConfig) : Statement (.configure cfg) :=
  ⟨by simp [Instr.level], by simp, rfl⟩

theorem sendCommand (b : Byte) : Statement (.sendCommand b) := ⟨by simp [Instr.level], by simp, rfl⟩

theorem sendData (b : Byte) : Statement (.sendData b) := ⟨by simp [Instr.level], by simp, rfl⟩

end Sys2Proof.Laws.EncodingShape
end

