-- ==== Sys2Proof/Laws/Rasterizer.lean ====
section
/-! SUPPORT. What DRAW_CHAR's body and DRAW_STRING's loop can do, said once: answered, hung, and with every byte
sent. -/

namespace Sys2Proof.Machine

theorem allAnswered_add (o : Oracle) (m n : Nat) : o.allAnswered (m + n) ↔ o.allAnswered m ∧
    (o.drop m).allAnswered n := by
  induction m generalizing o with
  | zero => simp [Oracle.allAnswered]
  | succ m ih => rw [Nat.succ_add, allAnswered_succ, ih, allAnswered_succ, drop_succ, and_assoc]

theorem firstError_add (o : Oracle) (m n : Nat) (h : o.allAnswered m) : o.firstError (m + n)
    = firstError (o.firstError m) ((o.drop m).firstError n) := by
  induction m generalizing o with
  | zero => simp [Oracle.firstError]
  | succ m ih =>
    obtain ⟨h0, hr⟩ := (allAnswered_succ o m).1 h
    rw [Nat.succ_add]
    cases hn : o.next with
    | never => exact absurd hn h0
    | ok => simpa [Oracle.firstError, hn] using ih o.rest hr
    | err t => simp [Oracle.firstError, hn]

theorem attempts_append (as bs : List WireByte) (o : Oracle) (h : o.allAnswered as.length) :
    attempts o (as ++ bs) = attempts o as ++ attempts (o.drop as.length) bs := by
  induction as generalizing o with
  | nil => rfl
  | cons w rest ih =>
    obtain ⟨h0, hr⟩ := (allAnswered_succ o rest.length).1 h
    have := ih o.rest hr
    cases hn : o.next with
    | never => exact absurd hn h0
    | ok => simp [attempts, hn, this]
    | err t => simp [attempts, hn, this]

theorem attempts_hung (as bs : List WireByte) (o : Oracle) (h : ¬ o.allAnswered as.length) :
    attempts o (as ++ bs) = attempts o as := by
  induction as generalizing o with
  | nil => exact absurd (fun k hk => by cases hk) h
  | cons w rest ih =>
    cases hn : o.next with
    | never => simp [attempts, hn]
    | ok =>
      have := ih o.rest (fun hq => h ((allAnswered_succ o rest.length).2 ⟨by rw [hn]; simp, hq⟩))
      simp [attempts, hn, this]
    | err t =>
      have := ih o.rest (fun hq => h ((allAnswered_succ o rest.length).2 ⟨by rw [hn]; simp, hq⟩))
      simp [attempts, hn, this]

/-- Best-effort sending one of whose requests is never answered. -/
theorem sendAll_never (bytes : List WireByte) (s : State) (h : ¬ s.oracle.allAnswered bytes.length) :
    ∃ s' n, sendAll bytes s = .hung s' ∧ s'.trace = s.trace ++ attempts s.oracle bytes ∧ s'.E = { s.E with seq :=
        s.E.seq + n } := by
  induction bytes generalizing s with
  | nil => exact absurd (fun k hk => by cases hk) h
  | cons w rest ih =>
    cases hn : s.oracle.next with
    | never =>
      refine ⟨setLine .dc w.1 s, 0, by rw [sendAll_cons, send_never hn]; rfl, by simp [attempts, hn, setLine], rfl⟩
    | ok =>
      obtain ⟨s', n, a, b, c⟩ := ih (sentState w s)
          (fun hq => h ((allAnswered_succ s.oracle rest.length).2 ⟨by rw [hn]; simp, hq⟩))
      refine ⟨s', 1 + n, by rw [sendAll_cons, send_ok hn, both_returned, a], ?_, ?_⟩
      · have ho : (sentState w s).oracle = s.oracle.rest := rfl
        rw [b, sentState_trace, ho]; simp [attempts, hn]
      · rw [c, (sentState_frame w s).E]; simp [Nat.add_assoc]
    | err t =>
      obtain ⟨s', n, a, b, c⟩ := ih (failedState w t s)
          (fun hq => h ((allAnswered_succ s.oracle rest.length).2 ⟨by rw [hn]; simp, hq⟩))
      refine ⟨s', 1 + n, by rw [sendAll_cons, send_err hn, both_returned, a], ?_, ?_⟩
      · have ho : (failedState w t s).oracle = s.oracle.rest := rfl
        rw [b, failedState_trace, ho]; simp [attempts, hn]
      · rw [c, (failedState_frame w t s).E]; simp [Nat.add_assoc]

/-- A run of sends, the operand latches too changed. -/
structure DrawFrame (s s' : State) (n : Nat) : Prop where
  E : ∃ l, s'.E = { s.E with latch := l, seq := s.E.seq + n }
  T : s'.T = s.T
  rst : s'.L.rst = s.L.rst
  dcDir : s'.L.dc.dir = s.L.dc.dir
  waits : s'.waits = s.waits
  oracle : s'.oracle = s.oracle.drop n
  ret : s'.ret = s.ret
  inbox : s'.inbox = s.inbox
  wireIn : s'.wireIn = s.wireIn
  params : s'.params = s.params

theorem SendFrame.draw {s s' : State} {n : Nat} (h : SendFrame s s' n) : DrawFrame s s' n :=
  ⟨⟨s.E.latch, h.E⟩, h.T, h.rst, h.dcDir, h.waits, h.oracle, h.ret, h.inbox, h.wireIn, h.params⟩

theorem DrawFrame.trans {s s' s'' : State} {m n : Nat} (h : DrawFrame s s' m) (h' : DrawFrame s' s'' n) :
    DrawFrame s s'' (m + n) := by
  obtain ⟨l, hl⟩ := h.E
  obtain ⟨l', hl'⟩ := h'.E
  exact ⟨⟨l', by rw [hl', hl]; simp [Nat.add_assoc]⟩, h'.T.trans h.T, h'.rst.trans h.rst, h'.dcDir.trans h.dcDir,
      h'.waits.trans h.waits, by rw [h'.oracle, h.oracle, drop_add], h'.ret.trans h.ret, h'.inbox.trans h.inbox,
      h'.wireIn.trans h.wireIn, h'.params.trans h.params⟩

theorem setLatch_frame (f : Latch → Latch) (s : State) : DrawFrame s (setLatch f s) 0 :=
  ⟨⟨_, rfl⟩, rfl, rfl, rfl, rfl, rfl, rfl, rfl, rfl, rfl⟩

/-- DRAW_STRING with every request answered. -/
theorem drawText_answered (color : Color) (text : List CodePoint) : ∀ s : State,
    s.oracle.allAnswered (drawStringBytes s.params s.E.latch.curX s.E.latch.curY color text).length →
    ∃ s', drawText color text s = .returned (s.oracle.firstError (drawStringBytes s.params s.E.latch.curX
        s.E.latch.curY color text).length) s' ∧
      s'.trace = s.trace ++ attempts s.oracle (drawStringBytes s.params s.E.latch.curX s.E.latch.curY color text) ∧
      DrawFrame s s' (drawStringBytes s.params s.E.latch.curX s.E.latch.curY color text).length := by
  induction text with
  | nil => exact fun s _ => ⟨s, rfl, by simp [drawStringBytes, attempts], (SendFrame.refl s).draw⟩
  | cons ch rest ih =>
    intro s h
    unfold drawText
    unfold drawStringBytes at h ⊢
    cases hc : charMap ch with
    | none =>
      simp only [hc] at h ⊢
      obtain ⟨s', a, b, c⟩ := ih (skipCharacter s) h
      refine ⟨s', a, b, ?_⟩
      have := (setLatch_frame (fun l => { l with textPos := l.textPos + 1 }) s).trans c
      rw [Nat.zero_add] at this
      exact this
    | some id =>
      simp only [hc, List.length_append] at h ⊢
      obtain ⟨h1, h2⟩ := (allAnswered_add _ _ _).1 h
      rw [drawCharBody_valid (charMap_lt hc)]
      obtain ⟨u, a, b, c⟩ := sendAll_answered (drawCharBytes s.params s.E.latch.curX s.E.latch.curY id color)
          (setLatch (fun l => { l with charId := id }) s) h1
      simp only [setLatch_params] at *
      rw [a]
      have el : (advanceCursor u).E.latch.curX = s.E.latch.curX + Config.advance ∧
          (advanceCursor u).E.latch.curY = s.E.latch.curY := by
        simp only [advanceCursor, setLatch_E, c.E]; exact ⟨trivial, trivial⟩
      have eo : (advanceCursor u).oracle = s.oracle.drop (drawCharBytes s.params s.E.latch.curX s.E.latch.curY id
          color).length := c.oracle
      have ep : (advanceCursor u).params = s.params := c.params
      obtain ⟨v, a', b', c'⟩ := ih (advanceCursor u) (by rw [eo, ep, el.1, el.2]; exact h2)
      rw [ep, el.1, el.2] at a' b' c'
      rw [eo] at a' b'
      refine ⟨v, ?_, ?_, ?_⟩
      · rw [thenDo_returned, both_returned, a', firstError_add _ _ _ h1]; rfl
      · rw [b', attempts_append _ _ _ h1]
        show u.trace ++ _ = _
        rw [b]; simp
      · have := ((setLatch_frame (fun l => { l with charId := id })
            s).trans c.draw).trans ((setLatch_frame (fun l => { l with curX := l.curX + Config.advance, textPos :=
            l.textPos + 1 }) u).trans c')
        rw [Nat.zero_add, Nat.zero_add] at this
        exact this

/-- DRAW_STRING one of whose requests is never answered. -/
theorem drawText_never (color : Color) (text : List CodePoint) : ∀ s : State,
    ¬ s.oracle.allAnswered (drawStringBytes s.params s.E.latch.curX s.E.latch.curY color text).length →
    ∃ s' n l, drawText color text s = .hung s' ∧
      s'.trace = s.trace ++ attempts s.oracle (drawStringBytes s.params s.E.latch.curX s.E.latch.curY color text) ∧
      s'.E = { s.E with latch := l, seq := s.E.seq + n } := by
  induction text with
  | nil => exact fun s h => absurd (fun k hk => by cases hk) h
  | cons ch rest ih =>
    intro s h
    unfold drawText
    unfold drawStringBytes at h ⊢
    cases hc : charMap ch with
    | none =>
      simp only [hc] at h ⊢
      obtain ⟨s', n, l, a, b, c⟩ := ih (skipCharacter s) h
      exact ⟨s', n, l, a, b, by rw [c]; rfl⟩
    | some id =>
      simp only [hc, List.length_append] at h ⊢
      rw [drawCharBody_valid (charMap_lt hc)]
      by_cases h1 : s.oracle.allAnswered (drawCharBytes s.params s.E.latch.curX s.E.latch.curY id color).length
      · have h2 : ¬ _ := fun hq => h ((allAnswered_add _ _ _).2 ⟨h1, hq⟩)
        obtain ⟨u, a, b, c⟩ := sendAll_answered (drawCharBytes s.params s.E.latch.curX s.E.latch.curY id color)
            (setLatch (fun l => { l with charId := id }) s) h1
        simp only [setLatch_params] at *
        rw [a]
        have el : (advanceCursor u).E.latch.curX = s.E.latch.curX + Config.advance ∧
            (advanceCursor u).E.latch.curY = s.E.latch.curY := by
          simp only [advanceCursor, setLatch_E, c.E]; exact ⟨trivial, trivial⟩
        have eo : (advanceCursor u).oracle = s.oracle.drop (drawCharBytes s.params s.E.latch.curX s.E.latch.curY id
            color).length := c.oracle
        have ep : (advanceCursor u).params = s.params := c.params
        obtain ⟨v, n, l, a', b', c'⟩ := ih (advanceCursor u) (by rw [eo, ep, el.1, el.2]; exact h2)
        rw [ep, el.1, el.2, eo] at b'
        refine ⟨v, (drawCharBytes s.params s.E.latch.curX s.E.latch.curY id color).length + n, l, ?_, ?_, ?_⟩
        · rw [thenDo_returned, both_returned, a']
        · rw [b', attempts_append _ _ _ h1]
          show u.trace ++ _ = _
          rw [b]; simp
        · rw [c']; simp [advanceCursor, c.E, Nat.add_assoc]
      · obtain ⟨u, n, a, b, c⟩ := sendAll_never (drawCharBytes s.params s.E.latch.curX s.E.latch.curY id color)
            (setLatch (fun l => { l with charId := id }) s) h1
        simp only [setLatch_params] at *
        rw [a]
        refine ⟨u, n, { s.E.latch with charId := id }, rfl, ?_, ?_⟩
        · rw [b, attempts_hung _ _ _ h1]; simp
        · rw [c, setLatch_E]
theorem dcAfter_append (l : LineLevel) (a b : List WireByte) : dcAfter l (a ++ b) = dcAfter (dcAfter l a) b :=
    by simp [dcAfter]

/-- DRAW_STRING with every byte sent. -/
theorem drawText_allOk (color : Color) (text : List CodePoint) : ∀ s : State,
    s.oracle.allOk (drawStringBytes s.params s.E.latch.curX s.E.latch.curY color text).length → s.L.dc.dir = .output →
    ∃ l, l.curX = s.E.latch.curX + 7 * (text.filter fun ch => (charMap ch).isSome).length ∧ l.curY = s.E.latch.curY ∧
     drawText color text s = .returned .ok
      { s with
        E := { s.E with
          latch := l
          seq := s.E.seq + (drawStringBytes s.params s.E.latch.curX s.E.latch.curY color text).length }
        L := { s.L with dc := { s.L.dc with
          level := dcAfter s.L.dc.level (drawStringBytes s.params s.E.latch.curX s.E.latch.curY color text) } }
        trace := s.trace ++ sent (drawStringBytes s.params s.E.latch.curX s.E.latch.curY color text)
        P := (drawStringBytes s.params s.E.latch.curX s.E.latch.curY color text).foldl
          (fun p w => p.receive s.params s.L.rst w) s.P
        oracle := s.oracle.drop (drawStringBytes s.params s.E.latch.curX s.E.latch.curY color text).length } := by
  induction text with
  | nil =>
    intro s _ _
    refine ⟨s.E.latch, by simp, rfl, ?_⟩
    simp [drawText, drawStringBytes, sent, dcAfter]
  | cons ch rest ih =>
    intro s h hd
    unfold drawText
    unfold drawStringBytes at h ⊢
    cases hc : charMap ch with
    | none =>
      simp only [hc] at h ⊢
      obtain ⟨l, a, b, c⟩ := ih (skipCharacter s) h hd
      refine ⟨l, ?_, b, c⟩
      rw [a]; simp [hc, skipCharacter]
    | some id =>
      simp only [hc, List.length_append] at h ⊢
      obtain ⟨h1, h2⟩ := (allOk_add _ _ _).1 h
      rw [drawCharBody_valid (charMap_lt hc)]
      simp only [setLatch_params]
      rw [sendAll_allOk (drawCharBytes s.params s.E.latch.curX s.E.latch.curY id color)
          (setLatch (fun l => { l with charId := id }) s) h1 hd]
      simp only [setLatch_params, thenDo_returned, both_returned]
      generalize hu : advanceCursor _ = u
      have el : u.E.latch.curX = s.E.latch.curX + Config.advance ∧ u.E.latch.curY = s.E.latch.curY :=
          by rw [← hu]; exact ⟨rfl, rfl⟩
      have eo : u.oracle = s.oracle.drop (drawCharBytes s.params s.E.latch.curX s.E.latch.curY id color).length :=
          by rw [← hu]; rfl
      have ep : u.params = s.params := by rw [← hu]; rfl
      have ed : u.L.dc.dir = .output := by rw [← hu]; exact hd
      obtain ⟨l, a, b, c⟩ := ih u (by rw [ep, el.1, el.2, eo]; exact h2) ed
      rw [c]
      rw [ep, el.1, el.2]
      refine ⟨l, ?_, b.trans el.2, ?_⟩
      · rw [a, el.1]; simp [hc, Config.advance]; omega
      · rw [eo, ← hu]
        simp [advanceCursor, setLatch, drop_add, sent, List.foldl_append, dcAfter_append, firstError, Nat.add_assoc]

end Sys2Proof.Machine
end

