-- ==== Sys2Proof/Laws/Step.lean ====
section
/-! SUPPORT. What a step can be, said once: the instruction the fetch takes, or something it takes that is no
instruction. -/

namespace Sys2Proof.Machine

theorem step_next {s t : State} (h : step s = .next t) :
    (∃ i s', fetch s = .run i s' ∧ exec i s' = .next t) ∨ fetch s = .taken t ∨ t = s := by
  unfold step at h
  split at h
  · exact .inl ⟨_, _, ‹_›, h⟩
  · cases h; exact .inr (.inl ‹_›)
  · cases h; exact .inr (.inr rfl)
  · cases h
  · cases h

/-- What the fetch takes. -/
theorem fetch_run {s s' : State} {i : Instr} (h : fetch s = .run i s') :
    ∃ inbox wire, s' = { s with inbox := inbox, wireIn := wire } ∧ (∀ r, Input.call r ∈ inbox →
        Input.call r ∈ s.inbox) ∧
      (i.level = .transport → ∃ r, Input.call r ∈ s.inbox) := by
  unfold fetch at h
  split at h
  · unfold fetchWire at h
    split at h
    · split at h
      · rename_i hd
        cases h
        refine ⟨_, _, rfl, fun _ h => h, fun h' => ?_⟩
        rw [level_of_decodeWire hd] at h'; cases h'
      · cases h
    · cases h
  · rename_i hwi
    unfold fetchInbox at h
    split at h
    · rename_i r rest hi
      unfold fetchHost at h
      split at h
      · cases h
      · split at h
        · cases h
        · cases h
          rename_i hl
          exact ⟨rest, s.wireIn, rfl, fun r' h' => by rw [hi]; exact List.mem_cons_of_mem _ h',
              fun h' => absurd h' hl⟩
    · rename_i r rest hi
      unfold fetchCall at h
      split at h
      · cases h
      · cases h
        exact ⟨rest, s.wireIn, rfl, fun r' h' => by rw [hi]; exact List.mem_cons_of_mem _ h', fun _ => ⟨r,
            by rw [hi]; simp⟩⟩
    · cases h
    · split at h <;> cases h

theorem fetch_taken {s t : State} (h : fetch s = .taken t) :
    ∃ inbox wire p, t = { s with inbox := inbox, wireIn := wire, P := p } ∧ (∀ r, Input.call r ∈ inbox →
        Input.call r ∈ s.inbox) ∧
      (p = s.P.eraseEnd s.L.rst ∨ ∃ w, p = s.P.receive s.params s.L.rst w) := by
  unfold fetch at h
  split at h
  · unfold fetchWire at h
    split at h
    · split at h
      · cases h
      · cases h
        exact ⟨_, _, _, rfl, fun _ h => h, .inr ⟨_, rfl⟩⟩
    · cases h
      exact ⟨_, _, _, rfl, fun _ h => h, .inr ⟨_, rfl⟩⟩
  · unfold fetchInbox at h
    split at h
    · unfold fetchHost at h
      split at h
      · cases h
      · split at h <;> cases h
    · unfold fetchCall at h
      split at h <;> cases h
    · rename_i rest hi
      cases h
      exact ⟨_, s.wireIn, _, rfl, fun r' h' => by rw [hi]; exact List.mem_cons_of_mem _ h', .inl rfl⟩
    · split at h <;> cases h

end Sys2Proof.Machine
end

