-- ==== Sys2Proof/Tests/Slice0.lean ====
section
/-! SUPPORT. The model's own tests, each on one step or less, with expected results written from spec/30_encoding.md and
spec/95_test_vectors.md (the vector's id is in the docstring); and for each obligation with hypotheses a witness: a
concrete state and operands that meet them. -/

namespace Sys2Proof.Tests

open Sys2Proof Sys2Proof.Machine

/-! ## Fixtures -/

/-- GLYPH_T of 95_test_vectors.md, a made-up table. -/
def glyphT : Vector (Vector Byte 5) 15 :=
  let blank : Vector Byte 5 := #v[0x00#8, 0x00#8, 0x00#8, 0x00#8, 0x00#8]
  #v[#v[0x7F#8, 0x00#8, 0x00#8, 0x00#8, 0x00#8], blank, blank, blank, blank,
    #v[0x01#8, 0x02#8, 0x04#8, 0x08#8, 0x10#8], blank, blank, blank, blank,
    #v[0x41#8, 0x00#8, 0x00#8, 0x00#8, 0x41#8], #v[0x00#8, 0x00#8, 0x14#8, 0x00#8, 0x00#8],
    #v[0x80#8, 0x80#8, 0x80#8, 0x80#8, 0x80#8], #v[0x00#8, 0x00#8, 0x40#8, 0x00#8, 0x00#8], blank]

/-- The default parameters with GLYPH_T. -/
def paramsT : Params := { Params.default with glyph := glyphT }

/-- A configuration with `clock_hz = 10000000`. -/
def cfgT : DisplayConfig := { pinMosi := 1, pinSclk := 2, pinCs := 3, pinDc := 4, pinRst := 5, clockHz := 10000000 }

/-- A configuration that fails the check. -/
def cfgZero : DisplayConfig := { cfgT with clockHz := 0 }

/-- Power-on with GLYPH_T. -/
def powerOn : State := { State.reset with params := paramsT }

/-- PANEL as the wire vectors of 95_test_vectors.md start it, but for the pixel RAM's contents. -/
def panelW : Panel :=
  { Panel.reset with
    remap := 0x72#8
    fill := 0x01#8
    colStart := 5#8
    colEnd := 5#8
    ptrCol := 5#8
    rowStart := 6#8
    rowEnd := 6#8
    ptrRow := 6#8 }

/-- The engine in `Ready`, PANEL in step. -/
def ready : State :=
  { powerOn with
    E := { Engine.reset with fsm := .ready, cfg := some cfgT, handle := true, displayOn := true }
    L := { dc := ⟨.output, .low⟩, rst := ⟨.output, .high⟩ }
    T := { bus := .allocated, dev := .attached 10000000 0 }
    P := panelW }

/-- A state whose next transport answers are these, and Ok after them. -/
def answering (script : List Answer) (s : State) : State := { s with oracle := { script := script, after := .ok } }

/-- `ready` with another PANEL. -/
def withP (p : Panel) : State := { ready with P := p }

/-- The state after a step that goes on. -/
def next? (o : Host.Outcome State Fault Refusal) : Option State :=
  match o with
  | .next s => some s
  | .fault _ => none
  | .refused _ => none

/-- Why a step was refused. -/
def refusal? (o : Host.Outcome State Fault Refusal) : Option Refusal :=
  match o with
  | .next _ => none
  | .fault _ => none
  | .refused r => some r

/-- The events an instruction appends to an empty trace. -/
def events? (i : Instr) (s : State) : Option (List Event) := (next? (exec i s)).map (·.trace)

/-- The bytes an instruction sends from `ready`, as pairs of mode-select level and byte. -/
def bytes? (i : Instr) (s : State) : Option (List WireByte) := (events? i s).map (byteView s.L.dc.level)

/-! ## Well-formedness -/

theorem test_wf_refuses_a_text_that_is_no_code_points :
    (Instr.drawString 0 0 [0x43, 0x110000] 0#16).wf = false ∧ (Instr.drawString 0 0 [0x43, 0x10FFFF] 0#16).wf = true := by
  decide

/-! ## Decoding: one word written out for each constructor (30_encoding.md R96, R99) -/

theorem test_decode_set_column_address :
    decodeWire [(false, 0b00010101#8), (false, 0x0A#8), (false, 0x0B#8)] = .ok (.setColumnAddress 0x0A#8 0x0B#8, []) := by
  decide

theorem test_decode_clear_window_cmd :
    decodeWire [(false, 0b00100101#8), (false, 2#8), (false, 3#8), (false, 4#8), (false, 5#8)] =
      .ok (.clearWindowCmd 2#8 3#8 4#8 5#8, []) := by
  decide

theorem test_decode_fill_enable :
    decodeWire [(false, 0b00100110#8), (false, 0x01#8)] = .ok (.fillEnable 0x01#8, []) := by decide

theorem test_decode_set_row_address :
    decodeWire [(false, 0b01110101#8), (false, 0x14#8), (false, 0x15#8)] = .ok (.setRowAddress 0x14#8 0x15#8, []) := by
  decide

theorem test_decode_set_contrast_a :
    decodeWire [(false, 0b10000001#8), (false, 0x91#8)] = .ok (.setContrastA 0x91#8, []) := by decide

theorem test_decode_set_contrast_b :
    decodeWire [(false, 0b10000010#8), (false, 0x50#8)] = .ok (.setContrastB 0x50#8, []) := by decide

theorem test_decode_set_contrast_c :
    decodeWire [(false, 0b10000011#8), (false, 0x7D#8)] = .ok (.setContrastC 0x7D#8, []) := by decide

theorem test_decode_set_master_current :
    decodeWire [(false, 0b10000111#8), (false, 0x06#8)] = .ok (.setMasterCurrent 0x06#8, []) := by decide

theorem test_decode_set_precharge_a :
    decodeWire [(false, 0b10001010#8), (false, 0x64#8)] = .ok (.setPrechargeA 0x64#8, []) := by decide

theorem test_decode_set_precharge_b :
    decodeWire [(false, 0b10001011#8), (false, 0x78#8)] = .ok (.setPrechargeB 0x78#8, []) := by decide

theorem test_decode_set_precharge_c :
    decodeWire [(false, 0b10001100#8), (false, 0x65#8)] = .ok (.setPrechargeC 0x65#8, []) := by decide

theorem test_decode_set_remap :
    decodeWire [(false, 0b10100000#8), (false, 0x72#8)] = .ok (.setRemap 0x72#8, []) := by decide

theorem test_decode_set_start_line :
    decodeWire [(false, 0b10100001#8), (false, 0x00#8)] = .ok (.setStartLine 0x00#8, []) := by decide

theorem test_decode_set_display_offset :
    decodeWire [(false, 0b10100010#8), (false, 0x00#8)] = .ok (.setDisplayOffset 0x00#8, []) := by decide

theorem test_decode_normal_display : decodeWire [(false, 0b10100100#8)] = .ok (.normalDisplay, []) := by decide

theorem test_decode_set_multiplex :
    decodeWire [(false, 0b10101000#8), (false, 0x3F#8)] = .ok (.setMultiplex 0x3F#8, []) := by decide

theorem test_decode_set_master_config :
    decodeWire [(false, 0b10101101#8), (false, 0x8E#8)] = .ok (.setMasterConfig 0x8E#8, []) := by decide

theorem test_decode_display_off : decodeWire [(false, 0b10101110#8)] = .ok (.displayOff, []) := by decide

theorem test_decode_display_on : decodeWire [(false, 0b10101111#8)] = .ok (.displayOn, []) := by decide

theorem test_decode_set_power_mode :
    decodeWire [(false, 0b10110000#8), (false, 0x0B#8)] = .ok (.setPowerMode 0x0B#8, []) := by decide

theorem test_decode_set_precharge :
    decodeWire [(false, 0b10110001#8), (false, 0x31#8)] = .ok (.setPrecharge 0x31#8, []) := by decide

theorem test_decode_set_clock_div :
    decodeWire [(false, 0b10110011#8), (false, 0xF0#8)] = .ok (.setClockDiv 0xF0#8, []) := by decide

theorem test_decode_set_precharge_level :
    decodeWire [(false, 0b10111011#8), (false, 0x3A#8)] = .ok (.setPrechargeLevel 0x3A#8, []) := by decide

theorem test_decode_set_vcomh :
    decodeWire [(false, 0b10111110#8), (false, 0x3E#8)] = .ok (.setVcomh 0x3E#8, []) := by decide

/-- R93: two data bytes are a pixel, whatever they are: here two that equal opcodes. -/
theorem test_decode_pix : decodeWire [(true, 0x15#8), (true, 0x75#8)] = .ok (.pix 0x15#8 0x75#8, []) := by decide

theorem test_decode_begin : decodeRequest { op := 0b0000#4, cfg := some cfgT } = .ok (.begin (some cfgT)) := by decide

theorem test_decode_turn_on : decodeRequest { op := 0b0001#4 } = .ok .turnOn := by decide

theorem test_decode_turn_off : decodeRequest { op := 0b0010#4 } = .ok .turnOff := by decide

theorem test_decode_clear_window : decodeRequest { op := 0b0011#4 } = .ok .clearWindow := by decide

theorem test_decode_set_pixel :
    decodeRequest { op := 0b0100#4, px := 10#8, py := 20#8, color := 0xF800#16 } = .ok (.setPixel 10#8 20#8 0xF800#16) := by
  decide

theorem test_decode_draw_char :
    decodeRequest { op := 0b0101#4, x := 200, y := 10, charId := 11, color := 0x001F#16 } =
      .ok (.drawChar 200 10 11 0x001F#16) := by
  decide

theorem test_decode_draw_string :
    decodeRequest { op := 0b0110#4, x := 1, y := 2, text := [0x43, 0x3A, 0x35], color := 0x07E0#16 } =
      .ok (.drawString 1 2 [0x43, 0x3A, 0x35] 0x07E0#16) := by
  decide

theorem test_decode_configure : decodeRequest { op := 0b1000#4, cfg := some cfgT } = .ok (.configure (some cfgT)) := by
  decide

theorem test_decode_send_command : decodeRequest { op := 0b1001#4, b := 0xAF#8 } = .ok (.sendCommand 0xAF#8) := by decide

theorem test_decode_send_data : decodeRequest { op := 0b1010#4, b := 0xF8#8 } = .ok (.sendData 0xF8#8) := by decide

/-- R101, R92, 20_memory.md R67: what the wire decoder rejects. -/
theorem test_decode_rejects_by_name :
    decodeWire [(false, 0x21#8)] = .error (.unknownOpcode 0x21#8) ∧
      decodeWire [(false, 0x15#8), (false, 1#8)] = .error (.truncated 0x15#8) ∧
      decodeWire [(false, 0x81#8), (true, 1#8)] = .error (.truncated 0x81#8) ∧
      decodeWire [(true, 1#8), (false, 0xAF#8)] = .error (.halfPixel 1#8) := by
  decide

/-- R100: the unassigned request codes. -/
theorem test_decode_rejects_unassigned_codes :
    decodeRequest { op := 0b0111#4 } = .error (.unassignedCode 7#4) ∧
      decodeRequest { op := 0b1111#4 } = .error (.unassignedCode 15#4) := by
  decide

/-- Opcode-table words: the first byte on the wire is bits 7 to 0. -/
theorem test_decode_table_words :
    decodeTableWord 24 0x0B0A15 = some (.setColumnAddress 0x0A#8 0x0B#8) ∧
      decodeTableWord 40 0x3F5F000025 = some (.clearWindowCmd 0x00#8 0x00#8 0x5F#8 0x3F#8) ∧
      decodeTableWord 8 0xAE = some .displayOff ∧ decodeTableWord 16 0x00F8 = some (.pix 0xF8#8 0x00#8) ∧
      decodeTableWord 8 0x0 = some (.begin none) ∧ decodeTableWord 8 0xA = some (.sendData 0#8) ∧
      decodeTableWord 8 0x7 = none ∧ decodeTableWord 8 0x21 = none := by
  decide

/-- 42_rasterizer.md R172, and an element that is no code point: it decodes, and CHARMAP of it is free. -/
theorem test_text_elements :
    charMap 0xB0 = some 12 ∧ charMap 0x63 = none ∧ charMap 0x10FFFF = none ∧
      charMap 0x110000 = (Config.freeGlyphId 0x110000).map Fin.val ∧
      decodeRequest { op := 6#4, text := [0x110000] } = .ok (.drawString 0 0 [0x110000] 0x0000#16) :=
  ⟨by decide, by decide, by decide, rfl, by decide⟩

/-- 60_exceptions.md R236: after a hang a transport primitive is refused too. -/
theorem test_primitive_refused_while_busy :
    let s : State := { ready with E := { ready.E with busy := true } }
    refusal? (exec (.sendCommand 0xAF#8) s) = some .busy ∧ refusal? (exec (.configure (some cfgT)) s) = some .busy := by
  decide

/-! ## The step from reset on a word placed at the fetch -/

theorem test_step_runs_a_placed_command :
    (next? (step (State.reset.withFetchWord 8 0xAF))).map (·.wireIn) = some [] := by decide

/-- V-E2: BEGIN without a configuration, from power-on. -/
theorem test_step_runs_a_placed_request :
    (next? (step (State.reset.withFetchWord 8 0x0))).map (·.E.status) = some (.err .configError) := by decide

/-- V-T6: CONFIGURE without a configuration. -/
theorem test_step_runs_a_placed_primitive :
    (next? (step (State.reset.withFetchWord 8 0x8))).map (·.ret) = some (some (.err .configError)) := by decide

/-! ## Transport (V-T1 to V-T11) -/

/-- V-T2, V-T3: the level is driven before every byte. -/
theorem test_send_drives_the_level :
    events? (.sendCommand 0xAE#8) ready = some [.level .dc false, .tx 0xAE#8] ∧
      events? (.sendData 0xF8#8) ready = some [.level .dc true, .tx 0xF8#8] := by
  decide

/-- V-T4. -/
theorem test_send_data_fails :
    (next? (exec (.sendData 0x00#8) (answering [.err 7] ready))).map (fun t => (t.trace, t.ret, t.L.dc.level)) =
      some ([.level .dc true, .txFail 0x00#8 7], some (.err (.busError 7)), .high) := by
  decide

/-- V-T5. -/
theorem test_send_command_hangs :
    (next? (exec (.sendCommand 0xAF#8) (answering [.never] ready))).map (fun t => (t.trace, t.E.busy)) =
      some ([.level .dc false], true) := by
  decide

/-- V-T7. -/
theorem test_configure_without_a_clock :
    (next? (exec (.configure (some cfgZero)) powerOn)).map (fun t => (t.trace, t.ret)) =
      some ([], some (.err .configError)) := by
  decide

/-- V-T10: attach fails; the bus is freed again. -/
theorem test_configure_attach_fails :
    (next? (exec (.configure (some cfgT)) (answering [.ok, .err 3] powerOn))).map (fun t => (t.trace.drop 6, t.T)) =
      some ([.busInit, .busFree], { bus := .free, dev := .detached }) := by
  decide

/-- V-T11. -/
theorem test_send_without_a_handle : refusal? (exec (.sendCommand 0xAF#8) powerOn) = some .noHandle := by decide

/-! ## Engine (V-E1 to V-E16) -/

/-- V-E1: the bytes of bring-up. -/
theorem test_init_seq :
    initSeq paramsT = [0xAE#8, 0xA0#8, 0x72#8, 0xA1#8, 0x00#8, 0xA2#8, 0x00#8, 0xA4#8, 0xA8#8, 0x3F#8, 0xAD#8, 0x8E#8,
      0xB0#8, 0x0B#8, 0xB1#8, 0x31#8, 0xB3#8, 0xF0#8, 0x8A#8, 0x64#8, 0x8B#8, 0x78#8, 0x8C#8, 0x64#8, 0xBB#8, 0x3A#8,
      0xBE#8, 0x3E#8, 0x87#8, 0x06#8, 0x81#8, 0x91#8, 0x82#8, 0x50#8, 0x83#8, 0x7D#8, 0xAF#8, 0x26#8, 0x01#8] := by
  decide

/-- V-E3: the byte at k = 9 fails. -/
theorem test_begin_rolls_back :
    (next? (exec (.begin (some cfgT)) (answering (List.replicate 11 .ok ++ [.err 5]) powerOn))).map
      (fun t => (t.trace.drop 26, t.E.fsm, t.E.handle, t.T)) =
      some ([.level .dc false, .txFail 0x3F#8 5, .detach, .busFree], .uninitialized, false,
        { bus := .free, dev := .detached }) := by
  decide

/-- V-E6: turning on sends one byte. -/
theorem test_turn_on_bytes : bytes? .turnOn ready = some [(false, 0xAF#8)] := by decide

/-- V-E7. -/
theorem test_turn_off_clears_both_flags :
    (next? (exec .turnOff ready)).map (fun t => (t.E.displayOn, t.P.dispOn)) = some (false, false) := by decide

/-- V-E15, V-E5. -/
theorem test_preconditions :
    refusal? (exec .turnOn powerOn) = some .notReady ∧ refusal? (exec .clearWindow powerOn) = some .notReady ∧
      refusal? (exec (.begin (some cfgT)) ready) = some .beginNotUninitialized := by
  decide

/-- V-E8. -/
theorem test_clear_window_bytes :
    bytes? .clearWindow ready =
      some [(false, 0x25#8), (false, 0x00#8), (false, 0x00#8), (false, 0x5F#8), (false, 0x3F#8)] := by
  decide

/-- V-E12: operands that equal opcodes. -/
theorem test_set_pixel_operands_equal_to_opcodes :
    (next? (exec (.setPixel 21#8 117#8 0x1234#16) ready)).map (fun t => (t.P.parse, t.P.colStart, t.P.rowEnd)) =
      some (.idle, 21#8, 117#8) := by
  decide

/-- V-E14: a failing data byte does not stop the next one. -/
theorem test_set_pixel_goes_on_after_a_failure :
    (next? (exec (.setPixel 1#8 2#8 0xABCD#16) (answering (List.replicate 6 .ok ++ [.err 9]) ready))).map
      (fun t => (t.trace.drop 12, t.E.status, t.E.fsm)) =
      some ([.level .dc true, .txFail 0xAB#8 9, .level .dc true, .tx 0xCD#8], .err (.busError 9), .ready) := by
  decide

/-! ## Rasterizer with GLYPH_T (V-R1 to V-R17) -/

/-- V-R4: the origin is clamped, the offsets are not. -/
theorem test_draw_char_clamps_the_origin :
    bytes? (.drawChar 200 10 10 0x001F#16) ready = some
      (setPixelBytes 0x5F#8 0x0B#8 0x001F#16 ++ setPixelBytes 0x5F#8 0x11#8 0x001F#16 ++
        setPixelBytes 0x63#8 0x0B#8 0x001F#16 ++ setPixelBytes 0x63#8 0x11#8 0x001F#16) := by
  decide

/-- V-R2, V-R3. -/
theorem test_draw_char_bits :
    drawCharBytes paramsT 0 0 5 0xFFFF#16 =
        setPixelBytes 0#8 1#8 0xFFFF#16 ++ setPixelBytes 1#8 2#8 0xFFFF#16 ++ setPixelBytes 2#8 3#8 0xFFFF#16 ++
          setPixelBytes 3#8 4#8 0xFFFF#16 ++ setPixelBytes 4#8 5#8 0xFFFF#16 ∧
      drawCharBytes paramsT 3 3 12 0xFFFF#16 = [] := by
  decide

/-- V-R14: the cursor is never clamped, each origin is. -/
theorem test_draw_string_cells :
    textCells paramsT 80 0 [0x35, 0x2E, 0x35, 0x2E] =
      [(80, 1), (81, 2), (82, 3), (83, 4), (84, 5), (89, 7), (94, 1), (95, 2), (96, 3), (97, 4), (98, 5), (97, 7)] := by
  decide

/-- V-R12: a blank glyph advances the cursor, an unmapped character does not. -/
theorem test_draw_string_cursor :
    (next? (exec (.drawString 2 9 [0x31, 0x20, 0x32] 0xFFFF#16) ready)).map (fun t => (t.trace, t.E.latch.curX)) =
      some ([], 16) := by
  decide

/-! ## Wire commands at PANEL (V-W1 to V-W17) -/

/-- V-W2. -/
theorem test_panel_collects :
    (arrive [(false, 0x15#8), (false, 0x0A#8)] ready).P = { panelW with parse := .collect 0x15#8 2 [0x0A#8] } := by decide

/-- V-W3, V-W14. -/
theorem test_set_column_address :
    next? (exec (.setColumnAddress 0x0A#8 0x15#8) ready) =
      some (withP { panelW with colStart := 10#8, colEnd := 21#8, ptrCol := 10#8 }) := by
  decide

/-- V-W4. -/
theorem test_set_row_address :
    next? (exec (.setRowAddress 0x14#8 0x14#8) ready) =
      some (withP { panelW with rowStart := 20#8, rowEnd := 20#8, ptrRow := 20#8 }) := by
  decide

/-- V-W7. -/
theorem test_half_pixel_dropped :
    (arrive [(true, 0xF8#8), (false, 0xAF#8)] ready).P = { panelW with dispOn := true } := by decide

/-- 43_wire_commands.md R190: the erase bit is looked at with T_CLEAR above 0 only. -/
theorem test_erase_bit_without_erase_time :
    (arrive [(false, 0xAF#8)] (withP { panelW with busyClear := true })).P =
      { panelW with busyClear := true, dispOn := true } := by
  decide

/-- V-W6: the pixel at (5, 6), and its neighbour untouched. -/
theorem test_pixel_write :
    (((Memory.drawn 0).writePixel 5 6 0xF800#16).pixel 5 6 = 0xF800#16) ∧
      ((Memory.drawn 0).writePixel 5 6 0xF800#16).byte (cellAddr 6 6) = (Memory.drawn 0).byte (cellAddr 6 6) :=
  ⟨pixel_writePixel_same (drawn_wf 0) (by decide) (by decide) _, byte_writePixel_ne (by decide) (by decide) _ _⟩

/-- V-W10 to V-W13. -/
theorem test_one_register_commands :
    next? (exec .displayOff ready) = some (withP panelW) ∧
      next? (exec (.setMultiplex 0x3F#8) ready) = some (withP { panelW with mux := 0x3F#8 }) ∧
      next? (exec .normalDisplay ready) = some (withP { panelW with dispMode := .normal }) ∧
      next? (exec (.fillEnable 0x02#8) ready) = some (withP { panelW with fill := 0x02#8 }) := by
  decide

/-- V-W9: the operand order column, row, column, row. -/
theorem test_erase_operand_order :
    eraseInRange 2#8 3#8 4#8 3#8 = true ∧ inRect 2 3 4 3 (cellAddr 4 3) = true ∧ inRect 2 3 4 3 (cellAddr 3 4) = false ∧
      eraseInRange 0#8 0#8 0x5F#8 0x3F#8 = true ∧ eraseInRange 0#8 0#8 0x3F#8 0x5F#8 = false := by
  decide

/-- 20_memory.md R74: an erase after a column bound off the panel was sent makes the pixel RAM ANY; P1, V-E8: in the window
that the reset pulse left it is made, whatever the bounds are. -/
theorem test_erase_while_a_bound_is_off :
    (next? (exec (.setColumnAddress 0x63#8 0x63#8) ready)).map (fun t => t.P.windowOff) = some true ∧
      (ready.P.postReset).windowOff = false ∧
      (Panel.erase paramsT 0#8 0#8 0x5F#8 0x3F#8 { panelW with colEnd := 0x60#8 }).draws = panelW.draws + 1 := by
  decide

/-- 60_exceptions.md R240, D11: an erase that ends after a failed byte leaves PANEL ANY, the erase bit too. -/
theorem test_erase_done_after_a_failed_byte :
    Panel.eraseEnd ⟨.output, .high⟩ { panelW with busyClear := true, lost := true } =
        { panelW with busyClear := true, lost := true }.any ∧
      Panel.eraseEnd ⟨.output, .high⟩ { panelW with busyClear := true } = { panelW with busyClear := false } :=
  ⟨rfl, rfl⟩

/-! ## Witnesses: states and operands that meet the hypotheses of the obligations -/

/-- Transport requests that are all answered Ok, as from reset. -/
theorem oracle_allOk (n : Nat) : Oracle.allOk { script := [], after := .ok } n := by
  induction n with
  | zero => exact fun k hk => absurd hk (Nat.not_lt_zero k)
  | succ n ih => exact (allOk_succ _ n).2 ⟨rfl, ih⟩

/-- `ready` with a request at the host's port. -/
def requested (r : Request) : State := { ready with inbox := [.host r] }

theorem ready_inv (r : Request) : Inv (requested r) := by
  refine ⟨fun _ => ⟨rfl, .inr ⟨rfl, rfl, rfl, ⟨cfgT, rfl, by decide, rfl⟩, rfl, rfl⟩⟩, ⟨drawn_wf 0, rfl⟩, ?_⟩
  intro r'
  simp [requested]

theorem witness_EveryStepKeepsTheSessionInvariant :
    Inv (requested { op := 1#4 }) ∧ ∃ t, step (requested { op := 1#4 }) = .next t :=
  ⟨ready_inv _, _, rfl⟩

/-- A reset pulse at its two minima, then the bus. -/
def pulseTrace : List Event :=
  [.level .rst false, .wait 100000, .level .rst true, .wait 100000, .busInit]

theorem witness_EveryStepKeepsTheResetTiming :
    ResetTimed pulseTrace ∧ ∃ t, step { requested { op := 1#4 } with trace := pulseTrace } = .next t := by
  refine ⟨⟨?_, ?_⟩, _, rfl⟩
  · intro pre post h
    simp only [pulseTrace, List.cons_eq_append_iff] at h
    simp at h
    exact ⟨100000, 100000, [.busInit], le_refl _, le_refl _, by simp_all⟩
  · intro pre post h
    simp only [pulseTrace, List.cons_eq_append_iff] at h
    simp at h
    exact ⟨100000, [.level .rst false, .wait 100000], le_refl _, by simp_all⟩

theorem witness_EveryStepDrivesTheModeBeforeTheByte :
    ModeBeforeByte [.level .dc true, .tx 0xF8#8] ∧
      ∃ t, step { requested { op := 1#4 } with trace := [.level .dc true, .tx 0xF8#8] } = .next t := by
  refine ⟨?_, _, rfl⟩
  intro pre e post h he
  simp only [List.cons_eq_append_iff] at h
  simp at h
  rcases h with h | h
  · rcases he with ⟨b, hb⟩ | ⟨b, t, hb⟩ <;> simp_all
  · exact ⟨[], true, by simp_all⟩

theorem witness_PanelIsTheFoldOfTheTrace :
    Instr.turnOn.level ≠ .wire ∧ (∃ t, exec .turnOn ready = .next t) ∧ ∃ t, exec (.begin (some cfgT)) powerOn = .next t :=
  ⟨by decide, ⟨_, rfl⟩, _, rfl⟩

theorem witness_NothingFlowsBackFromThePanel :
    (∃ t, exec (.drawChar 10 20 0 0xF800#16) ready = .next t) ∧ ∃ t, exec (.pix 0xF8#8 0x00#8) ready = .next t :=
  ⟨⟨_, rfl⟩, _, rfl⟩

theorem witness_NoInstructionLeavesReady :
    (∀ cfg, Instr.turnOff ≠ .configure cfg) ∧ ready.E.fsm = .ready ∧ ∃ t, exec .turnOff ready = .next t :=
  ⟨fun _ => by simp, rfl, _, rfl⟩

theorem witness_DecodeOfEncodeIsTheInstruction :
    (Instr.drawString 0 0 [0x43, 0x10FFFF] 0x07E0#16).wf = true ∧
      encode (.setColumnAddress 0xFF#8 0x00#8) = .wire [(false, 0x15#8), (false, 0xFF#8), (false, 0x00#8)] := by
  decide

theorem witness_WireDecodingIsUnambiguous :
    decodeWire [(false, 0x15#8), (false, 0x15#8), (false, 0x75#8), (true, 0x21#8)] =
      .ok (.setColumnAddress 0x15#8 0x75#8, [(true, 0x21#8)]) := by
  decide

theorem witness_UnassignedAndInternalCodesAtTheHostPort :
    (∀ op : BitVec 4, (requested { op := op }).wireIn = [] ∧
      (requested { op := op }).inbox = .host { op := op } :: []) ∧
      0b0111#4 ∈ [0b0111#4, 0b1011#4, 0b1100#4, 0b1101#4, 0b1110#4, 0b1111#4] ∧
      0b1010#4 ∈ [0b1000#4, 0b1001#4, 0b1010#4] :=
  ⟨fun _ => ⟨rfl, rfl⟩, by decide, by decide⟩

/-- `ready` with wire bytes at PANEL's pins. -/
def wired (bytes : List WireByte) : State := { ready with wireIn := bytes }

theorem witness_StepRunsTheDecodedInstruction :
    ((wired [(true, 0xF8#8), (true, 0x00#8)]).wireIn = (true, 0xF8#8) :: [(true, 0x00#8)] ∧
        atBoundary (wired [(true, 0xF8#8), (true, 0x00#8)]).P (true, 0xF8#8) = true ∧
        decodeWire [(true, 0xF8#8), (true, 0x00#8)] = .ok (.pix 0xF8#8 0x00#8, [])) ∧
      ((requested { op := 1#4 }).wireIn = [] ∧ (requested { op := 1#4 }).inbox = .host { op := 1#4 } :: [] ∧
        decodeRequest { op := 1#4 } = .ok .turnOn ∧ Instr.turnOn.level ≠ .transport) ∧
      (({ powerOn with inbox := [.call { op := 8#4 }] } : State).wireIn = [] ∧
        ({ powerOn with inbox := [.call { op := 8#4 }] } : State).inbox = .call { op := 8#4 } :: [] ∧
        decodeRequest { op := 8#4 } = .ok (.configure none)) := by
  decide

theorem witness_PlacedWordIsRunNext : decodeTableWord 16 0x3FA8 = some (.setMultiplex 0x3F#8) := by decide

theorem witness_BytesThatMakeThePanelAny :
    let s := wired [(false, 0x21#8)]
    let t : State := { wired [(true, 0x0A#8)] with P := { panelW with parse := .collect 0x15#8 2 [] } }
    let u : State := { wired [(true, 0x0A#8)] with
      P := { panelW with busyClear := true, parse := .collect 0x15#8 2 [0x00#8] }
      params := { paramsT with tClear := 1 } }
    (s.wireIn = (false, 0x21#8) :: [] ∧ s.L.rst = ⟨.output, .high⟩ ∧ s.P.lost = false ∧
        s.P.erasing s.params = false ∧ s.P.parse = .idle ∧ operandCount 0x21#8 = none) ∧
      (t.wireIn = (true, 0x0A#8) :: [] ∧ t.L.rst = ⟨.output, .high⟩ ∧ t.P.lost = false ∧
        t.P.erasing t.params = false ∧ t.P.parse = .collect 0x15#8 2 []) ∧
      (u.wireIn = (true, 0x0A#8) :: [] ∧ u.L.rst = ⟨.output, .high⟩ ∧ u.P.lost = false ∧
        u.P.erasing u.params = true ∧ u.P.parse ≠ .idle) := by
  decide

theorem witness_ThePanelCollectsOperands :
    let s := withP { panelW with parse := .collect 0x15#8 2 [] }
    let t := withP { panelW with parse := .collect 0x15#8 2 [0x0A#8] }
    (ready.L.rst = ⟨.output, .high⟩ ∧ ready.P.lost = false ∧ ready.P.erasing ready.params = false ∧ ready.P.parse = .idle ∧
        operandCount 0x15#8 = some (1 + 1)) ∧
      (s.L.rst = ⟨.output, .high⟩ ∧ s.P.lost = false ∧ s.P.erasing s.params = false ∧ s.P.parse = .collect 0x15#8 2 [] ∧
        ([] : List Byte).length + 1 ≠ 2) ∧
      (t.L.rst = ⟨.output, .high⟩ ∧ t.P.lost = false ∧
        t.P.erasing t.params = false ∧ t.P.parse = .collect 0x15#8 2 [0x0A#8] ∧ [0x0A#8].length + 1 = 2 ∧
        commandOf 0x15#8 ([0x0A#8] ++ [0x0B#8]) = some (.setColumnAddress 0x0A#8 0x0B#8)) := by
  decide

theorem witness_HalfPixelIsDroppedByACommand :
    let s : State := { wired [(false, 0xAF#8)] with P := { panelW with pixHi := some 0xF8#8 } }
    s.hears ∧ s.P.pixHi = some 0xF8#8 ∧ operandCount 0xAF#8 ≠ none ∧ s.wireIn = (false, 0xAF#8) :: [] := by
  decide

theorem witness_AfterAFailedByteThePanelStaysAny : (withP { panelW with lost := true }).P.lost = true := by decide

theorem witness_EndOfAnEraseClearsTheBit :
    let s : State := { withP { panelW with busyClear := true } with inbox := [.eraseDone] }
    let t : State := { withP { panelW with busyClear := true, lost := true } with inbox := [.eraseDone] }
    let u : State := { powerOn with inbox := [.eraseDone] }
    (s.wireIn = [] ∧ s.inbox = [.eraseDone] ∧ s.L.rst = ⟨.output, .high⟩ ∧ s.P.lost = false) ∧
      (t.wireIn = [] ∧ t.inbox = [.eraseDone] ∧ t.P.lost = true) ∧
      u.wireIn = [] ∧ u.inbox = [.eraseDone] ∧ u.L.rst ≠ ⟨.output, .high⟩ := by
  decide

/-- For every statement whose only hypothesis is that PANEL hears. -/
theorem witness_hears : ready.hears ∧ ready.inStep ∧ ready.P.pixHi = none := by decide

theorem witness_ClearCommandFillsItsRectangle :
    let s := withP { panelW with colStart := 0x63#8, windowFresh := true }
    (ready.hears ∧ ready.P.premise ready.params = true ∧ ready.P.windowOk) ∧
      (s.hears ∧ s.P.premise s.params = true ∧ s.P.windowOk) ∧
      ((0x00#8).toNat ≤ (0x5F#8).toNat ∧ (0x5F#8).toNat ≤ 95 ∧ (0x00#8).toNat ≤ (0x3F#8).toNat ∧ (0x3F#8).toNat ≤ 63) := by
  decide

theorem witness_ClearCommandOutOfRangeMakesTheRamAny :
    let s := withP { panelW with remap := 0x73#8 }
    let t := withP { panelW with fill := 0x00#8 }
    let u := withP { panelW with colStart := 0x60#8, colEnd := 0x60#8 }
    (ready.hears ∧ (0x00#8).toNat < (0x01#8).toNat ∧ 95 < (0x60#8).toNat ∧ 63 < (0x40#8).toNat) ∧
      ((0x00#8).toNat ≤ (0x5F#8).toNat ∧ (0x5F#8).toNat ≤ 95 ∧ (0x00#8).toNat ≤ (0x3F#8).toNat ∧ (0x3F#8).toNat ≤ 63 ∧
        s.hears ∧ s.P.remap ≠ s.params.initRemap ∧ t.hears ∧ t.P.fill ≠ t.params.initFill ∧ u.hears ∧ ¬ u.P.windowOk) := by
  decide

/-- PANEL with a window and a pointer. -/
def windowed (c0 c1 c r0 r1 r : Byte) : State :=
  withP { panelW with colStart := c0, colEnd := c1, ptrCol := c, rowStart := r0, rowEnd := r1, ptrRow := r }

theorem witness_PixelDataWritesTheCellAtThePointer :
    let s := windowed 0#8 95#8 95#8 0#8 63#8 63#8
    s.hears ∧ s.P.pixHi = none ∧ s.P.windowInRange = true ∧ s.P.premise s.params = true ∧ s.P.gram.wf :=
  ⟨by decide, by decide, by decide, by decide, drawn_wf 0⟩

theorem witness_PixelDataAdvancesThePointer :
    let s := windowed 0#8 95#8 94#8 0#8 63#8 63#8
    let t := windowed 0#8 95#8 95#8 0#8 63#8 62#8
    let u := windowed 0#8 95#8 95#8 0#8 63#8 63#8
    (s.hears ∧ s.P.pixHi = none ∧ s.P.windowInRange = true ∧ s.P.ptrCol.toNat < s.P.colEnd.toNat) ∧
      (t.hears ∧ t.P.pixHi = none ∧ t.P.windowInRange = true ∧ t.P.ptrCol = t.P.colEnd ∧
        t.P.ptrRow.toNat < t.P.rowEnd.toNat) ∧
      (u.hears ∧ u.P.pixHi = none ∧ u.P.windowInRange = true ∧ u.P.ptrCol = u.P.colEnd ∧ u.P.ptrRow = u.P.rowEnd) := by
  decide

theorem witness_PixelDataOffThePanelMakesTheRamAny :
    let s := windowed 0#8 96#8 0#8 0#8 0#8 0#8
    let t := windowed 0#8 0#8 0#8 0#8 64#8 0#8
    let u := withP { panelW with remap := 0x73#8 }
    (s.hears ∧ s.P.pixHi = none ∧ s.P.windowInRange = false) ∧
      (t.hears ∧ t.P.pixHi = none ∧ t.P.windowInRange = false) ∧
      (u.hears ∧ u.P.pixHi = none ∧ u.P.windowInRange = true ∧ u.P.remap ≠ u.params.initRemap) := by
  decide

theorem witness_SendPrimitivesDriveTheModeThenTheByte :
    let s := answering [.err 1] ready
    let t := answering [.never] ready
    (ready.E.busy = false ∧ ready.E.handle = true ∧ ready.oracle.next = .ok) ∧
      (s.E.busy = false ∧ s.E.handle = true ∧ s.oracle.next = .err 1) ∧
      (t.E.busy = false ∧ t.E.handle = true ∧ t.oracle.next = .never) := by
  decide

theorem witness_NoByteWithoutAHandle : powerOn.E.busy = false ∧ powerOn.E.handle = false := by decide

theorem witness_ConfigurePulsesResetThenAttaches :
    powerOn.E.busy = false ∧ 0 < ({ cfgT with clockHz := 1 } : DisplayConfig).clockHz ∧ powerOn.T.bus = .free ∧
      powerOn.oracle.allOk 2 :=
  ⟨rfl, by decide, rfl, oracle_allOk 2⟩

theorem witness_ConfigureFailsWithoutLeakingTheBus :
    let s := answering [.err 1] powerOn
    let t := answering [.ok, .err 1] powerOn
    (powerOn.E.busy = false ∧ powerOn.T.bus = .free ∧ cfgZero.clockHz = 0) ∧
      (s.E.busy = false ∧ 0 < cfgT.clockHz ∧ s.T.bus = .free ∧ s.oracle.answerAt 0 = .err 1) ∧
      (t.E.busy = false ∧ 0 < cfgT.clockHz ∧ t.T.bus = .free ∧ t.oracle.answerAt 0 = .ok ∧
        t.oracle.answerAt 1 = .err 1) := by
  decide

theorem witness_BeginWithoutAConfigurationIsConfigError :
    (powerOn.E.fsm = .uninitialized ∧ powerOn.E.busy = false) ∧
      ∃ t, exec (.begin (some cfgZero)) powerOn = .next t ∧ t.E.busy = false ∧ t.E.status = .err .configError :=
  ⟨by decide, _, rfl, rfl, rfl⟩

theorem witness_BeginBringsTheEngineToReady :
    powerOn.E.fsm = .uninitialized ∧ powerOn.E.busy = false ∧ 0 < cfgT.clockHz ∧ powerOn.oracle.allOk 41 :=
  ⟨rfl, rfl, by decide, oracle_allOk 41⟩

theorem witness_BeginSetsEveryCommandRegister :
    powerOn.E.fsm = .uninitialized ∧ powerOn.E.busy = false ∧ 0 < cfgT.clockHz ∧ powerOn.oracle.allOk 41 ∧
      ∃ t, exec (.begin (some cfgT)) powerOn = .next t :=
  ⟨rfl, rfl, by decide, oracle_allOk 41, _, rfl⟩

theorem witness_BeginThatFailsAtAByteRollsBack :
    let s := answering [.ok, .ok, .err 1] powerOn
    let t := answering (List.replicate 40 .ok ++ [.err 1]) powerOn
    (s.E.fsm = .uninitialized ∧ s.E.busy = false ∧ 0 < cfgT.clockHz ∧ 0 < 39 ∧ s.oracle.allOk (0 + 2) ∧
        s.oracle.answerAt (0 + 2) = .err 1) ∧
      (t.E.fsm = .uninitialized ∧ t.E.busy = false ∧ 0 < cfgT.clockHz ∧ 38 < 39 ∧ t.oracle.allOk (38 + 2) ∧
        t.oracle.answerAt (38 + 2) = .err 1) := by
  decide

theorem witness_BeginThatFailsAtTheBusEndsUninitialized :
    let s := answering [.err 1] powerOn
    let t := answering [.ok, .err 1] powerOn
    (s.E.fsm = .uninitialized ∧ s.E.busy = false ∧ s.E.handle = false ∧ 0 < cfgT.clockHz ∧ s.T.bus = .free ∧
        s.oracle.answerAt 0 = .err 1) ∧
      (t.E.fsm = .uninitialized ∧ t.E.busy = false ∧ t.E.handle = false ∧ 0 < cfgT.clockHz ∧ t.T.bus = .free ∧
        t.oracle.answerAt 0 = .ok ∧ t.oracle.answerAt 1 = .err 1) := by
  decide

theorem witness_OperationsOutsideTheirPreconditionAreRefused :
    (ready.E.busy = false ∧ ready.E.fsm ≠ .uninitialized) ∧
      (powerOn.E.busy = false ∧ powerOn.E.fsm ≠ .ready ∧ Instr.clearWindow.level = .host ∧
        ∀ c, Instr.clearWindow ≠ .begin c) :=
  ⟨by decide, by decide, by decide, by decide, fun _ => by simp⟩

/-- `ready` with an operation that never returned. -/
def blocked : State := { ready with E := { ready.E with busy := true } }

theorem witness_RequestsWhileBusyAreRefused :
    blocked.E.busy = true ∧ Instr.turnOn.level ≠ .wire ∧ (Instr.sendData 0x00#8).level ≠ .wire := by
  decide

theorem witness_TurnOnAndOffSendOneByte :
    let s := answering [.err 1] ready
    let t := answering [.never] ready
    (ready.readyIdle ∧ ready.L.dc.dir = .output ∧ ready.oracle.next = .ok ∧ ready.hears) ∧
      (s.readyIdle ∧ s.L.dc.dir = .output ∧ s.oracle.next = .err 1) ∧
      (t.readyIdle ∧ t.L.dc.dir = .output ∧ t.oracle.next = .never) := by
  decide

theorem witness_SetPixelSendsEightBytesAndWritesOneCell :
    ready.readyIdle ∧ ready.inStep ∧ ready.P.premise ready.params = true ∧ ready.P.gram.wf ∧ ready.oracle.allOk 8 ∧
      (95#8).toNat ≤ 95 ∧ (63#8).toNat ≤ 63 :=
  ⟨by decide, by decide, by decide, drawn_wf 0, oracle_allOk 8, by decide, by decide⟩

theorem witness_SetPixelOffThePanelIsSentUnchanged :
    ready.readyIdle ∧ ready.inStep ∧ ready.oracle.allOk 8 ∧ 95 < (96#8).toNat ∧ 63 < (64#8).toNat :=
  ⟨by decide, by decide, oracle_allOk 8, by decide, by decide⟩

theorem witness_ClearWindowErasesEveryCell :
    let s := withP { panelW with colStart := 0x60#8, colEnd := 0x60#8 }
    (ready.readyIdle ∧ ready.inStep ∧ ready.P.premise ready.params = true ∧ ready.oracle.allOk 5 ∧ ready.P.windowOk) ∧
      (s.readyIdle ∧ s.inStep ∧ s.P.premise s.params = true ∧ s.oracle.allOk 5 ∧ ¬ s.P.windowOk) :=
  ⟨⟨by decide, by decide, by decide, oracle_allOk 5, by decide⟩, by decide, by decide, by decide, oracle_allOk 5,
    by decide⟩

theorem witness_EveryByteIsAttemptedAndTheFirstErrorReported :
    let s := answering [.err 1, .err 2] ready
    s.readyIdle ∧ readyBytes s.params .clearWindow = some clearWindowBytes ∧
      s.oracle.allAnswered clearWindowBytes.length := by
  decide

theorem witness_AnOperationThatHangsBlocksTheEngine :
    let s := answering [.ok, .ok, .ok, .ok, .never] ready
    let t : State := { blocked with inbox := [.host { op := 1#4 }] }
    let u : State := { blocked with inbox := [.call { op := 9#4 }] }
    (s.readyIdle ∧ readyBytes s.params .clearWindow = some clearWindowBytes ∧
        ¬ s.oracle.allAnswered clearWindowBytes.length) ∧
      (blocked.E.busy = true ∧ blocked.wireIn = [] ∧ blocked.inbox = []) ∧
      (t.E.busy = true ∧ t.wireIn = [] ∧ t.inbox = .host { op := 1#4 } :: [] ∧
        decodeRequest { op := 1#4 } = .ok .turnOn ∧ Instr.turnOn.level = .host) ∧
      (u.E.busy = true ∧ u.wireIn = [] ∧ u.inbox = .call { op := 9#4 } :: [] ∧
        decodeRequest { op := 9#4 } = .ok (.sendCommand 0x00#8)) := by
  decide

theorem witness_ABeginThatHangsStaysConfiguring :
    let s := answering [.never] powerOn
    let t := answering [.ok, .never] powerOn
    (s.E.fsm = .uninitialized ∧ s.E.busy = false ∧ 0 < cfgT.clockHz ∧ s.oracle.answerAt 0 = .never) ∧
      (t.E.fsm = .uninitialized ∧ t.E.busy = false ∧ 0 < cfgT.clockHz ∧ t.oracle.answerAt 0 = .ok ∧
        t.oracle.answerAt 1 = .never) := by
  decide

theorem witness_a_begin_that_hangs_at_its_first_and_its_last_byte :
    let s := answering [.ok, .ok, .never] powerOn
    let t := answering (List.replicate 40 .ok ++ [.never]) powerOn
    (s.E.fsm = .uninitialized ∧ s.E.busy = false ∧ 0 < cfgT.clockHz ∧ 0 < 39 ∧ s.oracle.allOk (0 + 2) ∧
        s.oracle.answerAt (0 + 2) = .never) ∧
      (t.E.fsm = .uninitialized ∧ t.E.busy = false ∧ 0 < cfgT.clockHz ∧ 38 < 39 ∧ t.oracle.allOk (38 + 2) ∧
        t.oracle.answerAt (38 + 2) = .never) := by
  decide

theorem witness_OperationsKeepThePanelInStep :
    ready.readyIdle ∧ ready.inStep ∧ ready.params.tClear = 0 ∧
      readyBytes ready.params .clearWindow = some clearWindowBytes ∧ ready.oracle.allOk clearWindowBytes.length ∧
      ∃ t, exec .clearWindow ready = .next t :=
  ⟨by decide, by decide, rfl, rfl, oracle_allOk 5, _, rfl⟩

theorem witness_PublicOperationsSendWholeUnits :
    isPublic (.drawChar 200 200 13 0xABCD#16) = true ∧
      readyBytes paramsT (.drawChar 200 200 13 0xABCD#16) = some (setPixelBytes 97#8 70#8 0xABCD#16) := by
  decide

theorem witness_PixelsAreSentHighByteFirst :
    readyBytes paramsT (.setPixel 1#8 2#8 0xABCD#16) = some (setPixelBytes 1#8 2#8 0xABCD#16) ∧
      readyBytes paramsT (.drawChar 0 0 13 0xABCD#16) = some (setPixelBytes 2#8 7#8 0xABCD#16) ∧
      readyBytes paramsT (.drawChar 0 0 15 0xABCD#16) = some [] ∧
      readyBytes paramsT (.drawString 0 0 [0x2E] 0xABCD#16) = some (setPixelBytes 2#8 7#8 0xABCD#16) ∧
      readyBytes paramsT .turnOn = some turnOnBytes ∧ (next? (exec (.begin none) powerOn)).isSome = true := by
  decide

theorem witness_DrawingTouchesWindowPointerAndRamOnly :
    ready.readyIdle ∧ ready.inStep ∧
      readyBytes ready.params (.drawChar 0 0 13 0xABCD#16) = some (setPixelBytes 2#8 7#8 0xABCD#16) ∧
      ready.oracle.allOk (setPixelBytes 2#8 7#8 0xABCD#16).length ∧
      ∃ t, exec (.drawChar 0 0 13 0xABCD#16) ready = .next t :=
  ⟨by decide, by decide, by decide, oracle_allOk 8, _, rfl⟩

/-- `ready` with STRICT_ARGS. -/
def strict : State := { ready with params := { paramsT with strictArgs := true } }

theorem witness_InvalidGlyphIdIsANoOp :
    ready.readyIdle ∧
      ∃ t, exec (.drawChar 3 3 15 0xFFFF#16) strict = .next t ∧ t.E.busy = false ∧ t.E.status = .err .argumentError :=
  ⟨by decide, _, rfl, rfl, rfl⟩

theorem witness_DrawCharPaintsTheLitCells :
    (ready.readyIdle ∧ ready.inStep ∧ ready.P.premise ready.params = true ∧ ready.P.gram.wf ∧
        ready.oracle.allOk (8 * (litPixels ready.params 10).length)) ∧
      glyphCells ready.params 91 56 10 = [(91, 57), (91, 63), (95, 57), (95, 63)] ∧
      onPanel (glyphCells ready.params 91 56 10) :=
  ⟨⟨by decide, by decide, by decide, drawn_wf 0, oracle_allOk _⟩, by decide, by decide⟩

theorem witness_DrawStringPaintsTheMappedCharacters :
    (ready.readyIdle ∧ ready.inStep ∧ ready.P.premise ready.params = true ∧ ready.P.gram.wf ∧
        ready.oracle.allOk (drawStringBytes ready.params 0 0 0x07E0#16 [0x43, 0x3A, 0x35]).length) ∧
      onPanel (textCells ready.params 0 0 [0x43, 0x3A, 0x35]) ∧
      (0x10FFFF < 0x110000 ∧ (∀ d < 10, 0x10FFFF ≠ 0x30 + d) ∧ 0x10FFFF ∉ [0x43, 0x3A, 0xB0, 0x2E, 0x25]) ∧
      ((∀ d < 10, 0x2F ≠ 0x30 + d) ∧ 0x2F ∉ [0x43, 0x3A, 0xB0, 0x2E, 0x25]) :=
  ⟨⟨by decide, by decide, by decide, drawn_wf 0, oracle_allOk _⟩, by decide, by decide, by decide⟩

theorem witness_UnmappedCharactersSendNothing :
    ready.readyIdle ∧ (∀ ch ∈ ([] : List Nat), charMap ch = none) ∧ ∀ ch ∈ [0x61, 0x63, 0x20], charMap ch = none := by
  decide

end Sys2Proof.Tests
end

section
/-! SUPPORT. The pixels of a glyph (42_rasterizer.md R173, R174): which are lit, and in which order. -/

namespace Sys2Proof.Machine

/-- R174 over the model's column lookup, whether the id is valid or not. -/
theorem mem_litPixels (k : Params) (id c r : Nat) : (c, r) ∈ litPixels k id ↔
    c ≤ 4 ∧ 1 ≤ r ∧ r ≤ 7 ∧ (glyphColumn k id c).getLsbD (r - 1) = true := by
  have column_mem : c ∈ [0, 1, 2, 3, 4] ↔ c ≤ 4 := by
    simp only [List.mem_cons, List.not_mem_nil, or_false]
    omega
  have row_mem : r ∈ [1, 2, 3, 4, 5, 6, 7] ↔ 1 ≤ r ∧ r ≤ 7 := by
    simp only [List.mem_cons, List.not_mem_nil, or_false]
    omega
  have scanned : (c, r) ∈ litPixels k id ↔
      c ∈ [0, 1, 2, 3, 4] ∧ r ∈ [1, 2, 3, 4, 5, 6, 7] ∧ litAt (glyphColumn k id c) r = true := by
    rw [litPixels, List.mem_flatMap]
    constructor
    · rintro ⟨c', hc, h⟩
      obtain ⟨r', hr, heq⟩ := List.mem_map.1 h
      cases heq
      exact ⟨hc, List.mem_filter.1 hr⟩
    · rintro ⟨hc, hr⟩
      exact ⟨c, hc, List.mem_map.2 ⟨r, List.mem_filter.2 hr, rfl⟩⟩
  rw [scanned, column_mem, row_mem, litAt, and_assoc]

/-- A valid id and column: the column byte is the table's own (10_state.md R33). -/
theorem glyphColumn_valid (k : Params) {id c : Nat} (hid : id < 15) (hc : c < 5) :
    glyphColumn k id c = k.glyph[id][c] := by
  simp [glyphColumn, hid, hc]

/-- R173: both loops count up, the columns outside and the rows inside. -/
theorem litPixels_pairwise (k : Params) (id : Nat) :
    (litPixels k id).Pairwise fun p q => p.1 < q.1 ∨ p.1 = q.1 ∧ p.2 < q.2 := by
  have rows_ascend : [1, 2, 3, 4, 5, 6, 7].Pairwise (· < ·) := by decide
  have columns_ascend : [0, 1, 2, 3, 4].Pairwise (· < ·) := by decide
  unfold litPixels
  refine List.pairwise_flatMap.2 ⟨fun c _ => ?_, columns_ascend.imp fun {c d} hcd => ?_⟩
  · exact List.pairwise_map.2 ((rows_ascend.filter _).imp fun hr => .inr ⟨rfl, hr⟩)
  · intro p hp q hq
    obtain ⟨r, -, rfl⟩ := List.mem_map.1 hp
    obtain ⟨r', -, rfl⟩ := List.mem_map.1 hq
    exact .inl hcd

/-- Settles O54: membership is R174's bit test, which for a valid id reads the table's own byte, and the loops of R173
meet the pixels in ascending order. -/
theorem glyphBitsDecideTheLitPixels : Obligations.GlyphBitsDecideTheLitPixels := by
  intro k id
  refine ⟨mem_litPixels k id, fun hid c r => ?_, litPixels_pairwise k id⟩
  rw [mem_litPixels]
  constructor
  · rintro ⟨hc, h1, h7, hbit⟩
    have hc5 : c < 5 := Nat.lt_succ_of_le hc
    exact ⟨hc5, h1, h7, glyphColumn_valid k hid hc5 ▸ hbit⟩
  · rintro ⟨hc, h1, h7, hbit⟩
    exact ⟨Nat.le_of_lt_succ hc, h1, h7, (glyphColumn_valid k hid hc).symm ▸ hbit⟩

end Sys2Proof.Machine
end

section
/-! SUPPORT. Where ConfigError comes from (60_exceptions.md R232, R238): only the configuration check answers it, and
only BEGIN and CONFIGURE check. -/

namespace Sys2Proof.Machine

/-- The check fails on an absent configuration and on a zero clock, and on no other (40_transport.md R123). -/
theorem validConfig_eq_none {cfg : Option DisplayConfig} :
    validConfig cfg = none ↔ cfg = none ∨ ∃ c, cfg = some c ∧ c.clockHz = 0 := by
  cases cfg <;> simp [validConfig]

/-- A run that, if it returns, does not return ConfigError. -/
def Run.NoConfigError : Run → Prop
  | .hung _ => True
  | .returned r _ => r ≠ .err .configError

/-! ## The combinators -/

theorem both_noConfigError {run : Run} {f : State → Run} (h : run.NoConfigError) (hf : ∀ s, (f s).NoConfigError) :
    (run.both f).NoConfigError := by
  cases run with
  | hung s => trivial
  | returned r s =>
    have hs := hf s
    rw [both_returned]
    cases hfs : f s with
    | hung s' => trivial
    | returned r' s' =>
      rw [hfs] at hs
      cases r with
      | ok => exact hs
      | err e => exact h

theorem ifOk_noConfigError {run : Run} {f : State → Run} (h : run.NoConfigError) (hf : ∀ s, (f s).NoConfigError) :
    (run.ifOk f).NoConfigError := by
  cases run with
  | hung s => trivial
  | returned r s =>
    cases r with
    | ok => exact hf s
    | err e => exact h

theorem thenDo_noConfigError {run : Run} (h : run.NoConfigError) (f : State → State) :
    (run.thenDo f).NoConfigError := by
  cases run <;> exact h

theorem onError_noConfigError {run : Run} (h : run.NoConfigError) (f : State → State) :
    (run.onError f).NoConfigError := by
  cases run with
  | hung s => trivial
  | returned r s => cases r <;> exact h

/-! ## The operations -/

theorem send_noConfigError (w : WireByte) (s : State) : (send w s).NoConfigError := by
  cases h : s.oracle.next with
  | ok => rw [send_ok h]; exact nofun
  | err f => rw [send_err h]; exact nofun
  | never => rw [send_never h]; trivial

theorem sendAll_noConfigError (bytes : List WireByte) : ∀ s, (sendAll bytes s).NoConfigError := by
  induction bytes with
  | nil => exact fun _ => nofun
  | cons w rest ih => exact fun s => both_noConfigError (send_noConfigError w s) ih

theorem sendUntilError_noConfigError (bytes : List WireByte) : ∀ s, (sendUntilError bytes s).NoConfigError := by
  induction bytes with
  | nil => exact fun _ => nofun
  | cons w rest ih => exact fun s => ifOk_noConfigError (send_noConfigError w s) ih

/-- CONFIGURE past its check fails with the transport's error only (40_transport.md R125). -/
theorem configure_noConfigError {c : DisplayConfig} (hc : 0 < c.clockHz) (s : State) :
    (configure (some c) s).NoConfigError := by
  rw [configure_some hc]
  split
  · trivial
  · exact nofun
  · split
    · trivial
    · exact nofun
    · exact nofun

theorem drawCharBody_noConfigError (x y id : Nat) (color : Color) (s : State) :
    (drawCharBody x y id color s).NoConfigError := by
  unfold drawCharBody
  split
  · split <;> exact nofun
  · exact sendAll_noConfigError _ s

theorem drawText_noConfigError (color : Color) (text : List CodePoint) :
    ∀ s, (drawText color text s).NoConfigError := by
  induction text with
  | nil => exact fun _ => nofun
  | cons ch rest ih =>
    intro s
    unfold drawText
    split
    · exact ih _
    · exact both_noConfigError (thenDo_noConfigError (drawCharBody_noConfigError _ _ _ _ _) _) ih

theorem bringUp_noConfigError {c : DisplayConfig} (hc : 0 < c.clockHz) (s : State) : (bringUp c s).NoConfigError :=
  have configured := onError_noConfigError (configure_noConfigError hc (setFsm .resetting (setCfg c s))) abandon
  have initialized (u : State) : (sendInitSeq u).NoConfigError :=
    onError_noConfigError (sendUntilError_noConfigError _ u) rollBack
  ifOk_noConfigError (ifOk_noConfigError configured fun u => initialized (setHandle true u)) fun _ => nofun

/-! ## The host operations -/

/-- BEGIN in its precondition is its body from the start (41_engine.md R140). -/
theorem execBegin_of_uninitialized {s : State} (hf : s.E.fsm = .uninitialized) (hb : s.E.busy = false)
    (cfg : Option DisplayConfig) : execBegin cfg s = conclude (beginBody cfg (start s)) := by
  simp [execBegin, hf, hb]

/-- BEGIN answers next only in its precondition, as its body does from the start (41_engine.md R140). -/
theorem execBegin_next {s t : State} {cfg : Option DisplayConfig} (h : execBegin cfg s = .next t) :
    conclude (beginBody cfg (start s)) = .next t := by
  unfold execBegin at h
  split at h
  · cases h
  · split at h
    · exact h
    · cases h

theorem conclude_noConfigError {run : Run} {t : State} (hr : run.NoConfigError) (h : conclude run = .next t)
    (hb : t.E.busy = false) : t.E.status ≠ .err .configError := by
  obtain ⟨r, s, rfl, rfl⟩ := conclude_next h hb
  exact hr

theorem whenReady_noConfigError {body : State → Run} {s t : State} (hr : ∀ u, (body u).NoConfigError)
    (h : whenReady body s = .next t) (hb : t.E.busy = false) : t.E.status ≠ .err .configError :=
  conclude_noConfigError (hr _) (whenReady_next h).2 hb

/-- A BEGIN that ends with ConfigError failed the check. -/
theorem execBegin_configError {s t : State} {cfg : Option DisplayConfig} (h : execBegin cfg s = .next t)
    (hb : t.E.busy = false) (he : t.E.status = .err .configError) : validConfig cfg = none := by
  have hbody := execBegin_next h
  unfold beginBody at hbody
  cases hv : validConfig cfg with
  | none => rfl
  | some c =>
    rw [hv] at hbody
    exact absurd he (conclude_noConfigError (bringUp_noConfigError (validConfig_eq_some hv).2 _) hbody hb)

/-- No host operation but BEGIN ends with ConfigError. -/
theorem exec_host_noConfigError {i : Instr} {s t : State} (hl : i.level = .host) (hi : ∀ cfg, i ≠ .begin cfg)
    (h : exec i s = .next t) (hb : t.E.busy = false) : t.E.status ≠ .err .configError := by
  cases i
  case begin cfg => exact absurd rfl (hi cfg)
  case turnOn => exact whenReady_noConfigError (fun u => thenDo_noConfigError (sendAll_noConfigError _ u) _) h hb
  case turnOff => exact whenReady_noConfigError (fun u => thenDo_noConfigError (sendAll_noConfigError _ u) _) h hb
  case clearWindow => exact whenReady_noConfigError (sendAll_noConfigError _) h hb
  case setPixel x y color => exact whenReady_noConfigError (fun _ => sendAll_noConfigError _ _) h hb
  case drawChar x y id color => exact whenReady_noConfigError (fun _ => drawCharBody_noConfigError _ _ _ _ _) h hb
  case drawString x y text color => exact whenReady_noConfigError (fun _ => drawText_noConfigError _ _ _) h hb
  all_goals cases hl

/-- Settles O35: where the check fails BEGIN's body raises at once, so only `finish` writes the state; past the check,
and in the operations that make none, every error is the transport's or the rasterizer's. -/
theorem beginWithoutAConfigurationIsConfigError : Obligations.BeginWithoutAConfigurationIsConfigError := by
  refine ⟨fun s cfg hf hb hc => ?_, fun i s t hl h hb he => ?_⟩
  · show execBegin cfg s = _
    rw [execBegin_of_uninitialized hf hb, beginBody, validConfig_eq_none.2 hc]
    rfl
  · by_cases hi : ∃ cfg, i = .begin cfg
    · obtain ⟨cfg, rfl⟩ := hi
      exact ⟨cfg, rfl, validConfig_eq_none.1 (execBegin_configError h hb he)⟩
    · exact absurd he (exec_host_noConfigError hl (fun cfg e => hi ⟨cfg, e⟩) h hb)

end Sys2Proof.Machine
end

section
/-! SUPPORT. What every step does to the wire trace (70_reset_and_hazards.md R267, R269): it appends whole moves, each a
short list of events, so a property of traces that each move has and concatenation keeps holds after every step. -/

namespace Sys2Proof.Machine

/-! ## The trace of a step -/

/-- A property of traces that concatenation keeps and that the events of each move of a `Path` have. -/
structure TraceLocal (Q : List Event → Prop) : Prop where
  append {l l' : List Event} : Q l → Q l' → Q (l ++ l')
  drive (m : Bool) : Q [.level .dc m]
  sent (w : WireByte) : Q [.level .dc w.1, .tx w.2]
  failed (w : WireByte) (f : TransportFailure) : Q [.level .dc w.1, .txFail w.2 f]
  pulse (n : Nat) : Q (resetEvents n)
  busInit (n : Nat) : Q (resetEvents n ++ [.busInit])
  attach (hz mode : Nat) : Q [.attach hz mode]
  detach : Q [.detach]
  busFree : Q [.busFree]

theorem resetPanel_trace (s : State) : (resetPanel s).trace = s.trace ++ resetEvents s.waits := by
  rw [resetPanel_eq]

theorem TraceLocal.path {Q : List Event → Prop} (hQ : TraceLocal Q) {s t : State} (h : Path s t) (hs : Q s.trace) :
    Q t.trace := by
  induction h with
  | refl => exact hs
  | quiet u _ _ _ ht _ _ _ _ ih => exact ht ▸ ih
  | drive m _ ih => exact hQ.append ih (hQ.drive m)
  | sent w _ ih => exact sentState_trace w _ ▸ hQ.append ih (hQ.sent w)
  | failed w f _ ih => exact failedState_trace w f _ ▸ hQ.append ih (hQ.failed w f)
  | pulse _ ih => exact resetPanel_trace _ ▸ hQ.append ih (hQ.pulse _)
  | busInit _ ih =>
    rw [emit_trace, takeAnswer_trace, resetPanel_trace, List.append_assoc]
    exact hQ.append ih (hQ.busInit _)
  | attach hz mode _ ih => exact hQ.append ih (hQ.attach hz mode)
  | detach _ ih => exact hQ.append ih hQ.detach
  | busFree _ ih => exact hQ.append ih hQ.busFree

/-- A step is a path from a state with the same trace: neither the fetch, nor PANEL's own bytes, nor an idle step write
to the trace. -/
theorem step_path {s t : State} (h : step s = .next t) : ∃ u, Path u t ∧ u.trace = s.trace := by
  obtain ⟨i, s', hf, hx⟩ | hf | rfl := step_next h
  · obtain ⟨_, _, rfl, -, -⟩ := fetch_run hf
    by_cases hl : i.level = .wire
    · obtain ⟨bytes, -, hw⟩ := exec_wire hl _
      cases hw.symm.trans hx
      exact ⟨_, .refl _, rfl⟩
    · exact ⟨_, exec_path hl hx, rfl⟩
  · obtain ⟨_, _, _, rfl, -, -⟩ := fetch_taken hf
    exact ⟨_, .refl _, rfl⟩
  · exact ⟨_, .refl _, rfl⟩

theorem TraceLocal.step {Q : List Event → Prop} (hQ : TraceLocal Q) {s t : State} (hs : Q s.trace)
    (h : step s = .next t) : Q t.trace := by
  obtain ⟨u, hp, hu⟩ := step_path h
  exact hQ.path hp (hu ▸ hs)

/-- An event of a concatenation stands in the one part or in the other. -/
theorem append_eq_append_cons_cases {l l' pre post : List Event} {e : Event}
    (h : l ++ l' = pre ++ e :: post) :
    (∃ m, l = pre ++ e :: m ∧ post = m ++ l') ∨ ∃ m, pre = l ++ m ∧ l' = m ++ e :: post := by
  obtain ⟨m, hpre, hl'⟩ | ⟨m, hl, hpost⟩ := List.append_eq_append_iff.1 h
  · exact .inr ⟨m, hpre, hl'⟩
  · cases m with
    | nil => exact .inr ⟨[], by simpa using hl.symm, hpost.symm⟩
    | cons x m =>
      obtain ⟨rfl, rfl⟩ := List.cons.inj hpost
      exact .inl ⟨m, hl, rfl⟩

/-! ## Reset timing (70_reset_and_hazards.md R267) -/

theorem resetTimed_append {l l' : List Event} (h : ResetTimed l) (h' : ResetTimed l') : ResetTimed (l ++ l') := by
  obtain ⟨fall, bus⟩ := h
  obtain ⟨fall', bus'⟩ := h'
  constructor
  · intro pre post heq
    obtain ⟨m, hl, rfl⟩ | ⟨m, -, hl'⟩ := append_eq_append_cons_cases heq
    · obtain ⟨d1, d2, rest, h1, h2, rfl⟩ := fall pre m hl
      exact ⟨d1, d2, rest ++ l', h1, h2, rfl⟩
    · exact fall' m post hl'
  · intro pre post heq
    obtain ⟨m, hl, -⟩ | ⟨m, rfl, hl'⟩ := append_eq_append_cons_cases heq
    · exact bus pre m hl
    · obtain ⟨d, rest, hd, rfl⟩ := bus' m post hl'
      exact ⟨d, l ++ rest, hd, by simp⟩

/-- Events with no fall of the reset line and no bus set-up among them are timed. -/
theorem resetTimed_of_notMem {l : List Event} (hfall : .level .rst false ∉ l) (hbus : .busInit ∉ l) : ResetTimed l :=
  ⟨fun _ _ h => absurd (h ▸ by simp) hfall, fun _ _ h => absurd (h ▸ by simp) hbus⟩

/-- The one fall among the pulse's events and what follows them has both waits and the rise after it. -/
theorem resetEvents_fall {n : Nat} {tail pre post : List Event} (htail : .level .rst false ∉ tail)
    (h : resetEvents n ++ tail = pre ++ .level .rst false :: post) :
    ∃ d1 d2 rest, 100000 ≤ d1 ∧ 100000 ≤ d2 ∧ post = .wait d1 :: .level .rst true :: .wait d2 :: rest := by
  have pulse_split : [.dir .dc, .dir .rst] ++ .level .rst false :: ([.wait (Config.rstLowMin + Config.extraWait n),
      .level .rst true, .wait (Config.rstHighMin + Config.extraWait (n + 1))] ++ tail) =
    pre ++ .level .rst false :: post := h
  obtain ⟨-, -, rfl⟩ := (List.append_cons_inj_of_notMem (by simp) (by simpa)).1 pulse_split
  exact ⟨_, _, tail, Nat.le_add_right _ _, Nat.le_add_right _ _, rfl⟩

theorem resetTimed_resetEvents (n : Nat) : ResetTimed (resetEvents n) :=
  ⟨fun _ _ h => resetEvents_fall List.not_mem_nil ((List.append_nil _).trans h),
    fun _ _ h => absurd (h ▸ by simp : Event.busInit ∈ resetEvents n) (by simp [resetEvents])⟩

theorem resetTimed_resetEvents_busInit (n : Nat) : ResetTimed (resetEvents n ++ [.busInit]) := by
  refine ⟨fun _ _ h => resetEvents_fall (by simp) h, fun pre post h => ?_⟩
  obtain ⟨rfl, -, -⟩ := (List.append_cons_inj_of_notMem (by simp [resetEvents]) List.not_mem_nil).1 h
  exact ⟨_, (resetEvents n).take 4, Nat.le_add_right _ _, rfl⟩

theorem resetTimed_local : TraceLocal ResetTimed where
  append := resetTimed_append
  drive _ := resetTimed_of_notMem (by simp) (by simp)
  sent _ := resetTimed_of_notMem (by simp) (by simp)
  failed _ _ := resetTimed_of_notMem (by simp) (by simp)
  pulse := resetTimed_resetEvents
  busInit := resetTimed_resetEvents_busInit
  attach _ _ := resetTimed_of_notMem (by simp) (by simp)
  detach := resetTimed_of_notMem (by simp) (by simp)
  busFree := resetTimed_of_notMem (by simp) (by simp)

/-- Settles O4: the reset line falls only in the reset pulse, which is a move of its own with both waits, and the bus is
set up only straight after one. -/
theorem everyStepKeepsTheResetTiming : Obligations.EveryStepKeepsTheResetTiming :=
  fun _ _ => resetTimed_local.step

/-! ## The mode-select drive before each byte (70_reset_and_hazards.md R269) -/

theorem modeBeforeByte_append {l l' : List Event} (h : ModeBeforeByte l) (h' : ModeBeforeByte l') :
    ModeBeforeByte (l ++ l') := by
  intro pre e post heq he
  obtain ⟨m, hl, -⟩ | ⟨m, rfl, hl'⟩ := append_eq_append_cons_cases heq
  · exact h pre e m hl he
  · obtain ⟨pre', v, rfl⟩ := h' m e post hl' he
    exact ⟨l ++ pre', v, by simp⟩

/-- Whatever stands straight after a drive is driven for. -/
theorem modeBeforeByte_drive_cons (m : Bool) (e : Event) : ModeBeforeByte [.level .dc m, e] := by
  intro pre e' post h he
  match pre, h with
  | [], h =>
    obtain ⟨rfl, -⟩ := List.cons.inj h
    simp at he
  | [x], h =>
    obtain ⟨rfl, -⟩ := List.cons.inj h
    exact ⟨[], m, rfl⟩
  | x :: y :: z, h => simp at h

theorem modeBeforeByte_of_noByte {l : List Event} (htx : ∀ b, .tx b ∉ l) (hfail : ∀ b f, .txFail b f ∉ l) :
    ModeBeforeByte l := by
  rintro pre _ post rfl (⟨b, rfl⟩ | ⟨b, f, rfl⟩)
  · exact absurd (by simp) (htx b)
  · exact absurd (by simp) (hfail b f)

theorem modeBeforeByte_local : TraceLocal ModeBeforeByte where
  append := modeBeforeByte_append
  drive _ := modeBeforeByte_of_noByte (by simp) (by simp)
  sent w := modeBeforeByte_drive_cons w.1 _
  failed w f := modeBeforeByte_drive_cons w.1 _
  pulse _ := modeBeforeByte_of_noByte (by simp [resetEvents]) (by simp [resetEvents])
  busInit _ := modeBeforeByte_of_noByte (by simp [resetEvents]) (by simp [resetEvents])
  attach _ _ := modeBeforeByte_of_noByte (by simp) (by simp)
  detach := modeBeforeByte_of_noByte (by simp) (by simp)
  busFree := modeBeforeByte_of_noByte (by simp) (by simp)

/-- Settles O5: a byte is transmitted or fails only as the second event of a move whose first is the drive. -/
theorem everyStepDrivesTheModeBeforeTheByte : Obligations.EveryStepDrivesTheModeBeforeTheByte :=
  fun _ _ => modeBeforeByte_local.step

end Sys2Proof.Machine
end

section
/-! SUPPORT. When BEGIN and the transport primitives run, said once in both directions: their preconditions
(41_engine.md R140, 40_transport.md R129, R131, 60_exceptions.md R236). -/

namespace Sys2Proof.Machine

theorem execBegin_pre {s t : State} {cfg : Option DisplayConfig} (h : execBegin cfg s = .next t) :
    s.E.fsm = .uninitialized ∧ s.E.busy = false := by
  unfold execBegin at h
  split at h
  · cases h
  · split at h
    · exact ⟨‹_›, Bool.eq_false_of_not_eq_true ‹_›⟩
    · cases h

theorem execConfigure_of_free {s : State} (hb : s.E.busy = false) (hbus : s.T.bus ≠ .allocated)
    (cfg : Option DisplayConfig) : execConfigure cfg s = concludeCall (configure cfg s) := by
  simp [execConfigure, hb, hbus]

theorem execConfigure_next {s t : State} {cfg : Option DisplayConfig} (h : execConfigure cfg s = .next t) :
    s.E.busy = false ∧ s.T.bus ≠ .allocated ∧ concludeCall (configure cfg s) = .next t := by
  unfold execConfigure at h
  split at h
  · cases h
  · split at h
    · cases h
    · exact ⟨Bool.eq_false_of_not_eq_true ‹_›, ‹_›, h⟩

/-- SEND_COMMAND and SEND_DATA are one call, the byte with its mode-select level (40_transport.md R126, R127, R129). -/
def callSend (w : WireByte) (s : State) : Host.Outcome State Fault Refusal :=
  if s.E.busy then .refused .busy
  else if s.E.handle then concludeCall (send w s)
  else .refused .noHandle

theorem exec_sendCommand (b : Byte) (s : State) : exec (.sendCommand b) s = callSend (cmd b) s := rfl

theorem exec_sendData (b : Byte) (s : State) : exec (.sendData b) s = callSend (dat b) s := rfl

theorem callSend_of_handle {s : State} (hb : s.E.busy = false) (hh : s.E.handle = true) (w : WireByte) :
    callSend w s = concludeCall (send w s) := by
  simp [callSend, hb, hh]

theorem callSend_noHandle {s : State} (hb : s.E.busy = false) (hh : s.E.handle = false) (w : WireByte) :
    callSend w s = .refused .noHandle := by
  simp [callSend, hb, hh]

theorem callSend_next {s t : State} {w : WireByte} (h : callSend w s = .next t) :
    s.E.busy = false ∧ s.E.handle = true ∧ concludeCall (send w s) = .next t := by
  unfold callSend at h
  split at h
  · cases h
  · split at h
    · exact ⟨Bool.eq_false_of_not_eq_true ‹_›, ‹_›, h⟩
    · cases h

end Sys2Proof.Machine
end

section
/-! SUPPORT. The wire trace decides the lines, TRANSPORT and PANEL (20_memory.md R80, R86): each move of an operation
appends some events and leaves that part of the state where the fold of those events leaves it. -/

namespace Sys2Proof.Machine

/-- From s to t events were appended to the trace, and the lines, TRANSPORT and PANEL took exactly those. -/
def FoldsTrace (s t : State) : Prop :=
  t.params = s.params ∧ ∃ events, t.trace = s.trace ++ events ∧
    t.wireSide = events.foldl (WireSide.event s.params) s.wireSide

theorem foldsTrace_refl (s : State) : FoldsTrace s s := ⟨rfl, [], (List.append_nil _).symm, rfl⟩

theorem FoldsTrace.trans {s t u : State} (h : FoldsTrace s t) (h' : FoldsTrace t u) : FoldsTrace s u := by
  obtain ⟨hk, l, ht, hw⟩ := h
  obtain ⟨hk', l', ht', hw'⟩ := h'
  refine ⟨hk'.trans hk, l ++ l', ?_, ?_⟩
  · rw [ht', ht, List.append_assoc]
  · rw [hw', hw, hk, List.foldl_append]

theorem emit_foldsTrace (e : Event) (s : State) : FoldsTrace s (emit e s) := ⟨rfl, [e], rfl, rfl⟩

/-- Every move of a path folds the events it appends. -/
theorem Path.foldsTrace {s t : State} (h : Path s t) : FoldsTrace s t := by
  induction h with
  | refl => exact foldsTrace_refl s
  | quiet u _ hL hT ht hP _ _ hk ih =>
    obtain ⟨hk', l, ht', hw⟩ := ih
    refine ⟨hk.trans hk', l, ht.trans ht', ?_⟩
    rw [← hw, State.wireSide, State.wireSide, hL, hT, hP]
  | drive m _ ih => exact ih.trans (emit_foldsTrace _ _)
  | sent w _ ih => exact ih.trans ⟨rfl, _, sentState_trace w _, rfl⟩
  | failed w f _ ih => exact ih.trans ⟨rfl, _, failedState_trace w f _, rfl⟩
  | pulse _ ih => exact ih.trans ⟨rfl, _, resetPanel_trace _, rfl⟩
  | busInit _ ih =>
    exact (ih.trans (u := takeAnswer (resetPanel _)) ⟨rfl, _, resetPanel_trace _, rfl⟩).trans (emit_foldsTrace _ _)
  | attach hz mode _ ih => exact ih.trans (emit_foldsTrace _ _)
  | detach _ ih => exact ih.trans (emit_foldsTrace _ _)
  | busFree _ ih => exact ih.trans (emit_foldsTrace _ _)

/-- Settles O6: an operation or a primitive is a path, and every move of a path folds the events it appends. -/
theorem panelIsTheFoldOfTheTrace : Obligations.PanelIsTheFoldOfTheTrace :=
  fun _ _ _ hl hx => (exec_path hl hx).foldsTrace.2

end Sys2Proof.Machine
end

section
/-! SUPPORT. Nothing PANEL holds reaches the rest of the machine (10_state.md R30, R40): every operation does the same
from a state with another PANEL, up to the PANEL it ends with. -/

namespace Sys2Proof.Machine

/-- A run that ends the same way, its state with another PANEL. -/
def Run.withPanel (p : Panel) : Run → Run
  | .hung s => .hung (s.withPanel p)
  | .returned r s => .returned r (s.withPanel p)

/-- Two runs that differ in the PANEL they end with, if at all. -/
def Run.SameButPanel (run run' : Run) : Prop := ∃ p, run' = run.withPanel p

/-- A body whose run does not depend on PANEL. -/
def IgnoresPanel (body : State → Run) : Prop := ∀ s p, (body s).SameButPanel (body (s.withPanel p))

/-- A change of state that does not depend on PANEL, but for PANEL itself. -/
def MovesPanelApart (f : State → State) : Prop := ∀ s p, ∃ q, f (s.withPanel p) = (f s).withPanel q

/-! ## The combinators -/

theorem both_sameButPanel {run run' : Run} {f : State → Run} (h : run.SameButPanel run') (hf : IgnoresPanel f) :
    (run.both f).SameButPanel (run'.both f) := by
  obtain ⟨p, rfl⟩ := h
  cases run with
  | hung s => exact ⟨p, rfl⟩
  | returned r s =>
    obtain ⟨q, hq⟩ := hf s p
    refine ⟨q, ?_⟩
    simp only [Run.withPanel, both_returned, hq]
    cases f s <;> rfl

theorem ifOk_sameButPanel {run run' : Run} {f : State → Run} (h : run.SameButPanel run') (hf : IgnoresPanel f) :
    (run.ifOk f).SameButPanel (run'.ifOk f) := by
  obtain ⟨p, rfl⟩ := h
  match run with
  | .hung s => exact ⟨p, rfl⟩
  | .returned .ok s => exact hf s p
  | .returned (.err e) s => exact ⟨p, rfl⟩

theorem thenDo_sameButPanel {run run' : Run} {f : State → State} (h : run.SameButPanel run')
    (hf : MovesPanelApart f) : (run.thenDo f).SameButPanel (run'.thenDo f) := by
  obtain ⟨p, rfl⟩ := h
  cases run with
  | hung s => exact ⟨p, rfl⟩
  | returned r s =>
    obtain ⟨q, hq⟩ := hf s p
    exact ⟨q, congrArg (Run.returned r) hq⟩

theorem onError_sameButPanel {run run' : Run} {f : State → State} (h : run.SameButPanel run')
    (hf : MovesPanelApart f) : (run.onError f).SameButPanel (run'.onError f) := by
  obtain ⟨p, rfl⟩ := h
  match run with
  | .hung s => exact ⟨p, rfl⟩
  | .returned .ok s => exact ⟨p, rfl⟩
  | .returned (.err e) s =>
    obtain ⟨q, hq⟩ := hf s p
    exact ⟨q, congrArg (Run.returned (.err e)) hq⟩

/-! ## The operations -/

theorem IgnoresPanel.comp {body : State → Run} {f : State → State} (h : IgnoresPanel body) (hf : MovesPanelApart f) :
    IgnoresPanel fun s => body (f s) := by
  intro s p
  obtain ⟨q, hq⟩ := hf s p
  show (body (f s)).SameButPanel (body (f (s.withPanel p)))
  rw [hq]
  exact h (f s) q

theorem request_ignoresPanel {onOk : State → Run} {onErr : TransportFailure → State → Run} (hok : IgnoresPanel onOk)
    (herr : ∀ f, IgnoresPanel (onErr f)) : IgnoresPanel fun s => request s onOk onErr := by
  intro s p
  show (request s onOk onErr).SameButPanel (request (s.withPanel p) onOk onErr)
  cases h : s.oracle.next with
  | ok => rw [request_ok h, request_ok (s := s.withPanel p) h]; exact hok (takeAnswer s) p
  | err f => rw [request_err h, request_err (s := s.withPanel p) h]; exact herr f (takeAnswer s) p
  | never => rw [request_never h, request_never (s := s.withPanel p) h]; exact ⟨p, rfl⟩

theorem send_ignoresPanel (w : WireByte) : IgnoresPanel (send w) :=
  (request_ignoresPanel (fun _ _ => ⟨_, rfl⟩) fun _ _ _ => ⟨_, rfl⟩).comp (f := setLine .dc w.1) fun _ _ => ⟨_, rfl⟩

theorem sendAll_ignoresPanel (bytes : List WireByte) : IgnoresPanel (sendAll bytes) := by
  induction bytes with
  | nil => exact fun s p => ⟨p, rfl⟩
  | cons w rest ih => exact fun s p => both_sameButPanel (send_ignoresPanel w s p) ih

theorem sendUntilError_ignoresPanel (bytes : List WireByte) : IgnoresPanel (sendUntilError bytes) := by
  induction bytes with
  | nil => exact fun s p => ⟨p, rfl⟩
  | cons w rest ih => exact fun s p => ifOk_sameButPanel (send_ignoresPanel w s p) ih

theorem resetPanel_movesPanelApart : MovesPanelApart resetPanel := by
  intro s p
  rw [resetPanel_eq, resetPanel_eq]
  exact ⟨p.any.postReset, rfl⟩

theorem configure_ignoresPanel (cfg : Option DisplayConfig) : IgnoresPanel (configure cfg) := by
  intro s p
  unfold configure
  cases validConfig cfg with
  | none => exact ⟨p, rfl⟩
  | some c =>
    have bus : IgnoresPanel busInit := request_ignoresPanel (fun _ _ => ⟨_, rfl⟩) fun _ _ _ => ⟨_, rfl⟩
    have device : IgnoresPanel (attach c.clockHz) := request_ignoresPanel (fun _ _ => ⟨_, rfl⟩) fun _ _ _ => ⟨_, rfl⟩
    exact ifOk_sameButPanel (bus.comp resetPanel_movesPanelApart s p) device

theorem drawCharBody_ignoresPanel (x y id : Nat) (color : Color) : IgnoresPanel (drawCharBody x y id color) := by
  intro s p
  unfold drawCharBody
  by_cases hid : Config.nGlyph ≤ id
  · simp only [hid, if_true]
    by_cases hstrict : s.params.strictArgs = true
    · exact ⟨p, by simp [State.withPanel, hstrict, raise, Run.withPanel]⟩
    · exact ⟨p, by simp [State.withPanel, hstrict, Run.withPanel]⟩
  · simp only [hid, if_false]
    exact sendAll_ignoresPanel _ s p

theorem drawText_ignoresPanel (color : Color) (text : List CodePoint) : IgnoresPanel (drawText color text) := by
  induction text with
  | nil => exact fun s p => ⟨p, rfl⟩
  | cons ch rest ih =>
    intro s p
    unfold drawText
    cases charMap ch with
    | none => exact ih (skipCharacter s) p
    | some id =>
      exact both_sameButPanel (thenDo_sameButPanel (drawCharBody_ignoresPanel _ _ id color (setLatch _ s) p)
        fun _ q => ⟨q, rfl⟩) ih

theorem bringUp_ignoresPanel (c : DisplayConfig) : IgnoresPanel (bringUp c) := by
  intro s p
  have configured := onError_sameButPanel (f := abandon)
    (configure_ignoresPanel (some c) (setFsm .resetting (setCfg c s)) p) fun _ q => ⟨q, rfl⟩
  have initialized : IgnoresPanel fun s => sendInitSeq (setHandle true s) := fun u q =>
    onError_sameButPanel (sendUntilError_ignoresPanel _ (setHandle true u) q) fun _ q => ⟨q, rfl⟩
  exact ifOk_sameButPanel (ifOk_sameButPanel configured initialized) fun _ q => ⟨q, rfl⟩

theorem beginBody_ignoresPanel (cfg : Option DisplayConfig) : IgnoresPanel (beginBody cfg) := by
  intro s p
  unfold beginBody
  cases validConfig cfg with
  | none => exact ⟨p, rfl⟩
  | some c => exact bringUp_ignoresPanel c s p

/-! ## The instructions -/

theorem conclude_sameButPanel {run run' : Run} {t : State} (h : run.SameButPanel run') (hn : conclude run = .next t) :
    ∃ q, conclude run' = .next (t.withPanel q) := by
  obtain ⟨p, rfl⟩ := h
  cases run <;> cases hn <;> exact ⟨p, rfl⟩

theorem concludeCall_sameButPanel {run run' : Run} {t : State} (h : run.SameButPanel run')
    (hn : concludeCall run = .next t) : ∃ q, concludeCall run' = .next (t.withPanel q) := by
  obtain ⟨p, rfl⟩ := h
  cases run <;> cases hn <;> exact ⟨p, rfl⟩

theorem whenReady_ignoresPanel {body : State → Run} {s t : State} (h : IgnoresPanel body)
    (hn : whenReady body s = .next t) (p : Panel) : ∃ q, whenReady body (s.withPanel p) = .next (t.withPanel q) := by
  obtain ⟨hr, hn⟩ := whenReady_next hn
  rw [whenReady_of_ready (s := s.withPanel p) hr]
  exact conclude_sameButPanel (h (start s) p) hn

theorem execBegin_ignoresPanel {cfg : Option DisplayConfig} {s t : State} (hn : execBegin cfg s = .next t)
    (p : Panel) : ∃ q, execBegin cfg (s.withPanel p) = .next (t.withPanel q) := by
  obtain ⟨hf, hb⟩ := execBegin_pre hn
  rw [execBegin_of_uninitialized (s := s.withPanel p) hf hb]
  exact conclude_sameButPanel (beginBody_ignoresPanel cfg (start s) p) (execBegin_next hn)

theorem execConfigure_ignoresPanel {cfg : Option DisplayConfig} {s t : State} (hn : execConfigure cfg s = .next t)
    (p : Panel) : ∃ q, execConfigure cfg (s.withPanel p) = .next (t.withPanel q) := by
  obtain ⟨hb, hbus, hx⟩ := execConfigure_next hn
  rw [execConfigure_of_free (s := s.withPanel p) hb hbus]
  exact concludeCall_sameButPanel (configure_ignoresPanel cfg s p) hx

theorem callSend_ignoresPanel {w : WireByte} {s t : State} (hn : callSend w s = .next t) (p : Panel) :
    ∃ q, callSend w (s.withPanel p) = .next (t.withPanel q) := by
  obtain ⟨hb, hh, hx⟩ := callSend_next hn
  rw [callSend_of_handle (s := s.withPanel p) hb hh]
  exact concludeCall_sameButPanel (send_ignoresPanel w s p) hx

/-- Settles O7: the bodies of the operations ignore PANEL, and a wire instruction changes nothing else. -/
theorem nothingFlowsBackFromThePanel : Obligations.NothingFlowsBackFromThePanel := by
  intro i s t p hx
  by_cases hl : i.level = .wire
  · obtain ⟨bytes, he, hw⟩ := exec_wire hl s
    obtain ⟨bytes', he', hw'⟩ := exec_wire hl (s.withPanel p)
    cases Code.wire.inj (he.symm.trans he')
    cases hw.symm.trans hx
    exact ⟨_, hw'⟩
  cases i
  case begin cfg => exact execBegin_ignoresPanel hx p
  case turnOn =>
    exact whenReady_ignoresPanel (fun s p => thenDo_sameButPanel (sendAll_ignoresPanel _ s p) fun _ q => ⟨q, rfl⟩) hx p
  case turnOff =>
    exact whenReady_ignoresPanel (fun s p => thenDo_sameButPanel (sendAll_ignoresPanel _ s p) fun _ q => ⟨q, rfl⟩) hx p
  case clearWindow => exact whenReady_ignoresPanel (sendAll_ignoresPanel _) hx p
  case setPixel x y color => exact whenReady_ignoresPanel ((sendAll_ignoresPanel _).comp fun _ q => ⟨q, rfl⟩) hx p
  case drawChar x y id color =>
    exact whenReady_ignoresPanel ((drawCharBody_ignoresPanel _ _ _ _).comp fun _ q => ⟨q, rfl⟩) hx p
  case drawString x y text color =>
    exact whenReady_ignoresPanel ((drawText_ignoresPanel _ _).comp fun _ q => ⟨q, rfl⟩) hx p
  case configure cfg => exact execConfigure_ignoresPanel hx p
  case sendCommand b => exact callSend_ignoresPanel hx p
  case sendData b => exact callSend_ignoresPanel hx p
  all_goals exact absurd rfl hl

end Sys2Proof.Machine
end

section
/-! SUPPORT. Encoding and decoding (30_encoding.md): every instruction is what its code decodes to, and the wire decoder
reads no further than the instruction. -/

namespace Sys2Proof

open Laws.EncodingShape in
/-- The shape of every instruction's code. -/
theorem encodingShape (i : Instr) : Laws.EncodingShape.Statement i := by
  cases i
  exacts [setColumnAddress _ _, clearWindowCmd _ _ _ _, fillEnable _, setRowAddress _ _, setContrastA _,
    setContrastB _, setContrastC _, setMasterCurrent _, setPrechargeA _, setPrechargeB _, setPrechargeC _, setRemap _,
    setStartLine _, setDisplayOffset _, normalDisplay, setMultiplex _, setMasterConfig _, displayOff, displayOn,
    setPowerMode _, setPrecharge _, setClockDiv _, setPrechargeLevel _, setVcomh _, pix _ _, begin _, turnOn, turnOff,
    clearWindow, setPixel _ _ _, drawChar _ _ _ _, drawString _ _ _ _, configure _, sendCommand _, sendData _]

theorem decodeWire_of_encode {i : Instr} {bytes : List WireByte} (h : encode i = .wire bytes) :
    decodeWire bytes = .ok (i, []) := by
  have shape := encodingShape i
  rw [Laws.EncodingShape.Statement, h] at shape
  exact shape.2.1

theorem decodeRequest_of_encode {i : Instr} {r : Request} (h : encode i = .request r) : decodeRequest r = .ok i := by
  have shape := encodingShape i
  rw [Laws.EncodingShape.Statement, h] at shape
  exact shape.2.2

/-- The wire decoder stops behind the instruction: more bytes after it are left over (30_encoding.md R104). -/
theorem decodeWire_append {bytes rest : List WireByte} {i : Instr} (h : decodeWire bytes = .ok (i, [])) :
    decodeWire (bytes ++ rest) = .ok (i, rest) := by
  rcases decodeWire_ok h with ⟨_, _, rfl, rfl⟩ | ⟨op, args, ho, hc, -, rfl⟩
  · rfl
  · rw [List.append_nil]
    exact decodeWire_command rest ho hc

theorem decode_encode (i : Instr) : decode (encode i) = .ok i := by
  cases h : encode i with
  | wire bytes => rw [decode, decodeWire_of_encode h]
  | request r => exact decodeRequest_of_encode h

/-- Settles O9: the code of each instruction decodes to it, and the wire decoder leaves what follows. -/
theorem decodeOfEncodeIsTheInstruction : Obligations.DecodeOfEncodeIsTheInstruction :=
  ⟨decode_encode, fun _ _ _ h => decodeWire_append (decodeWire_of_encode h)⟩

/-- Settles O10: a pixel is its two data bytes, a command its opcode and operands. -/
theorem wireDecodingIsUnambiguous : Obligations.WireDecodingIsUnambiguous := by
  intro bytes rest i h
  rcases decodeWire_ok h with ⟨hi, lo, rfl, rfl⟩ | ⟨op, args, -, -, he, rfl⟩
  · exact ⟨[(true, hi), (true, lo)], rfl, rfl⟩
  · exact ⟨_, he, rfl⟩

/-- Settles O11: each word is evaluated by the decoder. -/
theorem writtenWordsDecode : Obligations.WrittenWordsDecode := ⟨rfl, rfl, rfl, rfl, rfl, rfl, rfl⟩

/-- Settles O58: the code table of 60_exceptions.md R231, line by line. -/
theorem resultCodes : Obligations.ResultCodes := ⟨rfl, rfl, fun _ => ⟨rfl, rfl⟩, rfl⟩

/-- Settles O59: the code table of 10_state.md R21, line by line. -/
theorem stateMachineCodes : Obligations.StateMachineCodes := ⟨rfl, rfl, rfl, rfl⟩

end Sys2Proof
end

section
/-! SUPPORT. The step by what stands next at each port (log 1, 11, 12, 13): a wire byte, a request of the host, a call
at the internal interface, the end of an erase. -/

namespace Sys2Proof.Machine

theorem fetch_of_wire {s : State} {w : WireByte} {bytes : List WireByte} (h : s.wireIn = w :: bytes) :
    fetch s = fetchWire w bytes s := by
  simp [fetch, h]

theorem fetch_of_inbox {s : State} (h : s.wireIn = []) : fetch s = fetchInbox s := by
  simp [fetch, h]

theorem step_of_run {s s' : State} {i : Instr} (h : fetch s = .run i s') : step s = exec i s' := by
  simp [step, h]

theorem step_of_refuse {s : State} {r : Refusal} (h : fetch s = .refuse r) : step s = .refused r := by
  simp [step, h]

theorem step_of_taken {s t : State} (h : fetch s = .taken t) : step s = .next t := by
  simp [step, h]

theorem step_wire {s : State} {w : WireByte} {bytes rest : List WireByte} {i : Instr} (h : s.wireIn = w :: bytes)
    (hb : atBoundary s.P w = true) (hd : decodeWire (w :: bytes) = .ok (i, rest)) :
    step s = exec i { s with wireIn := rest } :=
  step_of_run (by rw [fetch_of_wire h, fetchWire, if_pos hb, hd])

section Inbox
variable {s : State} {r : Request} {rest : List Input} (hw : s.wireIn = [])
include hw

theorem step_host {i : Instr} (hi : s.inbox = .host r :: rest) (hd : decodeRequest r = .ok i)
    (hl : i.level ≠ .transport) : step s = exec i { s with inbox := rest } :=
  step_of_run (by rw [fetch_of_inbox hw, fetchInbox, hi]; simp only [fetchHost, hd, if_neg hl])

theorem step_host_transport {i : Instr} (hi : s.inbox = .host r :: rest) (hd : decodeRequest r = .ok i)
    (hl : i.level = .transport) : step s = .refused .transportFromHost :=
  step_of_refuse (by rw [fetch_of_inbox hw, fetchInbox, hi]; simp only [fetchHost, hd, if_pos hl])

theorem step_host_error {e : DecodeError} (hi : s.inbox = .host r :: rest) (hd : decodeRequest r = .error e) :
    step s = .refused (refusalOf e r) :=
  step_of_refuse (by rw [fetch_of_inbox hw, fetchInbox, hi]; simp only [fetchHost, hd])

theorem step_call {i : Instr} (hi : s.inbox = .call r :: rest) (hd : decodeRequest r = .ok i) :
    step s = exec i { s with inbox := rest } :=
  step_of_run (by rw [fetch_of_inbox hw, fetchInbox, hi]; simp only [fetchCall, hd])

theorem step_eraseDone (hi : s.inbox = .eraseDone :: rest) :
    step s = .next { s with inbox := rest, P := s.P.eraseEnd s.L.rst } :=
  step_of_taken (by rw [fetch_of_inbox hw, fetchInbox, hi])

theorem step_nothing (hi : s.inbox = []) (hb : s.E.busy = true) : step s = .fault .hung := by
  have : fetch s = .stuck .hung := by rw [fetch_of_inbox hw, fetchInbox, hi]; simp only [hb, if_true]
  simp only [step, this]

end Inbox

/-- The request codes 0111 and 1011 to 1111 name no operation (30_encoding.md R100). -/
theorem decodeRequest_unassigned {r : Request}
    (h : r.op ∈ [0b0111#4, 0b1011#4, 0b1100#4, 0b1101#4, 0b1110#4, 0b1111#4]) :
    decodeRequest r = .error (.unassignedCode r.op) := by
  simp only [List.mem_cons, List.not_mem_nil, or_false] at h
  rcases h with h | h | h | h | h | h <;> simp [decodeRequest, h]

/-- The request codes 1000 to 1010 name the transport primitives (30_encoding.md R99). -/
theorem decodeRequest_transport {r : Request} (h : r.op ∈ [0b1000#4, 0b1001#4, 0b1010#4]) :
    ∃ i, decodeRequest r = .ok i ∧ i.level = .transport := by
  simp only [List.mem_cons, List.not_mem_nil, or_false] at h
  rcases h with h | h | h
  · exact ⟨.configure r.cfg, by simp [decodeRequest, h], rfl⟩
  · exact ⟨.sendCommand r.b, by simp [decodeRequest, h], rfl⟩
  · exact ⟨.sendData r.b, by simp [decodeRequest, h], rfl⟩

/-- Settles O12: the host's port refuses what decodes to nothing and what decodes to a transport primitive. -/
theorem unassignedAndInternalCodesAtTheHostPort : Obligations.UnassignedAndInternalCodesAtTheHostPort := by
  intro s r rest hw hi
  refine ⟨fun h => step_host_error hw hi (decodeRequest_unassigned h), fun h => ?_, fun h => ?_⟩
  · obtain ⟨i, hd, hl⟩ := decodeRequest_transport h
    exact step_host_transport hw hi hd hl
  · exact step_host hw hi (by simp [decodeRequest, h]) (by simp [Instr.level])

/-- Settles O13: one clause per port. -/
theorem stepRunsTheDecodedInstruction : Obligations.StepRunsTheDecodedInstruction :=
  ⟨fun _ _ _ _ _ => step_wire, fun _ _ _ _ hw => step_host hw, fun _ _ _ _ hw => step_call hw⟩

/-! ## A word placed at the fetch (log 28) -/

/-- Wire bytes are placed at an instruction boundary. -/
theorem atBoundary_place (w : WireByte) (bytes : List WireByte) (s : State) :
    atBoundary (place (.wire (w :: bytes)) s).P w = true := by
  obtain ⟨m, b⟩ := w
  cases m <;> simp [atBoundary, place]

theorem place_call {r : Request} {i : Instr} (hd : decodeRequest r = .ok i) (hl : i.level = .transport) (s : State) :
    place (.request r) s = { s with wireIn := [], inbox := .call r :: s.inbox } := by
  simp [place, hd, hl]

theorem place_host {r : Request} {i : Instr} (hd : decodeRequest r = .ok i) (hl : i.level ≠ .transport) (s : State) :
    place (.request r) s = { s with wireIn := [], inbox := .host r :: s.inbox } := by
  simp [place, hd, hl]

theorem decodeWire_of_decode {bytes : List WireByte} {i : Instr} (h : decode (.wire bytes) = .ok i) :
    decodeWire bytes = .ok (i, []) := by
  rw [decode] at h
  split at h
  · cases h
  · cases h; assumption
  · cases h

/-- A code that decodes is what the step runs where it is placed. -/
theorem step_place {c : Code} {i : Instr} (h : decode c = .ok i) (s : State) :
    ∃ t, step (place c s) = exec i t ∧ t.E = s.E ∧ t.L = s.L ∧ t.T = s.T ∧ t.trace = s.trace ∧
      t.P.gram = s.P.gram ∧ t.oracle = s.oracle ∧ t.params = s.params := by
  cases c with
  | wire bytes =>
    have hd := decodeWire_of_decode h
    cases bytes with
    | nil => cases hd
    | cons w bytes =>
      exact ⟨_, step_wire rfl (atBoundary_place w bytes s) (decodeWire_append hd), rfl, rfl, rfl, rfl, rfl, rfl, rfl⟩
  | request r =>
    have hd : decodeRequest r = .ok i := h
    by_cases hl : i.level = .transport
    · rw [place_call hd hl]
      exact ⟨_, step_call rfl rfl hd, rfl, rfl, rfl, rfl, rfl, rfl, rfl⟩
    · rw [place_host hd hl]
      exact ⟨_, step_host rfl rfl hd hl, rfl, rfl, rfl, rfl, rfl, rfl, rfl⟩

theorem decode_of_decodeTableWord {nbits w : Nat} {i : Instr} (h : decodeTableWord nbits w = some i) :
    decode (codeOfTableWord nbits w) = .ok i := by
  unfold decodeTableWord at h
  split at h
  · cases h; assumption
  · cases h

/-- Settles O14: the word's code decodes to the row's instruction, so the step runs it where it is placed. -/
theorem placedWordIsRunNext : Obligations.PlacedWordIsRunNext :=
  fun s _ _ _ h => step_place (decode_of_decodeTableWord h) s

end Sys2Proof.Machine
end

section
/-! SUPPORT. One byte at PANEL (43_wire_commands.md R190), where it hears and where its state is ANY (10_state.md
R39). -/

namespace Sys2Proof.Machine

/-! ## A byte by what PANEL makes of it -/

theorem receive_lost {p : Panel} (h : p.lost = true) (k : Params) (rst : LineState) (w : WireByte) :
    p.receive k rst w = p.any := by
  simp [Panel.receive, h]

theorem receive_erasing {p : Panel} {k : Params} {rst : LineState} (hr : rst = ⟨.output, .high⟩)
    (hl : p.lost = false) (he : p.erasing k = true) (w : WireByte) : p.receive k rst w = p.any := by
  simp [Panel.receive, Panel.byte, hr, hl, he]

section Hears
variable {p : Panel} {k : Params} {rst : LineState} (h : p.Hears k rst)
include h

theorem receive_unknownOpcode {b : Byte} (hp : p.parse = .idle) (ho : operandCount b = none) :
    p.receive k rst (false, b) = p.any := by
  simp [receive_hears h, Panel.commandByte, Panel.opcode, hp, ho, Panel.any]

theorem receive_dataForOperand {op : Byte} {need : Nat} {got : List Byte} (hp : p.parse = .collect op need got)
    (b : Byte) : p.receive k rst (true, b) = p.any := by
  simp [receive_hears h, Panel.dataByte, hp]

theorem receive_opcode {b : Byte} {n : Nat} (hp : p.parse = .idle) (ho : operandCount b = some (n + 1)) :
    p.receive k rst (false, b) = { p with pixHi := none, parse := .collect b (n + 1) [] } := by
  simp [receive_hears h, Panel.commandByte, Panel.opcode, hp, ho]

theorem receive_operand {op b : Byte} {need : Nat} {got : List Byte} (hp : p.parse = .collect op need got)
    (hn : got.length + 1 ≠ need) :
    p.receive k rst (false, b) = { p with pixHi := none, parse := .collect op need (got ++ [b]) } := by
  simp [receive_hears h, Panel.commandByte, Panel.operand, hp, hn]

theorem receive_lastOperand {op b : Byte} {need : Nat} {got : List Byte} {i : Instr}
    (hp : p.parse = .collect op need got) (hn : got.length + 1 = need) (hc : commandOf op (got ++ [b]) = some i) :
    p.receive k rst (false, b) = Panel.effect k i { p with pixHi := none, parse := .idle } := by
  simp [receive_hears h, Panel.commandByte, Panel.operand, Panel.command, hp, hn, hc]

theorem receive_firstData {b : Byte} (hp : p.parse = .idle) (hx : p.pixHi = none) :
    p.receive k rst (true, b) = { p with pixHi := some b } := by
  simp [receive_hears h, Panel.dataByte, Panel.data, hp, hx]

end Hears

/-- One byte that arrives at PANEL. -/
theorem arrive_one {s : State} {w : WireByte} {q : Panel} (h : s.P.receive s.params s.L.rst w = q) :
    arrive [w] s = s.withPanel q := by
  simp only [arrive, State.withPanel, List.foldl_cons, List.foldl_nil, h]

/-- A wire byte that begins no whole instruction is taken by PANEL alone (log 12). -/
theorem step_byte {s : State} {w : WireByte} {rest : List WireByte} (hw : s.wireIn = w :: rest)
    (h : atBoundary s.P w = true → ∃ e, decodeWire (w :: rest) = .error e) :
    step s = .next (arrive [w] { s with wireIn := rest }) := by
  refine step_of_taken ?_
  rw [fetch_of_wire hw, fetchWire]
  by_cases hb : atBoundary s.P w = true
  · obtain ⟨e, he⟩ := h hb
    rw [if_pos hb, he]
  · rw [if_neg hb]

theorem not_atBoundary {p : Panel} (h : p.parse ≠ .idle) (w : WireByte) : ¬ atBoundary p w = true := by
  simp [atBoundary, h]

/-- Settles O15: an unknown opcode is no instruction and PANEL draws on it; with an operand due, as during an erase, a
byte stands at no boundary. -/
theorem bytesThatMakeThePanelAny : Obligations.BytesThatMakeThePanelAny := by
  intro s w rest hw hrst hlost
  refine ⟨fun he hm hp ho => ?_, fun op need got he hm hp => ?_, fun he => ⟨?_, fun hp => ?_⟩⟩
  · obtain ⟨m, b⟩ := w
    cases hm
    rw [step_byte hw fun _ => ⟨.unknownOpcode b, by simp [decodeWire, show operandCount b = none from ho]⟩]
    exact congrArg _ (arrive_one (receive_unknownOpcode ⟨hrst, hlost, he⟩ hp ho))
  · obtain ⟨m, b⟩ := w
    cases hm
    rw [step_byte hw fun hb => absurd hb (not_atBoundary (by simp [hp]) _)]
    exact congrArg _ (arrive_one (receive_dataForOperand ⟨hrst, hlost, he⟩ hp b))
  · exact arrive_one (receive_erasing hrst hlost he w)
  · rw [step_byte hw fun hb => absurd hb (not_atBoundary hp _)]
    exact congrArg _ (arrive_one (receive_erasing hrst hlost he w))

/-- Settles O16: the opcode, an operand before the last, the last operand. -/
theorem thePanelCollectsOperands : Obligations.ThePanelCollectsOperands := by
  intro s b hrst hlost he
  have h : s.P.Hears s.params s.L.rst := ⟨hrst, hlost, he⟩
  exact ⟨fun n hp ho => arrive_one (receive_opcode h hp ho),
    fun op need got hp hn => arrive_one (receive_operand h hp hn),
    fun op need got i hp hn hc => arrive_one (receive_lastOperand h hp hn hc)⟩

/-- The commands without operands (30_encoding.md R96). -/
theorem operandCount_eq_zero {op : Byte} (h : operandCount op = some 0) :
    op = 0xA4#8 ∨ op = 0xAE#8 ∨ op = 0xAF#8 := by
  have all : ∀ op : Byte, operandCount op = some 0 → op = 0xA4#8 ∨ op = 0xAE#8 ∨ op = 0xAF#8 := by decide
  exact all op h

/-- Settles O17: the opcode either begins a collection or is one of the three commands without operands, none of which
touches the pixel RAM. -/
theorem halfPixelIsDroppedByACommand : Obligations.HalfPixelIsDroppedByACommand := by
  intro s op h rest hh _ ho _
  have hp : s.P.parse = .idle := hh.2.2.2
  match hn : operandCount op with
  | none => exact absurd hn ho
  | some (n + 1) =>
    rw [arrive_one (receive_opcode (hears_of hh) hp hn)]
    exact ⟨rfl, rfl⟩
  | some 0 =>
    have whole {i : Instr} (hc : commandOf op [] = some i) :
        arrive [(false, op)] s = s.withPanel (s.P.dropHalf.effect s.params i) := arrive_command (args := []) hh hn hc
    rcases operandCount_eq_zero hn with rfl | rfl | rfl <;> rw [whole rfl] <;> exact ⟨rfl, rfl⟩

/-! ## After a failed byte -/

theorem any_lost (p : Panel) : p.any.lost = p.lost := rfl

theorem emit_tx_lost {s : State} (h : s.P.lost = true) (b : Byte) : (emit (.tx b) s).P = s.P.any := by
  rw [emit_P, lines_tx, Panel.event]
  split
  · exact receive_lost h _ _ _
  · exact receive_lost h _ _ _
  · rfl

theorem foldl_receive_lost (k : Params) (rst : LineState) (bytes : List WireByte) :
    ∀ p : Panel, p.lost = true → (bytes.foldl (fun p w => p.receive k rst w) p).lost = true := by
  induction bytes with
  | nil => exact fun _ h => h
  | cons w rest ih => exact fun p h => ih _ ((congrArg Panel.lost (receive_lost h k rst w)).trans h)

/-- Settles O18: while the loss is kept every byte draws PANEL anew, which keeps it; the pulse's end clears it. -/
theorem afterAFailedByteThePanelStaysAny : Obligations.AfterAFailedByteThePanelStaysAny :=
  ⟨fun _ _ _ => rfl, fun _ b h => ⟨emit_tx_lost h b, by rw [emit_tx_lost h b, any_lost, h]⟩,
    fun _ bytes w h => ⟨foldl_receive_lost _ _ bytes _ h, receive_lost h _ _ w⟩, fun _ => rfl⟩

/-- Settles O19: the bit falls where the reset line is driven high and no byte was lost; else PANEL is drawn anew. -/
theorem endOfAnEraseClearsTheBit : Obligations.EndOfAnEraseClearsTheBit := by
  intro s rest hw hi
  refine ⟨fun hrst hlost => ?_, fun h => ?_⟩
  · rw [step_eraseDone hw hi, Panel.eraseEnd, if_pos ⟨hrst, hlost⟩]
  · have off : ¬ (s.L.rst = ⟨.output, .high⟩ ∧ s.P.lost = false) := fun ⟨hrst, hlost⟩ =>
      h.elim (fun hl => by simp [hlost] at hl) (fun hr => hr hrst)
    rw [step_eraseDone hw hi, Panel.eraseEnd, if_neg off]

/-- Settles O29: with no half pixel latched a data byte is latched. -/
theorem firstDataByteIsLatched : Obligations.FirstDataByteIsLatched :=
  fun _ _ h hx => arrive_one (receive_firstData (hears_of h) h.2.2.2 hx)

/-- Settles O34: both edges of the pulse draw PANEL, the second into its post-reset state. -/
theorem resetPulseLeavesThePanelPostReset : Obligations.ResetPulseLeavesThePanelPostReset :=
  fun _ => ⟨rfl, rfl, rfl, rfl, rfl⟩

end Sys2Proof.Machine
end

section
/-! SUPPORT. Each wire command as its rule, where PANEL hears it (43_wire_commands.md R192 to R215). -/

namespace Sys2Proof.Machine

/-- Settles O20: the two rules are these updates. -/
theorem windowCommandsSetWindowAndPointer : Obligations.WindowCommandsSetWindowAndPointer :=
  fun _ _ _ h => ⟨exec_command h rfl nofun, exec_command h rfl nofun⟩

/-- Settles O21: the rule of each of the eight commands is the update of its register. -/
theorem analogCommandsStoreTheirOperand : Obligations.AnalogCommandsStoreTheirOperand :=
  fun _ _ h => ⟨exec_command h rfl nofun, exec_command h rfl nofun, exec_command h rfl nofun, exec_command h rfl nofun,
    exec_command h rfl nofun, exec_command h rfl nofun, exec_command h rfl nofun, exec_command h rfl nofun⟩

/-- Settles O22: the rule of each of the ten commands is the update of its register. -/
theorem configurationCommandsStoreTheirOperand : Obligations.ConfigurationCommandsStoreTheirOperand :=
  fun _ _ h => ⟨exec_command h rfl nofun, exec_command h rfl nofun, exec_command h rfl nofun, exec_command h rfl nofun,
    exec_command h rfl nofun, exec_command h rfl nofun, exec_command h rfl nofun, exec_command h rfl nofun,
    exec_command h rfl nofun, exec_command h rfl nofun⟩

/-- Settles O23: no operand to store, one field each. -/
theorem operandlessCommandsSetTheirState : Obligations.OperandlessCommandsSetTheirState :=
  fun _ h => ⟨exec_command h rfl nofun, exec_command h rfl nofun, exec_command h rfl nofun⟩

/-! ## CLEAR_WINDOW_CMD (43_wire_commands.md R194) -/

theorem eraseInRange_iff {a b c d : Byte} : eraseInRange a b c d = true ↔
    a.toNat ≤ c.toNat ∧ c.toNat ≤ 95 ∧ b.toNat ≤ d.toNat ∧ d.toNat ≤ 63 := by
  simp only [eraseInRange, Bool.and_eq_true, decide_eq_true_eq, BitVec.le_def]
  simp only [Config.width, Config.height]
  omega

theorem premise_iff {k : Params} {p : Panel} :
    p.premise k = true ↔ p.remap = k.initRemap ∧ p.fill = k.initFill := by
  simp [Panel.premise]

theorem erase_fills {k : Params} {p : Panel} (hp : p.premise k = true) (hw : p.windowOk) (a b c d : Byte) :
    p.erase k a b c d = { p with gram := p.gram.fillRect a.toNat b.toNat c.toNat d.toNat k.clearColor } := by
  simp [Panel.erase, hp, windowOff_eq_false.2 hw]

theorem erase_any {k : Params} {p : Panel} (h : ¬ p.windowOk ∨ ¬ p.premise k = true) (a b c d : Byte) :
    p.erase k a b c d = p.gramAny := by
  rw [Panel.erase, if_neg]
  rw [← windowOff_eq_false] at h
  simpa [or_comm, imp_iff_not_or] using h

/-- An erase changes the RAM and, where it draws it, the counter of draws only. -/
theorem erase_frame (k : Params) (p : Panel) (a b c d : Byte) :
    ∃ m n, p.erase k a b c d = { p with gram := m, draws := n } := by
  unfold Panel.erase
  split
  · exact ⟨_, p.draws, rfl⟩
  · exact ⟨_, _, rfl⟩

theorem clearWindow_inRange {a b c d : Byte} (h : eraseInRange a b c d = true) (k : Params) (p : Panel) :
    p.clearWindow k a b c d =
      { p.erase k a b c d with busyClear := decide (k.tClear ≠ 0) || p.busyClear } := by
  rw [Panel.clearWindow, if_pos h]
  obtain ⟨m, n, he⟩ := erase_frame k p a b c d
  by_cases ht : k.tClear = 0
  · simp [ht, he]
  · simp [ht]

theorem clearWindow_offPanel {a b c d : Byte} (h : ¬ eraseInRange a b c d = true) (k : Params) (p : Panel) :
    p.clearWindow k a b c d = p.gramAny := by
  rw [Panel.clearWindow, if_neg h]

/-- Whether either byte of a cell lies in a rectangle is whether the cell does. -/
theorem inRect_cell {a c r : Nat} (ha : a = cellAddr c r ∨ a = cellAddr c r + 1) (hc : c < Config.width)
    (c0 r0 c1 r1 : Nat) : inRect c0 r0 c1 r1 a = true ↔ c0 ≤ c ∧ c ≤ c1 ∧ r0 ≤ r ∧ r ≤ r1 := by
  have col : a / 2 % Config.width = c := by simp only [cellAddr, Config.width] at *; omega
  have row : a / 2 / Config.width = r := by simp only [cellAddr, Config.width] at *; omega
  simp [inRect, col, row, and_assoc]

/-- A fill leaves both bytes of a cell outside the rectangle alone. -/
theorem byte_fillRect_outside (m : Memory) {a c r c0 r0 c1 r1 : Nat} (v : Color)
    (ha : a = cellAddr c r ∨ a = cellAddr c r + 1) (hc : c < Config.width) (hr : r < Config.height)
    (h : ¬ (c0 ≤ c ∧ c ≤ c1 ∧ r0 ≤ r ∧ r ≤ r1)) : (m.fillRect c0 r0 c1 r1 v).byte a = m.byte a := by
  have inside := cellAddr_lt hc hr
  rw [byte_fillRect _ _ _ _ _ _ (by omega), if_neg (mt (inRect_cell ha hc c0 r0 c1 r1).1 h)]

theorem exec_clearWindowCmd {s : State} (hh : s.hears) (a b c d : Byte) :
    exec (.clearWindowCmd a b c d) s = .next (s.withPanel (s.P.dropHalf.clearWindow s.params a b c d)) :=
  exec_command hh rfl nofun

/-- Settles O24: the erase is a fill of the rectangle, its cells read CLEAR_COLOR and the rest reads as before. -/
theorem clearCommandFillsItsRectangle : Obligations.ClearCommandFillsItsRectangle := by
  intro s a b c d hh hp hw hac hc hbd hd
  have hr : eraseInRange a b c d = true := eraseInRange_iff.2 ⟨hac, hc, hbd, hd⟩
  refine ⟨s.P.gram.fillRect a.toNat b.toNat c.toNat d.toNat s.params.clearColor, ?_, ?_, ?_⟩
  · rw [exec_clearWindowCmd hh, clearWindow_inRange hr, erase_fills (p := s.P.dropHalf) hp hw]
    rfl
  · intro col row h1 h2 h3 h4
    exact pixel_fillRect_inside _ _ ⟨h1, h2⟩ ⟨h3, h4⟩ (by simp only [Config.width]; omega)
      (by simp only [Config.height]; omega)
  · intro col row hcol hrow hout
    exact ⟨byte_fillRect_outside _ _ (.inl rfl) hcol hrow hout, byte_fillRect_outside _ _ (.inr rfl) hcol hrow hout⟩

/-- Settles O25: off its own bounds the command draws the RAM; in range it does where the erase's own premises fail. -/
theorem clearCommandOutOfRangeMakesTheRamAny : Obligations.ClearCommandOutOfRangeMakesTheRamAny := by
  intro s a b c d hh
  refine ⟨fun hoff => ?_, fun hac hc hbd hd hany => ?_⟩
  · have hr : ¬ eraseInRange a b c d = true := mt eraseInRange_iff.1 (by omega)
    rw [exec_clearWindowCmd hh, clearWindow_offPanel hr]
    rfl
  · have hr : eraseInRange a b c d = true := eraseInRange_iff.2 ⟨hac, hc, hbd, hd⟩
    have failed : ¬ s.P.windowOk ∨ ¬ s.P.premise s.params = true := by
      rw [premise_iff]
      tauto
    rw [exec_clearWindowCmd hh, clearWindow_inRange hr, erase_any (p := s.P.dropHalf) failed]
    rfl

/-! ## PIX (20_memory.md R77, R78) -/

/-- Where the pointer goes after a pixel (20_memory.md R78). -/
theorem advancePointer_eq (p : Panel) : p.advancePointer = { p with
    ptrCol := if p.ptrCol.toNat < p.colEnd.toNat then p.ptrCol + 1 else p.colStart
    ptrRow :=
      if p.ptrCol.toNat < p.colEnd.toNat then p.ptrRow
      else if p.ptrRow.toNat < p.rowEnd.toNat then p.ptrRow + 1
      else p.rowStart } := by
  unfold Panel.advancePointer Panel.advanceRow
  by_cases hc : p.ptrCol.toNat < p.colEnd.toNat
  · rw [if_neg (by omega)]
    simp [hc]
  · rw [if_pos (by omega)]
    by_cases hr : p.ptrRow.toNat < p.rowEnd.toNat
    · simp [hc, hr]
    · simp [hc, hr, show p.ptrRow.toNat + 1 > p.rowEnd.toNat by omega]

theorem storePixel_premise {k : Params} {p : Panel} (h : p.premise k = true) (v : Color) :
    p.storePixel k v = { p with gram := p.gram.writePixel p.ptrCol.toNat p.ptrRow.toNat v } := by
  rw [Panel.storePixel, if_pos h]

theorem storePixel_noPremise {k : Params} {p : Panel} (h : ¬ p.premise k = true) (v : Color) :
    p.storePixel k v = p.gramAny := by
  rw [Panel.storePixel, if_neg h]

/-- A pixel stored changes the RAM and, where it draws it, the counter of draws only. -/
theorem storePixel_frame (k : Params) (v : Color) (p : Panel) :
    ∃ m n, p.storePixel k v = { p with gram := m, draws := n } := by
  by_cases h : p.premise k = true
  · exact ⟨_, p.draws, storePixel_premise h v⟩
  · exact ⟨_, _, storePixel_noPremise h v⟩

/-- A cell written is painted, and nothing else. -/
theorem paints_writePixel {m : Memory} (h : m.wf) {c r : Nat} (hc : c < Config.width) (hr : r < Config.height)
    (v : Color) : paints m (m.writePixel c r v) [(c, r)] v := by
  constructor
  · intro p hp
    obtain rfl := List.mem_singleton.1 hp
    exact pixel_writePixel_same h hc hr v
  · intro a ha
    obtain ⟨hhi, hlo⟩ := ha (c, r) List.mem_cons_self
    exact byte_writePixel_ne hhi hlo m v

theorem exec_pix_inRange {s : State} (hh : s.hears) (hx : s.P.pixHi = none) (hw : s.P.windowInRange = true)
    (h l : Byte) :
    exec (.pix h l) s = .next (s.withPanel (s.P.storePixel s.params (h ++ l)).advancePointer) := by
  rw [exec_pix hh hx, if_pos hw]

/-- Settles O26: in range the pointer is a cell of the panel, which is written. -/
theorem pixelDataWritesTheCellAtThePointer : Obligations.PixelDataWritesTheCellAtThePointer := by
  intro s h l hh hx hw hp hm
  obtain ⟨hc, hr⟩ := windowInRange_ptr hw
  have run := exec_pix_inRange hh hx hw h l
  rw [storePixel_premise hp, advancePointer_eq] at run
  exact ⟨_, _, _, run, paints_writePixel hm hc hr (h ++ l)⟩

/-- Settles O27: the pointer moves as R78 says, whatever was stored. -/
theorem pixelDataAdvancesThePointer : Obligations.PixelDataAdvancesThePointer := by
  intro s h l hh hx hw
  obtain ⟨m, n, hstore⟩ := storePixel_frame s.params (h ++ l) s.P
  refine ⟨_, exec_pix_inRange hh hx hw h l, ?_⟩
  rw [hstore, advancePointer_eq]
  have fits {a b : Byte} (hab : a.toNat < b.toNat) : a.toNat + 1 < 256 := Nat.lt_of_le_of_lt hab b.isLt
  refine ⟨fun hc => ?_, fun hc hr => ?_, fun hc hr => ?_⟩
  · simp [State.withPanel, hc, fits hc]
  · simp [State.withPanel, hc, hr, fits hr]
  · simp [State.withPanel, hc, hr]

/-- Settles O28: out of range the RAM is drawn and the pointer stays; without the premise it is drawn and the pointer
moves on. -/
theorem pixelDataOffThePanelMakesTheRamAny : Obligations.PixelDataOffThePanelMakesTheRamAny := by
  intro s h l hh hx
  refine ⟨fun hw => ?_, fun hw hany => ?_⟩
  · rw [exec_pix hh hx, if_neg (by simp [hw])]
    rfl
  · have hp : ¬ s.P.premise s.params = true := by
      rw [premise_iff]
      tauto
    rw [exec_pix_inRange hh hx hw, storePixel_noPremise hp, advancePointer_eq]
    rfl

end Sys2Proof.Machine
end

section
/-! SUPPORT. Preconditions and the transport primitives (40_transport.md R122 to R129, 60_exceptions.md R235, R246):
what is refused, a byte by TRANSPORT's answer, CONFIGURE by its two answers. -/

namespace Sys2Proof.Machine

/-! ## Refusals -/

theorem whenReady_busy {s : State} (h : s.E.busy = true) (body : State → Run) : whenReady body s = .refused .busy := by
  simp [whenReady, h]

theorem whenReady_notReady {s : State} (hb : s.E.busy = false) (hf : s.E.fsm ≠ .ready) (body : State → Run) :
    whenReady body s = .refused .notReady := by
  simp [whenReady, hb, hf]

theorem exec_host_busy {i : Instr} {s : State} (hl : i.level = .host) (h : s.E.busy = true) :
    exec i s = .refused .busy := by
  by_cases hi : ∃ cfg, i = .begin cfg
  · obtain ⟨cfg, rfl⟩ := hi
    exact if_pos h
  · obtain ⟨body, hbody⟩ := exec_host hl fun cfg e => hi ⟨cfg, e⟩
    rw [hbody, whenReady_busy h]

theorem exec_transport_busy {i : Instr} {s : State} (hl : i.level = .transport) (h : s.E.busy = true) :
    exec i s = .refused .busy := by
  cases i
  case configure cfg => exact if_pos h
  case sendCommand b => exact if_pos h
  case sendData b => exact if_pos h
  all_goals cases hl

/-- Settles O40: the engine busy is ruled out first, then the state machine is tested. -/
theorem operationsOutsideTheirPreconditionAreRefused : Obligations.OperationsOutsideTheirPreconditionAreRefused := by
  intro s cfg i
  refine ⟨fun hb hf => ?_, fun hb hf hl hi => ?_⟩
  · show execBegin cfg s = _
    simp [execBegin, hb, hf]
  · obtain ⟨body, hbody⟩ := exec_host hl hi
    rw [hbody, whenReady_notReady hb hf]

/-- Settles O41: each host operation and each primitive tests the busy bit first. -/
theorem requestsWhileBusyAreRefused : Obligations.RequestsWhileBusyAreRefused := by
  intro s i hb hl
  cases h : i.level with
  | wire => exact absurd h hl
  | host => exact exec_host_busy h hb
  | transport => exact exec_transport_busy h hb

/-- Settles O31: idle and without a handle both primitives fall through to the refusal. -/
theorem noByteWithoutAHandle : Obligations.NoByteWithoutAHandle := by
  intro s b hb hh
  rw [exec_sendCommand, exec_sendData]
  exact ⟨callSend_noHandle hb hh _, callSend_noHandle hb hh _⟩

/-! ## SEND_COMMAND and SEND_DATA -/

/-- The lines with a mode-select level driven. -/
def Lines.driven (m : Bool) (l : Lines) : Lines :=
  { dc := { dir := l.dc.dir, level := if m then .high else .low }, rst := l.rst }

theorem event_tx_driven (k : Params) (w : WireByte) (l : Lines) (p : Panel) :
    p.event k (l.driven w.1) (.tx w.2) = if l.dc.dir = .output then p.receive k l.rst w else p.any := by
  obtain ⟨m, b⟩ := w
  rcases l with ⟨⟨_ | _, level⟩, rst⟩ <;> cases m <;> rfl

/-- The state after a byte that was sent, whole. -/
theorem sentState_eq (w : WireByte) (s : State) : sentState w s = { s with
    E := { s.E with seq := s.E.seq + 1 }
    L := s.L.driven w.1
    trace := s.trace ++ [.level .dc w.1, .tx w.2]
    P := if s.L.dc.dir = .output then s.P.receive s.params s.L.rst w else s.P.any
    oracle := s.oracle.rest } := by
  rw [← event_tx_driven]
  simp [sentState, setLine, emit, takeAnswer, countByte, Panel.event, Lines.driven]

/-- The state after a byte that failed, whole. -/
theorem failedState_eq (w : WireByte) (f : TransportFailure) (s : State) : failedState w f s = { s with
    E := { s.E with seq := s.E.seq + 1 }
    L := s.L.driven w.1
    trace := s.trace ++ [.level .dc w.1, .txFail w.2 f]
    P := { s.P.any with lost := true }
    oracle := s.oracle.rest } := by
  simp [failedState, setLine, emit, takeAnswer, countByte, Panel.event, Lines.driven]

/-- Settles O30: each primitive is one byte sent, its mode-select level by the primitive. -/
theorem sendPrimitivesDriveTheModeThenTheByte : Obligations.SendPrimitivesDriveTheModeThenTheByte := by
  intro s b m i hb hh hi
  have run : exec i s = concludeCall (send (m, b) s) := by
    rcases hi with ⟨rfl, rfl⟩ | ⟨rfl, rfl⟩
    · exact callSend_of_handle hb hh (cmd b)
    · exact callSend_of_handle hb hh (dat b)
  refine ⟨fun h => ?_, fun f h => ?_, fun h => ?_⟩
  · rw [run, send_ok h, sentState_eq]
    rfl
  · rw [run, send_err h, failedState_eq]
    rfl
  · rw [run, send_never h]
    rfl

/-! ## CONFIGURE -/

theorem rstLow_le (n : Nat) : 100000 ≤ Config.rstLowMin + Config.extraWait n := Nat.le_add_right _ _

theorem rstHigh_le (n : Nat) : 100000 ≤ Config.rstHighMin + Config.extraWait n := Nat.le_add_right _ _

theorem execConfigure_invalid {s : State} {cfg : Option DisplayConfig} (hb : s.E.busy = false)
    (hbus : s.T.bus = .free) (h : cfg = none ∨ ∃ c, cfg = some c ∧ c.clockHz = 0) :
    execConfigure cfg s = .next { s with ret := some (.err .configError) } := by
  rw [execConfigure_of_free hb (by simp [hbus]), configure, validConfig_eq_none.2 h]
  rfl

/-- Settles O32: both requests answered Ok. -/
theorem configurePulsesResetThenAttaches : Obligations.ConfigurePulsesResetThenAttaches := by
  intro s c hb hc hbus ho
  have h0 : s.oracle.next = .ok := ho 0 (by decide)
  have h1 : s.oracle.rest.next = .ok := ho 1 (by decide)
  refine ⟨_, _, rstLow_le s.waits, rstHigh_le (s.waits + 1), ?_⟩
  show execConfigure (some c) s = _
  rw [execConfigure_of_free hb (by simp [hbus]), configure_some hc, h0, h1, resetPanel_eq]
  simp [emit, takeAnswer, resetEvents, Panel.event]

/-- Settles O33: the check, then each of the two requests that can fail. -/
theorem configureFailsWithoutLeakingTheBus : Obligations.ConfigureFailsWithoutLeakingTheBus := by
  refine ⟨fun s cfg hb hbus h => execConfigure_invalid hb hbus h,
    fun s c f hb hc hbus => ⟨fun h0 => ?_, fun h0 h1 => ?_⟩⟩
  · refine ⟨_, _, rstLow_le s.waits, rstHigh_le (s.waits + 1), ?_⟩
    show execConfigure (some c) s = _
    rw [answerAt_zero] at h0
    rw [execConfigure_of_free hb (by simp [hbus]), configure_some hc, h0, resetPanel_eq]
    rfl
  · refine ⟨_, _, rstLow_le s.waits, rstHigh_le (s.waits + 1), ?_⟩
    show execConfigure (some c) s = _
    rw [answerAt_zero] at h0
    rw [answerAt_succ, answerAt_zero] at h1
    rw [execConfigure_of_free hb (by simp [hbus]), configure_some hc, h0, h1, resetPanel_eq]
    simp [emit, takeAnswer, resetEvents, Panel.event, ← hbus]

end Sys2Proof.Machine
end

section
/-! SUPPORT. BEGIN with a valid configuration, whole, by what its 41 requests are answered (41_engine.md R141 to R143,
60_exceptions.md R236): the bus set-up, the attachment and the 39 bytes of INIT_SEQ, each of which may fail or hang. -/

namespace Sys2Proof.Machine

section Bus
variable {s : State} {c : DisplayConfig} (hf : s.E.fsm = .uninitialized) (hb : s.E.busy = false) (hc : 0 < c.clockHz)
include hf hb hc

theorem begin_busInit_never (h0 : s.oracle.answerAt 0 = .never) :
    execBegin (some c) s = .next { s with
      E := { s.E with fsm := .configuring, cfg := some c, seq := 0, busy := true }
      L := { dc := { dir := .output, level := s.L.dc.level }, rst := ⟨.output, .high⟩ }
      trace := s.trace ++ resetEvents s.waits
      P := s.P.any.postReset
      waits := s.waits + 2 } := by
  have h0' : (setFsm .resetting (setCfg c (start s))).oracle.next = .never := h0
  rw [begin_some hf hb hc, bringUp, configure_some hc, h0', resetPanel_eq]
  rfl

theorem begin_busInit_err {f : TransportFailure} (h0 : s.oracle.answerAt 0 = .err f) :
    execBegin (some c) s = .next { s with
      E := { s.E with
        fsm := .uninitialized, cfg := some c, seq := 0, displayOn := false, busy := false
        status := .err (.busError f) }
      L := { dc := { dir := .output, level := s.L.dc.level }, rst := ⟨.output, .high⟩ }
      trace := s.trace ++ resetEvents s.waits
      P := s.P.any.postReset
      waits := s.waits + 2
      oracle := s.oracle.drop 1 } := by
  have h0' : (setFsm .resetting (setCfg c (start s))).oracle.next = .err f := h0
  rw [begin_some hf hb hc, bringUp, configure_some hc, h0', resetPanel_eq]
  rfl

theorem begin_attach_never (h0 : s.oracle.answerAt 0 = .ok) (h1 : s.oracle.answerAt 1 = .never) :
    execBegin (some c) s = .next { s with
      E := { s.E with fsm := .configuring, cfg := some c, seq := 0, busy := true }
      L := { dc := { dir := .output, level := s.L.dc.level }, rst := ⟨.output, .high⟩ }
      T := { s.T with bus := .allocated }
      trace := s.trace ++ resetEvents s.waits ++ [.busInit]
      P := s.P.any.postReset
      waits := s.waits + 2
      oracle := s.oracle.drop 1 } := by
  have h0' : (setFsm .resetting (setCfg c (start s))).oracle.next = .ok := h0
  have h1' : (setFsm .resetting (setCfg c (start s))).oracle.rest.next = .never := h1
  rw [begin_some hf hb hc, bringUp, configure_some hc, h0', h1', resetPanel_eq]
  rfl

theorem begin_attach_err {f : TransportFailure} (h0 : s.oracle.answerAt 0 = .ok) (h1 : s.oracle.answerAt 1 = .err f) :
    execBegin (some c) s = .next { s with
      E := { s.E with
        fsm := .uninitialized, cfg := some c, seq := 0, displayOn := false, busy := false
        status := .err (.busError f) }
      L := { dc := { dir := .output, level := s.L.dc.level }, rst := ⟨.output, .high⟩ }
      T := { s.T with bus := .free }
      trace := s.trace ++ resetEvents s.waits ++ [.busInit, .busFree]
      P := s.P.any.postReset
      waits := s.waits + 2
      oracle := s.oracle.drop 2 } := by
  have h0' : (setFsm .resetting (setCfg c (start s))).oracle.next = .ok := h0
  have h1' : (setFsm .resetting (setCfg c (start s))).oracle.rest.next = .err f := h1
  rw [begin_some hf hb hc, bringUp, configure_some hc, h0', h1', resetPanel_eq]
  simp [emit, takeAnswer, Panel.event, abandon, setFsm, setCfg, start, setDisplayOn, finish]

end Bus

/-- Settles O39: no handle was stored and the bus was free, so the failing request leaves both so. -/
theorem beginThatFailsAtTheBusEndsUninitialized : Obligations.BeginThatFailsAtTheBusEndsUninitialized := by
  intro s c f hf hb hh hc hbus
  refine ⟨fun h0 => ⟨_, _, rstLow_le s.waits, rstHigh_le (s.waits + 1), ?_⟩,
    fun h0 h1 => ⟨_, _, rstLow_le s.waits, rstHigh_le (s.waits + 1), ?_⟩⟩
  · show execBegin (some c) s = _
    rw [begin_busInit_err hf hb hc h0]
    simp [hb, hh, resetEvents]
  · show execBegin (some c) s = _
    rw [begin_attach_err hf hb hc h0 h1]
    simp [hb, hh, ← hbus, resetEvents]

/-! ## The bytes of INIT_SEQ -/

/-- PANEL once the first k bytes of INIT_SEQ have arrived after the reset pulse. -/
def panelAfterInit (k : Params) (n : Nat) (p : Panel) : Panel :=
  (((initSeq k).take n).map cmd).foldl (fun p w => p.receive k ⟨.output, .high⟩ w) p.any.postReset

/-- What an ANY makes of PANEL depends on the number of draws alone, but for the loss. -/
theorem any_with_lost {p q : Panel} (h : p.draws = q.draws) (b : Bool) :
    { p.any with lost := b } = { q.any with lost := b } := by
  simp [Panel.any, h]

theorem panelAfterInit_any (k : Params) (n : Nat) (p : Panel) :
    { (panelAfterInit k n p).any with lost := true } =
      { ({ p with draws := p.draws + 2 } : Panel).any with lost := true } := by
  refine any_with_lost ?_ true
  have quiet := (initSeq_prefix_quiet k p.any n).1
  rw [← List.map_take] at quiet
  exact quiet

/-- Command bytes leave mode-select low. -/
theorem dcAfter_commands (l : LineLevel) {bytes : List Byte} (h : bytes ≠ []) : dcAfter l (bytes.map cmd) = .low := by
  obtain ⟨init, b, rfl⟩ := (List.eq_nil_or_concat' bytes).resolve_left h
  rw [List.map_append, dcAfter_append]
  rfl

section Bytes
variable {s : State} {c : DisplayConfig} (hf : s.E.fsm = .uninitialized) (hb : s.E.busy = false) (hc : 0 < c.clockHz)
include hf hb hc

theorem begin_byte_never {k : Nat} (hk : k < 39) (ho : s.oracle.allOk (k + 2))
    (hn : s.oracle.answerAt (k + 2) = .never) :
    execBegin (some c) s = .next { s with
      E := { s.E with fsm := .configuring, cfg := some c, handle := true, seq := k, busy := true }
      L := { dc := ⟨.output, .low⟩, rst := ⟨.output, .high⟩ }
      T := { bus := .allocated, dev := .attached c.clockHz 0 }
      trace := s.trace ++ (resetEvents s.waits ++ [.busInit, .attach c.clockHz 0]) ++
        sent (((initSeq s.params).take k).map cmd) ++ [.level .dc false]
      P := panelAfterInit s.params k s.P
      waits := s.waits + 2
      oracle := s.oracle.drop (k + 2) } := by
  have hn' : (s.oracle.drop (k + 2)).next = .never := (answerAt_add s.oracle (k + 2) 0).symm.trans hn
  rw [begin_at hf hb hc hk ho, send_never hn']
  rfl

theorem begin_byte_err {k : Nat} {f : TransportFailure} (hk : k < 39) (ho : s.oracle.allOk (k + 2))
    (hn : s.oracle.answerAt (k + 2) = .err f) :
    execBegin (some c) s = .next { s with
      E := { s.E with
        fsm := .uninitialized, cfg := some c, handle := false, seq := 0, displayOn := false, busy := false
        status := .err (.busError f) }
      L := { dc := ⟨.output, .low⟩, rst := ⟨.output, .high⟩ }
      T := { bus := .free, dev := .detached }
      trace := s.trace ++ (resetEvents s.waits ++ [.busInit, .attach c.clockHz 0]) ++
        sent (((initSeq s.params).take k).map cmd) ++
        [.level .dc false, .txFail ((initSeq s.params).getD k 0) f, .detach, .busFree]
      P := { ({ s.P with draws := s.P.draws + 2 } : Panel).any with lost := true }
      waits := s.waits + 2
      oracle := s.oracle.drop (k + 3) } := by
  have hn' : (s.oracle.drop (k + 2)).next = .err f := (answerAt_add s.oracle (k + 2) 0).symm.trans hn
  have hdrop : (s.oracle.drop (k + 2)).rest = s.oracle.drop (k + 3) := (drop_add s.oracle (k + 2) 1).symm
  rw [begin_at hf hb hc hk ho, send_err hn', failedState_eq, ← panelAfterInit_any s.params k, ← hdrop]
  simp [emit, rollBack, abandon, setFsm, setDisplayOn, setHandle, detach, busFree, finish, Panel.event, Lines.driven,
    panelAfterInit]

theorem begin_allOk (ho : s.oracle.allOk 41) :
    execBegin (some c) s = .next { s with
      E := { s.E with
        fsm := .ready, cfg := some c, handle := true, seq := 0, displayOn := true, busy := false, status := .ok }
      L := { dc := ⟨.output, .low⟩, rst := ⟨.output, .high⟩ }
      T := { bus := .allocated, dev := .attached c.clockHz 0 }
      trace := s.trace ++ (resetEvents s.waits ++ [.busInit, .attach c.clockHz 0]) ++
        sent ((initSeq s.params).map cmd)
      P := panelAfterInit s.params 39 s.P
      waits := s.waits + 2
      oracle := s.oracle.drop 41 } := by
  have length : ((initSeq s.params).map cmd).length = 39 := by rw [List.length_map, initSeq_length]
  have bytes : (s.oracle.drop 2).allOk ((initSeq s.params).map cmd).length :=
    length ▸ ((allOk_add s.oracle 2 39).1 ho).2
  have whole : (initSeq s.params).take 39 = initSeq s.params := List.take_of_length_le (initSeq_length _).le
  rw [begin_ok hf hb hc (ho 0 (by decide)) (ho 1 (by decide)), sendInitSeq, sendUntilError_allOk _ _ bytes,
    sendAll_allOk _ _ bytes rfl, length, ← drop_add s.oracle 2 39,
    dcAfter_commands _ (by simp [initSeq]), panelAfterInit, whole, onError_ok, ifOk_ok, conclude_returned]
  simp [finish, setDisplayOn, setFsm]

end Bytes

theorem cmd_eq : cmd = fun b => (false, b) := rfl

theorem exec_begin (cfg : Option DisplayConfig) (s : State) : exec (.begin cfg) s = execBegin cfg s := rfl

/-- Settles O36: no request fails, so the run is CONFIGURE's events and the 39 bytes. -/
theorem beginBringsTheEngineToReady : Obligations.BeginBringsTheEngineToReady := by
  intro s c hf hb hc ho
  refine ⟨_, _, _, begin_allOk hf hb hc ho, rstLow_le s.waits, rstHigh_le (s.waits + 1), ?_, rfl, rfl, ?_, rfl, rfl,
    rfl, rfl, rfl, rfl, rfl, rfl⟩
  · rw [resetEvents, ← List.append_assoc, List.append_assoc s.trace]
    rfl
  · simp [hb]

/-- Settles O38: byte k is the first that is not sent, and its error rolls BEGIN back. -/
theorem beginThatFailsAtAByteRollsBack : Obligations.BeginThatFailsAtAByteRollsBack := by
  intro s c k f hf hb hc hk ho hn
  refine ⟨_, _, rstLow_le s.waits, rstHigh_le (s.waits + 1), ?_⟩
  rw [exec_begin, begin_byte_err hf hb hc hk ho hn]
  simp [hb, resetEvents, cmd_eq]

/-- Settles O48: the bus set-up, the attachment and byte k, each never answered. -/
theorem aBeginThatHangsStaysConfiguring : Obligations.ABeginThatHangsStaysConfiguring := by
  intro s c hf hb hc
  refine ⟨fun h0 => ⟨_, _, rstLow_le s.waits, rstHigh_le (s.waits + 1), begin_busInit_never hf hb hc h0⟩,
    fun h0 h1 => ⟨_, _, rstLow_le s.waits, rstHigh_le (s.waits + 1), ?_⟩,
    fun k hk ho hn => ⟨_, _, rstLow_le s.waits, rstHigh_le (s.waits + 1), ?_⟩⟩
  · rw [exec_begin, begin_attach_never hf hb hc h0 h1]
    simp [resetEvents]
  · rw [exec_begin, begin_byte_never hf hb hc hk ho hn]
    simp [resetEvents, cmd_eq, panelAfterInit]

/-! ## PANEL after INIT_SEQ -/

/-- Whole commands that arrive one after another each run their rule. -/
theorem receive_commands {k : Params} {rst : LineState} (cmds : List (Byte × List Byte)) :
    ∀ p : Panel, p.Hears k rst → p.parse = .idle → (∀ c ∈ cmds, QuietCommand k c) →
      (cmds.flatMap fun c => commandBytes c.1 c.2).foldl (fun p w => p.receive k rst w) p =
        cmds.foldl (fun p c => Panel.command k c.1 c.2 p.dropHalf) p := by
  induction cmds with
  | nil => exact fun _ _ _ _ => rfl
  | cons c rest ih =>
    intro p h hp hq
    obtain ⟨-, ho, i, hc, keeps⟩ := hq c List.mem_cons_self
    obtain ⟨-, lost, busy, parse⟩ := keeps p.dropHalf
    have rule : Panel.command k c.1 c.2 p.dropHalf = p.dropHalf.effect k i := by rw [Panel.command, hc]
    rw [List.flatMap_cons, List.foldl_append, receive_command h hp ho, List.foldl_cons]
    show (rest.flatMap _).foldl _ (Panel.command k c.1 c.2 p.dropHalf) = _
    rw [rule]
    refine ih _ ⟨h.rst, lost.trans h.lost, ?_⟩ (parse.trans hp) fun d hd => hq d (List.mem_cons_of_mem c hd)
    rw [Panel.erasing, busy]
    exact h.busy

/-- The registers of PANEL after INIT_SEQ (10_state.md R43). -/
theorem panelAfterInit_eq (k : Params) (p : Panel) : panelAfterInit k 39 p = { p.any.postReset with
    dispOn := true, dispMode := .normal, remap := k.initRemap, startLine := 0x00#8, offset := 0x00#8, mux := 0x3F#8
    masterCfg := k.initMasterCfg, powerMode := k.initPowerMode, precharge := k.initPrecharge, clkdiv := 0xF0#8
    prechargeA := k.initPrechargeA, prechargeB := k.initPrechargeB, prechargeC := k.initPrechargeC
    prechargeLevel := k.initPrechargeLevel, vcomh := k.initVcomh, masterCurrent := k.initMasterCurrent
    contrastA := k.initContrastA, contrastB := k.initContrastB, contrastC := k.initContrastC, fill := k.initFill } := by
  have whole : (initSeq k).take 39 = initSeq k := List.take_of_length_le (initSeq_length _).le
  have hears : p.any.postReset.Hears k ⟨.output, .high⟩ := ⟨rfl, rfl, by simp [Panel.erasing, Panel.postReset]⟩
  rw [panelAfterInit, whole, initSeq_commands, receive_commands _ _ hears rfl (initCommands_quiet k)]
  rfl

/-- Settles O37: after the pulse each of the 21 commands stores its operand. -/
theorem beginSetsEveryCommandRegister : Obligations.BeginSetsEveryCommandRegister := by
  intro s t c hf hb hc ho hx
  rw [exec_begin, begin_allOk hf hb hc ho, panelAfterInit_eq] at hx
  cases hx
  exact ⟨rfl, rfl, rfl, rfl, rfl, rfl, rfl, rfl, rfl, rfl, rfl, rfl, rfl, rfl, rfl, rfl, rfl, rfl, rfl, rfl,
    ⟨⟨rfl, rfl, by simp [Panel.erasing, Panel.postReset], rfl⟩, rfl, rfl⟩, premise_iff.2 ⟨rfl, rfl⟩, .inl rfl, rfl⟩

end Sys2Proof.Machine
end

section
/-! SUPPORT. The six host operations of `Ready` (41_engine.md R146 to R151, 42_rasterizer.md R173, R177) by TRANSPORT's
answers: every request answered, one never answered, every byte sent. -/

namespace Sys2Proof.Machine

/-! ## The operations as bodies run in `Ready` -/

/-- The display flag after an operation (10_state.md R25). -/
def flagAfter (i : Instr) (v : Bool) : Bool :=
  match i with
  | .turnOn => true
  | .turnOff => false
  | _ => v

theorem flagAfter_other {i : Instr} (hon : i ≠ .turnOn) (hoff : i ≠ .turnOff) (v : Bool) : flagAfter i v = v := by
  cases i
  case turnOn => exact absurd rfl hon
  case turnOff => exact absurd rfl hoff
  all_goals rfl

/-- The display flag written as the operation does. -/
def setFlag (i : Instr) (s : State) : State := setDisplayOn (flagAfter i s.E.displayOn) s

/-- The latches DRAW_CHAR loads (10_state.md R26). -/
def glyphLatch (x y id : Nat) (color : Color) (l : Latch) : Latch :=
  { l with x := x, y := y, charId := id, color := color }

/-- The latches DRAW_STRING loads, the cursor at its start (10_state.md R26). -/
def textLatch (x y : Nat) (text : List CodePoint) (color : Color) (l : Latch) : Latch :=
  { l with x := x, y := y, color := color, curX := x, curY := y, text := text, textPos := 0 }

/-- The body of a host operation of `Ready`. -/
def readyBody (i : Instr) (s : State) : Run :=
  match i with
  | .turnOn => (sendAll turnOnBytes s).thenDo (setDisplayOn true)
  | .turnOff => (sendAll turnOffBytes s).thenDo (setDisplayOn false)
  | .clearWindow => sendAll clearWindowBytes s
  | .setPixel x y color =>
    sendAll (setPixelBytes x y color) (setLatch (fun l => { l with x := x.toNat, y := y.toNat, color := color }) s)
  | .drawChar x y id color =>
    drawCharBody x y id color (setLatch (glyphLatch x y id color) s)
  | .drawString x y text color =>
    drawText color text (setLatch (textLatch x y text color) s)
  | _ => .returned .ok s

/-- Where an operation sends bytes in `Ready`, it is its body from the start. -/
theorem exec_ready {k : Params} {i : Instr} {bytes : List WireByte} {s : State} (hr : s.readyIdle)
    (hb : readyBytes k i = some bytes) : exec i s = conclude (readyBody i (start s)) := by
  cases i
  case turnOn => exact whenReady_of_ready hr (readyBody .turnOn)
  case turnOff => exact whenReady_of_ready hr (readyBody .turnOff)
  case clearWindow => exact whenReady_of_ready hr (readyBody .clearWindow)
  case setPixel x y color => exact whenReady_of_ready hr (readyBody (.setPixel x y color))
  case drawChar x y id color => exact whenReady_of_ready hr (readyBody (.drawChar x y id color))
  case drawString x y text color => exact whenReady_of_ready hr (readyBody (.drawString x y text color))
  all_goals cases hb

/-- DRAW_CHAR with an id of no glyph (42_rasterizer.md R175). -/
def drawsNoGlyph (i : Instr) : Prop := ∃ x y id color, i = .drawChar x y id color ∧ Config.nGlyph ≤ id

/-- DRAW_STRING. -/
def drawsText (i : Instr) : Prop := ∃ x y text color, i = .drawString x y text color

theorem thenDo_setFlag {i : Instr} (h : ∀ v, flagAfter i v = v) (run : Run) : run.thenDo (setFlag i) = run := by
  have same (s : State) : setFlag i s = s := by simp [setFlag, h, setDisplayOn]
  cases run with
  | hung s => rfl
  | returned r s => rw [thenDo_returned, same]

/-- Every other operation loads its latches, sends its bytes best-effort and writes the flag. -/
theorem readyBody_sends {k : Params} {i : Instr} {bytes : List WireByte} (hb : readyBytes k i = some bytes)
    (hg : ¬ drawsNoGlyph i) (ht : ¬ drawsText i) :
    ∃ f, ∀ s : State, s.params = k → readyBody i s = (sendAll bytes (setLatch f s)).thenDo (setFlag i) := by
  cases i
  case turnOn => cases hb; exact ⟨id, fun _ _ => rfl⟩
  case turnOff => cases hb; exact ⟨id, fun _ _ => rfl⟩
  case clearWindow => cases hb; exact ⟨id, fun _ _ => (thenDo_setFlag (fun _ => rfl) _).symm⟩
  case setPixel x y color => cases hb; exact ⟨_, fun _ _ => (thenDo_setFlag (fun _ => rfl) _).symm⟩
  case drawChar x y id color =>
    cases hb
    have hid : id < Config.nGlyph := Nat.lt_of_not_le fun h => hg ⟨x, y, id, color, rfl, h⟩
    refine ⟨glyphLatch x y id color, fun s hk => ?_⟩
    rw [readyBody, drawCharBody_valid hid, thenDo_setFlag fun _ => rfl, setLatch_params, hk]
  case drawString x y text color => exact absurd ⟨x, y, text, color, rfl⟩ ht
  all_goals cases hb

/-- DRAW_CHAR of no glyph sends nothing; its result is ArgumentError where STRICT_ARGS holds (42_rasterizer.md R175). -/
theorem readyBody_noGlyph {id : Nat} (hid : Config.nGlyph ≤ id) (x y : Nat) (color : Color) (s : State) :
    readyBody (.drawChar x y id color) s =
      .returned (if s.params.strictArgs then .err .argumentError else .ok)
        (setLatch (glyphLatch x y id color) s) := by
  cases h : s.params.strictArgs <;> simp [readyBody, drawCharBody, hid, raise, h]

/-- DRAW_STRING loads its latches and draws from the cursor they hold. -/
theorem readyBody_text (x y : Nat) (text : List CodePoint) (color : Color) (s : State) :
    readyBody (.drawString x y text color) s = drawText color text (setLatch (textLatch x y text color) s) := rfl

theorem level_of_decodeRequest {r : Request} {i : Instr} (h : decodeRequest r = .ok i) : i.level ≠ .wire := by
  unfold decodeRequest at h
  split at h <;> cases h <;> exact nofun

theorem readyBytes_noGlyph {k : Params} {id : Nat} (hid : Config.nGlyph ≤ id) (x y : Nat) (color : Color) :
    readyBytes k (.drawChar x y id color) = some [] := by
  simp [readyBytes, drawCharBytes, hid]

theorem readyResult_noGlyph {id : Nat} (hid : Config.nGlyph ≤ id) (k : Params) (o : Oracle) (x y : Nat)
    (color : Color) :
    readyResult k o (.drawChar x y id color) 0 = if k.strictArgs then .err .argumentError else .ok := by
  cases h : k.strictArgs <;> simp [readyResult, hid, h, Oracle.firstError]

/-- The result is the first error among the answers, but for DRAW_CHAR of no glyph. -/
theorem readyResult_eq_firstError {i : Instr} (h : ¬ drawsNoGlyph i) (k : Params) (o : Oracle) (n : Nat) :
    readyResult k o i n = o.firstError n := by
  cases i
  case drawChar x y id color =>
    have hid : ¬ Config.nGlyph ≤ id := fun hid => h ⟨x, y, id, color, rfl, hid⟩
    simp [readyResult, hid]
  all_goals rfl

/-! ## Every request answered (41_engine.md R151) -/

theorem DrawFrame.of_setLatch {s u : State} {f : Latch → Latch} {n : Nat} (h : DrawFrame (setLatch f s) u n) :
    DrawFrame s u n := by
  have both := (setLatch_frame f s).trans h
  rwa [Nat.zero_add] at both

/-- A host operation of `Ready`, every request answered: its bytes are attempted, and beside the lines and PANEL only
the latches, the display flag and the status change. -/
theorem exec_ready_answered {s : State} {i : Instr} {bytes : List WireByte} (hr : s.readyIdle)
    (hb : readyBytes s.params i = some bytes) (h : s.oracle.allAnswered bytes.length) :
    ∃ u, exec i s = .next (finish (readyResult s.params s.oracle i bytes.length) (setFlag i u)) ∧
      u.trace = s.trace ++ attempts s.oracle bytes ∧ DrawFrame (start s) u bytes.length := by
  rw [exec_ready hr hb]
  by_cases hg : drawsNoGlyph i
  · obtain ⟨x, y, id, color, rfl, hid⟩ := hg
    cases (readyBytes_noGlyph hid x y color).symm.trans hb
    refine ⟨setLatch (glyphLatch x y id color) (start s), ?_, (List.append_nil _).symm, setLatch_frame _ _⟩
    rw [readyBody_noGlyph hid, List.length_nil, readyResult_noGlyph hid]
    rfl
  by_cases ht : drawsText i
  · obtain ⟨x, y, text, color, rfl⟩ := ht
    cases hb
    obtain ⟨u, hu, htrace, hframe⟩ := drawText_answered color text (setLatch (textLatch x y text color) (start s)) h
    refine ⟨u, ?_, htrace, hframe.of_setLatch⟩
    rw [readyBody_text, hu]
    rfl
  · obtain ⟨f, hbody⟩ := readyBody_sends hb hg ht
    obtain ⟨u, hu, htrace, hframe⟩ := sendAll_answered bytes (setLatch f (start s)) h
    refine ⟨u, ?_, htrace, hframe.draw.of_setLatch⟩
    rw [hbody (start s) rfl, hu, readyResult_eq_firstError hg]
    rfl

/-- Settles O46: the frame of the sends, read through `finish`. -/
theorem everyByteIsAttemptedAndTheFirstErrorReported : Obligations.EveryByteIsAttemptedAndTheFirstErrorReported := by
  intro s i bytes hr hb h
  obtain ⟨u, hx, htrace, hframe⟩ := exec_ready_answered hr hb h
  obtain ⟨l, hE⟩ := hframe.E
  refine ⟨_, hx, htrace, rfl, ?_, rfl, rfl, ?_, ?_, fun h1 h2 => ?_, hframe.T, hframe.rst, hframe.oracle, hframe.waits,
    hframe.ret, hframe.inbox, hframe.wireIn, hframe.params⟩
  · simp [setFlag, hE, hr.1]
  · simp [setFlag, hE]
  · simp [setFlag, hE]
  · simp [setFlag, hE, flagAfter_other h1 h2]

/-! ## A request never answered (60_exceptions.md R236) -/

/-- A host operation of `Ready` that hangs: the bytes before were attempted, and of ENGINE only the latches, the
sequencer index and the busy bit differ. -/
theorem exec_ready_never {s : State} {i : Instr} {bytes : List WireByte} (hr : s.readyIdle)
    (hb : readyBytes s.params i = some bytes) (h : ¬ s.oracle.allAnswered bytes.length) :
    ∃ u l n, exec i s = .next (hang u) ∧ u.trace = s.trace ++ attempts s.oracle bytes ∧
      u.E = { s.E with latch := l, seq := n, busy := true } := by
  rw [exec_ready hr hb]
  by_cases hg : drawsNoGlyph i
  · obtain ⟨x, y, id, color, rfl, hid⟩ := hg
    cases (readyBytes_noGlyph hid x y color).symm.trans hb
    exact absurd nofun h
  by_cases ht : drawsText i
  · obtain ⟨x, y, text, color, rfl⟩ := ht
    cases hb
    obtain ⟨u, n, l, hu, htrace, hE⟩ := drawText_never color text (setLatch (textLatch x y text color) (start s)) h
    refine ⟨u, l, _, ?_, htrace, hE⟩
    rw [readyBody_text, hu]
    rfl
  · obtain ⟨f, hbody⟩ := readyBody_sends hb hg ht
    obtain ⟨u, n, hu, htrace, hE⟩ := sendAll_never bytes (setLatch f (start s)) h
    refine ⟨u, _, _, ?_, htrace, hE⟩
    rw [hbody (start s) rfl, hu]
    rfl

/-- Settles O47: the body stops at the request that is never answered; then the busy bit refuses what is presented. -/
theorem anOperationThatHangsBlocksTheEngine : Obligations.AnOperationThatHangsBlocksTheEngine := by
  refine ⟨fun s i bytes hr hb h => ?_, fun t hbusy hw => ⟨fun hi => step_nothing hw hi hbusy, ?_, ?_⟩⟩
  · obtain ⟨u, l, n, hx, htrace, hE⟩ := exec_ready_never hr hb h
    exact ⟨_, hx, htrace, rfl, by simp [hE, hr.1], by simp [hE]⟩
  · intro r rest i hi hd hl
    rw [step_host hw hi hd (by simp [hl])]
    exact exec_host_busy hl hbusy
  · intro r rest i hi hd
    rw [step_call hw hi hd]
    exact requestsWhileBusyAreRefused _ i hbusy (level_of_decodeRequest hd)

/-! ## Every byte sent -/

theorem firstError_allOk {o : Oracle} {n : Nat} (h : o.allOk n) : o.firstError n = .ok := by
  induction n generalizing o with
  | zero => rfl
  | succ n ih =>
    obtain ⟨h0, hr⟩ := (allOk_succ o n).1 h
    simp [Oracle.firstError, h0, ih hr]

/-- A host operation of `Ready`, every byte sent: PANEL received them, in order. -/
theorem exec_ready_allOk {s : State} {i : Instr} {bytes : List WireByte} (hr : s.readyIdle)
    (hb : readyBytes s.params i = some bytes) (hdc : s.L.dc.dir = .output) (h : s.oracle.allOk bytes.length) :
    ∃ l, exec i s = .next { s with
      E := { s.E with
        latch := l, displayOn := flagAfter i s.E.displayOn, seq := 0
        status := readyResult s.params s.oracle i bytes.length }
      L := { s.L with dc := ⟨.output, dcAfter s.L.dc.level bytes⟩ }
      trace := s.trace ++ sent bytes
      P := bytes.foldl (fun p w => p.receive s.params s.L.rst w) s.P
      oracle := s.oracle.drop bytes.length } := by
  rw [exec_ready hr hb]
  by_cases hg : drawsNoGlyph i
  · obtain ⟨x, y, id, color, rfl, hid⟩ := hg
    cases (readyBytes_noGlyph hid x y color).symm.trans hb
    refine ⟨glyphLatch x y id color s.E.latch, ?_⟩
    rw [readyBody_noGlyph hid, start_params, List.length_nil, readyResult_noGlyph hid]
    simp [finish, setLatch, start, flagAfter, hr.2, ← hdc, dcAfter, sent]
  by_cases ht : drawsText i
  · obtain ⟨x, y, text, color, rfl⟩ := ht
    cases hb
    obtain ⟨l, -, -, hu⟩ := drawText_allOk color text (setLatch (textLatch x y text color) (start s)) h hdc
    refine ⟨l, ?_⟩
    rw [readyBody_text, hu, readyResult_eq_firstError hg, firstError_allOk h]
    simp [finish, setLatch, textLatch, start, flagAfter, hr.2, hdc]
  · obtain ⟨f, hbody⟩ := readyBody_sends hb hg ht
    refine ⟨f s.E.latch, ?_⟩
    rw [hbody (start s) rfl, sendAll_allOk bytes (setLatch f (start s)) h hdc, readyResult_eq_firstError hg,
      firstError_allOk h]
    simp [finish, setFlag, setDisplayOn, setLatch, start, hr.2, hdc]

end Sys2Proof.Machine
end

section
/-! SUPPORT. TURN_ON, TURN_OFF, SET_PIXEL and CLEAR_WINDOW at PANEL (41_engine.md R146 to R150). -/

namespace Sys2Proof.Machine

/-- PANEL in step with the engine (70_reset_and_hazards.md R268), as a property of PANEL and the reset line. -/
structure Panel.InStep (k : Params) (rst : LineState) (p : Panel) : Prop where
  hears : p.Hears k rst
  idle : p.parse = .idle
  noHalf : p.pixHi = none

theorem panel_inStep {s : State} (h : s.inStep) : s.P.InStep s.params s.L.rst :=
  ⟨hears_of h.1, h.1.2.2.2, h.2.2⟩

theorem inStep_of_panel {s : State} (h : s.P.InStep s.params s.L.rst) (hdc : s.L.dc.dir = .output) : s.inStep :=
  ⟨⟨h.hears.rst, h.hears.lost, h.hears.busy, h.idle⟩, hdc, h.noHalf⟩

theorem dropHalf_of_inStep {k : Params} {rst : LineState} {p : Panel} (h : p.InStep k rst) : p.dropHalf = p := by
  rw [Panel.dropHalf, ← h.noHalf]

/-! ## TURN_ON and TURN_OFF -/

/-- DISPLAY_ON or DISPLAY_OFF. -/
def turnByte (v : Bool) : Byte := if v then 0xAF#8 else 0xAE#8

theorem exec_turn {s : State} (hr : s.readyIdle) (v : Bool) :
    exec (if v then .turnOn else .turnOff) s =
      conclude ((send (false, turnByte v) (start s)).thenDo (setDisplayOn v)) := by
  rw [← both_returned_ok (send (false, turnByte v) (start s))]
  cases v
  · exact exec_ready (k := s.params) (i := .turnOff) hr rfl
  · exact exec_ready (k := s.params) (i := .turnOn) hr rfl

theorem receive_turn {p : Panel} {k : Params} {rst : LineState} (h : p.Hears k rst) (hp : p.parse = .idle)
    (v : Bool) : p.receive k rst (false, turnByte v) = { p.dropHalf with dispOn := v } := by
  cases v
  · exact receive_command (op := 0xAE#8) (args := []) h hp rfl
  · exact receive_command (op := 0xAF#8) (args := []) h hp rfl

/-- Settles O42: the one byte by its answer; the flag is written unless the byte hangs. -/
theorem turnOnAndOffSendOneByte : Obligations.TurnOnAndOffSendOneByte := by
  intro s v hr hdc i b lines
  have run : exec i s = _ := exec_turn hr v
  have driven : s.L.driven false = lines := by simp [Lines.driven, lines, hdc]
  refine ⟨fun h hh => ?_, fun f h => ?_, fun h => ?_⟩
  · rw [run, send_ok (s := start s) h, sentState_eq]
    simp only [start_L, start_P, start_params, driven, hdc, if_true, receive_turn (hears_of hh) hh.2.2.2]
    simp [finish, setDisplayOn, start, hr.2, b, turnByte]
  · rw [run, send_err (s := start s) h, failedState_eq]
    simp only [start_L, driven]
    simp [finish, setDisplayOn, start, hr.2, b, turnByte]
  · rw [run, send_never (s := start s) h, ← driven]
    rfl

/-! ## SET_PIXEL -/

/-- PANEL with window and pointer at one cell. -/
def Panel.atCell (x y : Byte) (p : Panel) : Panel :=
  { p with colStart := x, colEnd := x, ptrCol := x, rowStart := y, rowEnd := y, ptrRow := y, windowFresh := false }

theorem atCell_windowInRange {p : Panel} {x y : Byte} :
    (p.atCell x y).windowInRange = true ↔ x.toNat ≤ 95 ∧ y.toNat ≤ 63 := by
  simp only [Panel.windowInRange, Panel.boundsInRange, Bool.and_eq_true, decide_eq_true_eq, BitVec.le_def]
  simp only [Panel.atCell, Config.width, Config.height]
  omega

section Cell
variable {p : Panel} {k : Params} {rst : LineState} (h : p.InStep k rst)
include h

theorem receive_setPixel (x y : Byte) (color : Color) :
    (setPixelBytes x y color).foldl (fun p w => p.receive k rst w) p =
      if (p.atCell x y).windowInRange then ((p.atCell x y).storePixel k color).advancePointer
      else (p.atCell x y).gramAny :=
  setPixel_foldl h.hears h.idle h.noHalf x y color

theorem receive_setPixel_onPanel {x y : Byte} (hp : p.premise k = true) (hx : x.toNat ≤ 95) (hy : y.toNat ≤ 63)
    (color : Color) : (setPixelBytes x y color).foldl (fun p w => p.receive k rst w) p =
      { p.atCell x y with gram := p.gram.writePixel x.toNat y.toNat color } := by
  rw [receive_setPixel h, if_pos (atCell_windowInRange.2 ⟨hx, hy⟩)]
  exact storePixel_advance x y color hp

theorem receive_setPixel_offPanel {x y : Byte} (hxy : 95 < x.toNat ∨ 63 < y.toNat) (color : Color) :
    (setPixelBytes x y color).foldl (fun p w => p.receive k rst w) p = (p.atCell x y).gramAny := by
  rw [receive_setPixel h, if_neg (mt atCell_windowInRange.1 (by omega))]

end Cell

/-- Settles O43: on the panel the pixel's cell is written and the pointer stays. -/
theorem setPixelSendsEightBytesAndWritesOneCell : Obligations.SetPixelSendsEightBytesAndWritesOneCell := by
  intro s x y color hr hs hp hm ho hx hy
  have on : x.toNat < Config.width ∧ y.toNat < Config.height := by
    simp only [Config.width, Config.height]
    omega
  have run := exec_setPixel x y color hr hs.2.1 ho
  rw [receive_setPixel_onPanel (panel_inStep hs) hp hx hy] at run
  exact ⟨_, _, run, paints_writePixel hm on.1 on.2 color⟩

/-- Settles O44: off the panel the eight bytes are the same and the RAM is drawn. -/
theorem setPixelOffThePanelIsSentUnchanged : Obligations.SetPixelOffThePanelIsSentUnchanged := by
  intro s x y color hr hs ho hxy
  refine ⟨_, exec_setPixel x y color hr hs.2.1 ho, rfl, rfl, ?_⟩
  exact receive_setPixel_offPanel (panel_inStep hs) hxy color

/-! ## CLEAR_WINDOW -/

theorem receive_clearWindow {p : Panel} {k : Params} {rst : LineState} (h : p.InStep k rst) :
    clearWindowBytes.foldl (fun p w => p.receive k rst w) p =
      { p.erase k 0x00#8 0x00#8 0x5F#8 0x3F#8 with busyClear := decide (k.tClear ≠ 0) || p.busyClear } := by
  have rule : clearWindowBytes.foldl (fun p w => p.receive k rst w) p =
      p.dropHalf.clearWindow k 0x00#8 0x00#8 0x5F#8 0x3F#8 :=
    receive_command (op := 0x25#8) (args := [0x00#8, 0x00#8, 0x5F#8, 0x3F#8]) h.hears h.idle rfl
  rw [rule, dropHalf_of_inStep h, clearWindow_inRange (by decide)]

/-- Settles O45: the erase covers the panel; where a window bound is off it draws the RAM. -/
theorem clearWindowErasesEveryCell : Obligations.ClearWindowErasesEveryCell := by
  intro s hr hs hp ho
  have run : exec .clearWindow s = conclude (sendAll clearWindowBytes (start s)) :=
    exec_ready (k := s.params) hr rfl
  rw [sendAll_allOk clearWindowBytes (start s) ho hs.2.1, start_P, start_params, start_L,
    receive_clearWindow (panel_inStep hs)] at run
  refine ⟨s.P.erase s.params 0x00#8 0x00#8 0x5F#8 0x3F#8, ?_, fun hw => ?_, fun hw => erase_any (.inl hw) _ _ _ _⟩
  · rw [run]
    simp [finish, start, hr.2, hs.2.1, dcAfter, clearWindowBytes, cmd]
  · rw [erase_fills hp hw]
    exact ⟨rfl, fun col row hc hrow => pixel_fillRect_inside _ _ ⟨Nat.zero_le _, Nat.le_of_lt_succ hc⟩
      ⟨Nat.zero_le _, Nat.le_of_lt_succ hrow⟩ hc hrow⟩

end Sys2Proof.Machine
end

section
/-! SUPPORT. Drawing (42_rasterizer.md R172 to R180): every drawing operation is one SET_PIXEL sequence per cell, so
what it sends and what it does at PANEL go by induction on the cells. -/

namespace Sys2Proof.Machine

/-! ## The bytes of a list of cells -/

/-- One SET_PIXEL sequence per cell. -/
def drawBytes (color : Color) (cells : List (Nat × Nat)) : List WireByte :=
  cells.flatMap fun c => setPixelBytes (BitVec.ofNat 8 c.1) (BitVec.ofNat 8 c.2) color

theorem drawBytes_cons (color : Color) (c : Nat × Nat) (cells : List (Nat × Nat)) :
    drawBytes color (c :: cells) =
      setPixelBytes (BitVec.ofNat 8 c.1) (BitVec.ofNat 8 c.2) color ++ drawBytes color cells := rfl

theorem drawBytes_append (color : Color) (cells cells' : List (Nat × Nat)) :
    drawBytes color (cells ++ cells') = drawBytes color cells ++ drawBytes color cells' := List.flatMap_append

theorem drawBytes_length (color : Color) (cells : List (Nat × Nat)) :
    (drawBytes color cells).length = 8 * cells.length := by
  induction cells with
  | nil => rfl
  | cons c rest ih =>
    rw [drawBytes_cons, List.length_append, ih, List.length_cons]
    simp only [setPixelBytes, List.length_cons, List.length_nil]
    omega

theorem setPixelBytes_eq (x y : Byte) (color : Color) :
    setPixelBytes x y color = drawBytes color [(x.toNat, y.toNat)] := by
  simp [drawBytes]

theorem glyphBytes_eq (k : Params) (x y id : Nat) (color : Color) :
    glyphBytes k x y id color = drawBytes color (glyphCells k x y id) := by
  rw [glyphBytes, drawBytes, glyphCells, List.flatMap_map]

theorem drawCharBytes_valid {id : Nat} (h : id < Config.nGlyph) (k : Params) (x y : Nat) (color : Color) :
    drawCharBytes k x y id color = drawBytes color (glyphCells k x y id) := by
  rw [drawCharBytes, if_neg (Nat.not_le.2 h), glyphBytes_eq]

theorem drawCharBytes_invalid {id : Nat} (h : Config.nGlyph ≤ id) (k : Params) (x y : Nat) (color : Color) :
    drawCharBytes k x y id color = [] := if_pos h

theorem drawStringBytes_eq (k : Params) (cx cy : Nat) (color : Color) (text : List CodePoint) :
    drawStringBytes k cx cy color text = drawBytes color (textCells k cx cy text) := by
  induction text generalizing cx with
  | nil => rfl
  | cons ch rest ih =>
    rw [drawStringBytes, textCells]
    cases h : charMap ch with
    | none => exact ih cx
    | some id => simp only [drawCharBytes_valid (charMap_lt h), ih, drawBytes_append]

/-- SET_PIXEL, DRAW_CHAR or DRAW_STRING. -/
def isDrawing (i : Instr) : Prop :=
  (∃ x y color, i = .setPixel x y color) ∨ (∃ x y id color, i = .drawChar x y id color) ∨
    ∃ x y text color, i = .drawString x y text color

/-- A drawing operation sends the bytes of some cells. -/
theorem readyBytes_drawing {k : Params} {i : Instr} {bytes : List WireByte} (hi : isDrawing i)
    (hb : readyBytes k i = some bytes) : ∃ color cells, bytes = drawBytes color cells := by
  rcases hi with ⟨x, y, color, rfl⟩ | ⟨x, y, id, color, rfl⟩ | ⟨x, y, text, color, rfl⟩ <;> cases hb
  · exact ⟨color, _, setPixelBytes_eq x y color⟩
  · by_cases hid : id < Config.nGlyph
    · exact ⟨color, _, drawCharBytes_valid hid k x y color⟩
    · exact ⟨color, [], drawCharBytes_invalid (Nat.le_of_not_lt hid) k x y color⟩
  · exact ⟨color, _, drawStringBytes_eq k x y color text⟩

/-- The operations of `Ready` are TURN_ON, TURN_OFF, CLEAR_WINDOW and the drawing ones. -/
theorem readyBytes_cases {k : Params} {i : Instr} {bytes : List WireByte} (hb : readyBytes k i = some bytes) :
    (∃ v, bytes = [(false, turnByte v)]) ∨ bytes = clearWindowBytes ∨ ∃ color cells, bytes = drawBytes color cells := by
  cases i
  case turnOn => cases hb; exact .inl ⟨true, rfl⟩
  case turnOff => cases hb; exact .inl ⟨false, rfl⟩
  case clearWindow => cases hb; exact .inr (.inl rfl)
  case setPixel x y color => exact .inr (.inr (readyBytes_drawing (.inl ⟨x, y, color, rfl⟩) hb))
  case drawChar x y id color => exact .inr (.inr (readyBytes_drawing (.inr (.inl ⟨x, y, id, color, rfl⟩)) hb))
  case drawString x y text color => exact .inr (.inr (readyBytes_drawing (.inr (.inr ⟨x, y, text, color, rfl⟩)) hb))
  all_goals cases hb

/-! ## Whole units (60_exceptions.md R242) -/

/-- A clamped origin plus an offset of the glyph is no further than column 99 and row 70 (42_rasterizer.md R179). -/
theorem glyphCells_bounds {k : Params} {x y id : Nat} {c : Nat × Nat} (h : c ∈ glyphCells k x y id) :
    c.1 ≤ 99 ∧ c.2 ≤ 70 := by
  obtain ⟨⟨col, row⟩, hp, rfl⟩ := List.mem_map.1 h
  obtain ⟨hcol, -, hrow, -⟩ := (mem_litPixels k id col row).1 hp
  simp only [clampX, clampY, Config.width, Config.height]
  omega

theorem textCells_bounds {k : Params} {cx cy : Nat} {text : List CodePoint} {c : Nat × Nat}
    (h : c ∈ textCells k cx cy text) : c.1 ≤ 99 ∧ c.2 ≤ 70 := by
  induction text generalizing cx with
  | nil => cases h
  | cons ch rest ih =>
    rw [textCells] at h
    cases hc : charMap ch with
    | none =>
      rw [hc] at h
      exact ih h
    | some id =>
      rw [hc] at h
      rcases List.mem_append.1 h with h | h
      · exact glyphCells_bounds h
      · exact ih h

theorem drawBytes_wholeUnits (color : Color) {cells : List (Nat × Nat)} (h : ∀ c ∈ cells, c.1 ≤ 99 ∧ c.2 ≤ 70) :
    ∃ units : List (List WireByte), drawBytes color cells = units.flatten ∧ ∀ u ∈ units, WholeUnit u := by
  refine ⟨_, List.flatMap_def, fun u hu => ?_⟩
  obtain ⟨c, hc, rfl⟩ := List.mem_map.1 hu
  obtain ⟨hx, hy⟩ := h c hc
  refine .pixel _ _ color ?_ ?_
  · rw [BitVec.toNat_ofNat]
    omega
  · rw [BitVec.toNat_ofNat]
    omega

/-- Settles O50: the three commands are one unit each, a glyph and a text one per lit cell. -/
theorem publicOperationsSendWholeUnits : Obligations.PublicOperationsSendWholeUnits := by
  intro k i bytes hp hb
  have single {u : List WireByte} (h : WholeUnit u) :
      ∃ units : List (List WireByte), u = units.flatten ∧ ∀ u ∈ units, WholeUnit u :=
    ⟨[u], by simp, fun v hv => List.mem_singleton.1 hv ▸ h⟩
  cases i
  case turnOn => cases hb; exact single .on
  case turnOff => cases hb; exact single .off
  case clearWindow => cases hb; exact single .clear
  case drawChar x y id color =>
    cases hb
    by_cases hid : id < Config.nGlyph
    · rw [drawCharBytes_valid hid]
      exact drawBytes_wholeUnits color fun c hc => glyphCells_bounds hc
    · exact ⟨[], drawCharBytes_invalid (Nat.le_of_not_lt hid) k x y color, nofun⟩
  case drawString x y text color =>
    cases hb
    rw [drawStringBytes_eq]
    exact drawBytes_wholeUnits color fun c hc => textCells_bounds hc
  case setPixel => cases hp
  all_goals cases hb

/-! ## What drawing changes at PANEL -/

/-- PANEL without what drawing may change: the window, the pointer, the RAM, the counter of draws, the window bit. -/
def Panel.withoutDrawing (p : Panel) : Panel :=
  { p with
    colStart := 0#8, colEnd := 0#8, ptrCol := 0#8, rowStart := 0#8, rowEnd := 0#8, ptrRow := 0#8
    gram := Memory.drawn 0, draws := 0, windowFresh := false }

theorem eq_of_withoutDrawing {p q : Panel} (h : q.withoutDrawing = p.withoutDrawing) : q = { p with
    colStart := q.colStart, colEnd := q.colEnd, ptrCol := q.ptrCol, rowStart := q.rowStart, rowEnd := q.rowEnd
    ptrRow := q.ptrRow, gram := q.gram, draws := q.draws, windowFresh := q.windowFresh } := by
  cases p
  cases q
  simpa [Panel.withoutDrawing] using h

theorem Panel.InStep.of_withoutDrawing {k : Params} {rst : LineState} {p q : Panel} (h : p.InStep k rst)
    (hq : q.withoutDrawing = p.withoutDrawing) : q.InStep k rst := by
  rw [eq_of_withoutDrawing hq]
  exact ⟨⟨h.hears.rst, h.hears.lost, h.hears.busy⟩, h.idle, h.noHalf⟩

theorem premise_of_withoutDrawing {k : Params} {p q : Panel} (h : p.premise k = true)
    (hq : q.withoutDrawing = p.withoutDrawing) : q.premise k = true := by
  rw [eq_of_withoutDrawing hq]
  exact h

theorem receive_setPixel_withoutDrawing {k : Params} {rst : LineState} {p : Panel} (h : p.InStep k rst) (x y : Byte)
    (color : Color) :
    ((setPixelBytes x y color).foldl (fun p w => p.receive k rst w) p).withoutDrawing = p.withoutDrawing := by
  rw [receive_setPixel h]
  split
  · obtain ⟨m, n, hstore⟩ := storePixel_frame k color (p.atCell x y)
    rw [hstore, advancePointer_eq]
    rfl
  · rfl

/-- Drawing changes of PANEL the window, the pointer and the RAM only (41_engine.md R148, 43_wire_commands.md R217). -/
theorem receive_drawBytes_withoutDrawing {k : Params} {rst : LineState} (color : Color) (cells : List (Nat × Nat)) :
    ∀ p : Panel, p.InStep k rst →
      ((drawBytes color cells).foldl (fun p w => p.receive k rst w) p).withoutDrawing = p.withoutDrawing := by
  induction cells with
  | nil => exact fun _ _ => rfl
  | cons c rest ih =>
    intro p h
    rw [drawBytes_cons, List.foldl_append]
    have drawn := receive_setPixel_withoutDrawing h (BitVec.ofNat 8 c.1) (BitVec.ofNat 8 c.2) color
    exact (ih _ (h.of_withoutDrawing drawn)).trans drawn

/-- Settles O52: a drawing operation sends cells, each of which changes no more. -/
theorem drawingTouchesWindowPointerAndRamOnly : Obligations.DrawingTouchesWindowPointerAndRamOnly := by
  intro s t i bytes hr hs hi hb ho hx
  obtain ⟨color, cells, rfl⟩ := readyBytes_drawing hi hb
  obtain ⟨l, run⟩ := exec_ready_allOk hr hb hs.2.1 ho
  cases run.symm.trans hx
  exact ⟨eq_of_withoutDrawing (receive_drawBytes_withoutDrawing color cells _ (panel_inStep hs)), rfl⟩

/-- Settles O49: each of the three commands and each cell leaves the parser idle and no half pixel. -/
theorem operationsKeepThePanelInStep : Obligations.OperationsKeepThePanelInStep := by
  intro s t i bytes hr hs ht hb ho hx
  obtain ⟨l, run⟩ := exec_ready_allOk hr hb hs.2.1 ho
  cases run.symm.trans hx
  have h : s.P.InStep s.params s.L.rst := panel_inStep hs
  suffices stays : (bytes.foldl (fun p w => p.receive s.params s.L.rst w) s.P).InStep s.params s.L.rst from
    inStep_of_panel stays rfl
  rcases readyBytes_cases hb with ⟨v, rfl⟩ | rfl | ⟨color, cells, rfl⟩
  · rw [List.foldl_cons, List.foldl_nil, receive_turn h.hears h.idle]
    exact ⟨⟨h.hears.rst, h.hears.lost, h.hears.busy⟩, h.idle, rfl⟩
  · obtain ⟨m, n, he⟩ := erase_frame s.params s.P 0x00#8 0x00#8 0x5F#8 0x3F#8
    rw [receive_clearWindow h, he]
    exact ⟨⟨h.hears.rst, h.hears.lost, erasing_of_tClear_zero ht _⟩, h.idle, h.noHalf⟩
  · exact h.of_withoutDrawing (receive_drawBytes_withoutDrawing color cells _ h)

/-! ## The cells drawing paints -/

/-- Two cells share no byte. -/
theorem cellAddr_inj {c c' r r' : Nat} (hc : c < Config.width) (hc' : c' < Config.width)
    (h : cellAddr c r = cellAddr c' r') : c = c' ∧ r = r' := by
  simp only [cellAddr, Config.width] at *
  omega

theorem cellAddr_ne_succ (c r c' r' : Nat) : cellAddr c r ≠ cellAddr c' r' + 1 := by
  simp only [cellAddr]
  omega

/-- Painting some cells leaves every other cell of the panel alone. -/
theorem paints_pixel_ne {m m' : Memory} {cells : List (Nat × Nat)} {color : Color} (h : paints m m' cells color)
    (on : onPanel cells) {c : Nat × Nat} (hc : c.1 < Config.width) (hmem : c ∉ cells) :
    m'.pixel c.1 c.2 = m.pixel c.1 c.2 := by
  have other (p : Nat × Nat) (hp : p ∈ cells) : cellAddr c.1 c.2 ≠ cellAddr p.1 p.2 := fun e =>
    hmem (Prod.ext_iff.2 (cellAddr_inj hc (on p hp).1 e) ▸ hp)
  have hi := h.2 (cellAddr c.1 c.2) fun p hp => ⟨other p hp, cellAddr_ne_succ _ _ _ _⟩
  have lo := h.2 (cellAddr c.1 c.2 + 1) fun p hp =>
    ⟨(cellAddr_ne_succ _ _ _ _).symm, fun e => other p hp (Nat.succ.inj e)⟩
  rw [Memory.pixel, Memory.pixel, hi, lo]

/-- A cell painted and then others, which may hit it again with the same colour. -/
theorem paints_cons {m m' m'' : Memory} {c : Nat × Nat} {cells : List (Nat × Nat)} {color : Color}
    (h : paints m m' [c] color) (h' : paints m' m'' cells color) (on : onPanel (c :: cells)) :
    paints m m'' (c :: cells) color := by
  have on_rest : onPanel cells := fun p hp => on p (List.mem_cons_of_mem c hp)
  constructor
  · intro p hp
    by_cases hmem : p ∈ cells
    · exact h'.1 p hmem
    · obtain rfl := (List.mem_cons.1 hp).resolve_right hmem
      rw [paints_pixel_ne h' on_rest (on p hp).1 hmem]
      exact h.1 p List.mem_cons_self
  · intro a ha
    rw [h'.2 a fun p hp => ha p (List.mem_cons_of_mem c hp)]
    exact h.2 a fun p hp => ha p (List.mem_singleton.1 hp ▸ List.mem_cons_self)

/-- On the panel, the bytes of some cells paint exactly those (20_memory.md R77). -/
theorem receive_drawBytes_paints {k : Params} {rst : LineState} (color : Color) (cells : List (Nat × Nat)) :
    ∀ p : Panel, p.InStep k rst → p.premise k = true → p.gram.wf → onPanel cells →
      paints p.gram ((drawBytes color cells).foldl (fun p w => p.receive k rst w) p).gram cells color := by
  induction cells with
  | nil => exact fun p _ _ _ _ => ⟨nofun, fun _ _ => rfl⟩
  | cons c rest ih =>
    intro p h hp hm on
    obtain ⟨col, row⟩ := c
    obtain ⟨hcol, hrow⟩ := on (col, row) List.mem_cons_self
    have x : (BitVec.ofNat 8 col).toNat = col := Nat.mod_eq_of_lt (by simp only [Config.width] at hcol; omega)
    have y : (BitVec.ofNat 8 row).toNat = row := Nat.mod_eq_of_lt (by simp only [Config.height] at hrow; omega)
    have drawn := receive_setPixel_onPanel h hp (x.symm ▸ Nat.le_of_lt_succ hcol) (y.symm ▸ Nat.le_of_lt_succ hrow)
      color
    have frame := receive_setPixel_withoutDrawing h (BitVec.ofNat 8 col) (BitVec.ofNat 8 row) color
    rw [drawBytes_cons, List.foldl_append]
    refine paints_cons ?_ (ih _ (h.of_withoutDrawing frame) (premise_of_withoutDrawing hp frame) ?_
      fun q hq => on q (List.mem_cons_of_mem _ hq)) on
    · rw [drawn, x, y]
      exact paints_writePixel hm hcol hrow color
    · rw [drawn, x, y]
      exact writePixel_wf hm hcol hrow color

/-- Settles O55: DRAW_CHAR sends its lit cells. -/
theorem drawCharPaintsTheLitCells : Obligations.DrawCharPaintsTheLitCells := by
  intro s x y id color hr hs hp hm hid ho
  have bytes : readyBytes s.params (.drawChar x y id color) = some (drawBytes color (glyphCells s.params x y id)) :=
    congrArg some (drawCharBytes_valid hid s.params x y color)
  have length : (drawBytes color (glyphCells s.params x y id)).length = 8 * (litPixels s.params id).length := by
    rw [drawBytes_length, glyphCells, List.length_map]
  have valid : ¬ drawsNoGlyph (.drawChar x y id color) := by
    rintro ⟨_, _, _, _, e, hid'⟩
    cases e
    exact absurd hid (Nat.not_lt.2 hid')
  rw [← length] at ho
  obtain ⟨l, run⟩ := exec_ready_allOk hr bytes hs.2.1 ho
  refine ⟨_, run, ?_, ?_, receive_drawBytes_paints color _ _ (panel_inStep hs) hp hm⟩
  · exact (readyResult_eq_firstError valid _ _ _).trans (firstError_allOk ho)
  · exact congrArg (fun l => s.trace ++ sent l) (glyphBytes_eq s.params x y id color).symm

end Sys2Proof.Machine
end

section
/-! SUPPORT. Text (42_rasterizer.md R172, R177, R178): the character map, DRAW_STRING with every byte sent, and texts of
unmapped characters. -/

namespace Sys2Proof.Machine

/-! ## The character map -/

/-- The code points without a glyph (42_rasterizer.md R172). -/
theorem codePointMap_eq_none {ch : Nat} :
    codePointMap ch = none ↔ ¬ (0x30 ≤ ch ∧ ch ≤ 0x39) ∧ ch ∉ [0x43, 0x3A, 0xB0, 0x2E, 0x25] := by
  by_cases hd : 0x30 ≤ ch ∧ ch ≤ 0x39
  · simp [codePointMap, hd]
  · simp only [codePointMap, hd, if_false, not_false_eq_true, true_and]
    split
    case h_6 h1 h2 h3 h4 h5 =>
      simp only [List.mem_cons, List.not_mem_nil, or_false, true_iff, not_or]
      exact ⟨h1, h2, h3, h4, h5⟩
    all_goals simp

theorem charMap_eq_none {ch : Nat} (h : ch < 0x110000) :
    charMap ch = none ↔ ¬ (0x30 ≤ ch ∧ ch ≤ 0x39) ∧ ch ∉ [0x43, 0x3A, 0xB0, 0x2E, 0x25] := by
  rw [charMap_codePoint (decide_eq_true h), codePointMap_eq_none]

/-- The digits have the ids 0 to 9. -/
theorem charMap_digit {d : Nat} (h : d < 10) : charMap (0x30 + d) = some d := by
  have digit : 0x30 ≤ 0x30 + d ∧ 0x30 + d ≤ 0x39 := by omega
  rw [charMap_codePoint (decide_eq_true (by omega))]
  simp only [codePointMap, digit, and_self, if_true, Nat.add_sub_cancel_left]

/-! ## DRAW_STRING -/

/-- DRAW_STRING with every byte sent, as the loop from its latches leaves it. -/
theorem exec_drawString_allOk {s : State} {x y : Nat} {text : List CodePoint} {color : Color} (hr : s.readyIdle)
    (hs : s.inStep) (ho : s.oracle.allOk (drawStringBytes s.params x y color text).length) :
    ∃ t, exec (.drawString x y text color) s = .next t ∧ t.E.status = .ok ∧
      t.trace = s.trace ++ sent (drawStringBytes s.params x y color text) ∧
      t.E.latch.curX = x + 7 * (text.filter fun ch => (charMap ch).isSome).length ∧ t.E.latch.curY = y ∧
      t.P = (drawStringBytes s.params x y color text).foldl (fun p w => p.receive s.params s.L.rst w) s.P := by
  obtain ⟨l, hx, hy, run⟩ := drawText_allOk color text (setLatch (textLatch x y text color) (start s)) ho hs.2.1
  rw [exec_ready (k := s.params) hr rfl, readyBody_text, run]
  exact ⟨_, rfl, rfl, rfl, hx, hy, rfl⟩

/-- Settles O56: the map evaluated, and the cells of the text drawn in order. -/
theorem drawStringPaintsTheMappedCharacters : Obligations.DrawStringPaintsTheMappedCharacters := by
  refine ⟨fun d => charMap_digit, by decide, by decide, by decide, by decide, by decide, fun ch hch hd hm => ?_,
    fun s x y text color hr hs hp hm ho => ?_⟩
  · refine (charMap_eq_none hch).2 ⟨fun ⟨h1, h2⟩ => hd (ch - 0x30) (by omega) (by omega), hm⟩
  · obtain ⟨t, hx, hstatus, htrace, hcurX, hcurY, hP⟩ := exec_drawString_allOk hr hs ho
    refine ⟨t, hx, hstatus, htrace, hcurX, hcurY, ?_⟩
    rw [hP, drawStringBytes_eq]
    exact receive_drawBytes_paints color _ _ (panel_inStep hs) hp hm

/-- A text of unmapped characters moves the position in the text only (42_rasterizer.md R178). -/
theorem drawText_unmapped (color : Color) {text : List CodePoint} (h : ∀ ch ∈ text, charMap ch = none) :
    ∀ s, ∃ f, drawText color text s = .returned .ok (setLatch f s) := by
  induction text with
  | nil => exact fun _ => ⟨id, rfl⟩
  | cons ch rest ih =>
    intro s
    obtain ⟨f, hf⟩ := ih (fun c hc => h c (List.mem_cons_of_mem ch hc)) (skipCharacter s)
    rw [drawText, h ch List.mem_cons_self]
    exact ⟨fun l => f { l with textPos := l.textPos + 1 }, hf⟩

theorem drawStringBytes_skip (k : Params) (y : Nat) (color : Color) {ch : CodePoint} (h : charMap ch = none)
    (text text' : List CodePoint) : ∀ x,
    drawStringBytes k x y color (text ++ ch :: text') = drawStringBytes k x y color (text ++ text') := by
  induction text with
  | nil =>
    intro x
    rw [List.nil_append, drawStringBytes, h, List.nil_append]
  | cons c rest ih =>
    intro x
    simp only [List.cons_append, drawStringBytes, ih]

/-- Settles O57: unmapped characters are skipped, in the loop and in the byte list. -/
theorem unmappedCharactersSendNothing : Obligations.UnmappedCharactersSendNothing := by
  refine ⟨fun ch => charMap_eq_none, fun s x y text color hr h => ?_, fun k x y text text' ch color h =>
    drawStringBytes_skip k y color h text text' x⟩
  obtain ⟨f, hf⟩ := drawText_unmapped color h (setLatch (textLatch x y text color) (start s))
  refine ⟨f (textLatch x y text color s.E.latch), ?_⟩
  rw [exec_ready (k := s.params) hr rfl, readyBody_text, hf]
  simp [finish, setLatch, start, hr.2]

end Sys2Proof.Machine
end

section
/-! SUPPORT. Where BEGIN can end (41_engine.md R141, R143, R144, 60_exceptions.md R236): one case split over what its 41
requests are answered, from which its trace, its result and the session it leaves follow. -/

namespace Sys2Proof.Machine

/-- A list of answers either has n answers Ok at its head or a first one that is not. -/
theorem allOk_or_first (o : Oracle) (n : Nat) : o.allOk n ∨ ∃ k < n, o.allOk k ∧ o.answerAt k ≠ .ok := by
  induction n with
  | zero => exact .inl nofun
  | succ n ih =>
    rcases ih with h | ⟨k, hk, h⟩
    · by_cases hn : o.answerAt n = .ok
      · exact .inl fun j hj => (Nat.lt_succ_iff_lt_or_eq.1 hj).elim (h j) fun e => e ▸ hn
      · exact .inr ⟨n, Nat.lt_succ_self n, h, hn⟩
    · exact .inr ⟨k, Nat.lt_succ_of_lt hk, h⟩

/-- The session outside `Ready` (10_state.md R23, R31). -/
def SessionClosed (s : State) : Prop :=
  s.E.fsm = .uninitialized ∧ s.E.handle = false ∧ s.T.bus = .free ∧ s.T.dev = .detached ∧ s.E.displayOn = false

/-- The session in `Ready` (10_state.md R23, R31). -/
def SessionOpen (s : State) : Prop :=
  s.E.fsm = .ready ∧ s.E.handle = true ∧ s.T.bus = .allocated ∧
    (∃ c, s.E.cfg = some c ∧ 0 < c.clockHz ∧ s.T.dev = .attached c.clockHz 0) ∧
    s.L.dc.dir = .output ∧ s.L.rst = ⟨.output, .high⟩

/-- What every BEGIN that answers next has in common. -/
structure BeginEnd (s t : State) : Prop where
  trace : ∃ events, t.trace = s.trace ++ events ∧ Event.level .dc true ∉ events
  status : t.E.busy = false → t.E.status ≠ .err .argumentError
  seq : t.E.busy = false → t.E.seq = 0
  session : t.E.busy = false → SessionClosed s → SessionClosed t ∨ SessionOpen t

theorem sent_commands_low (bytes : List Byte) : Event.level .dc true ∉ sent (bytes.map cmd) := by
  simp [sent, sentEvents, cmd]

/-- BEGIN drives mode-select low only (41_engine.md R153 d). -/
theorem initEvents_low (n : Nat) (c : DisplayConfig) (bytes : List Byte) {tail : List Event}
    (h : Event.level .dc true ∉ tail) :
    Event.level .dc true ∉ (resetEvents n ++ [.busInit, .attach c.clockHz 0]) ++ (sent (bytes.map cmd) ++ tail) := by
  simp only [List.mem_append, not_or]
  exact ⟨⟨by simp [resetEvents], by simp⟩, sent_commands_low bytes, h⟩

theorem begin_byte_end {s t : State} {c : DisplayConfig} {k : Nat} (hf : s.E.fsm = .uninitialized)
    (hb : s.E.busy = false) (hc : 0 < c.clockHz) (hk : k < 39) (ho : s.oracle.allOk (k + 2))
    (hn : s.oracle.answerAt (k + 2) ≠ .ok) (h : execBegin (some c) s = .next t) : BeginEnd s t := by
  cases ha : s.oracle.answerAt (k + 2) with
  | ok => exact absurd ha hn
  | never =>
    rw [begin_byte_never hf hb hc hk ho ha] at h
    cases h
    refine ⟨⟨_, ?_, initEvents_low s.waits c ((initSeq s.params).take k) (tail := [.level .dc false]) (by simp)⟩,
      nofun, nofun, nofun⟩
    simp only [List.append_assoc]
  | err f =>
    rw [begin_byte_err hf hb hc hk ho ha] at h
    cases h
    refine ⟨⟨_, ?_, initEvents_low s.waits c ((initSeq s.params).take k)
      (tail := [.level .dc false, .txFail ((initSeq s.params).getD k 0) f, .detach, .busFree]) (by simp)⟩,
      fun _ => nofun, fun _ => rfl, fun _ _ => .inl ⟨rfl, rfl, rfl, rfl, rfl⟩⟩
    simp only [List.append_assoc]

theorem begin_attach_end {s t : State} {c : DisplayConfig} (hf : s.E.fsm = .uninitialized) (hb : s.E.busy = false)
    (hc : 0 < c.clockHz) (h0 : s.oracle.answerAt 0 = .ok) (hn : s.oracle.answerAt 1 ≠ .ok)
    (h : execBegin (some c) s = .next t) : BeginEnd s t := by
  cases ha : s.oracle.answerAt 1 with
  | ok => exact absurd ha hn
  | never =>
    rw [begin_attach_never hf hb hc h0 ha] at h
    cases h
    exact ⟨⟨_, List.append_assoc _ _ _, by simp [resetEvents]⟩, nofun, nofun, nofun⟩
  | err f =>
    rw [begin_attach_err hf hb hc h0 ha] at h
    cases h
    exact ⟨⟨_, List.append_assoc _ _ _, by simp [resetEvents]⟩, fun _ => nofun, fun _ => rfl,
      fun _ ⟨_, hh, _, hdev, _⟩ => .inl ⟨rfl, hh, rfl, hdev, rfl⟩⟩

theorem begin_bus_end {s t : State} {c : DisplayConfig} (hf : s.E.fsm = .uninitialized) (hb : s.E.busy = false)
    (hc : 0 < c.clockHz) (hn : s.oracle.answerAt 0 ≠ .ok) (h : execBegin (some c) s = .next t) : BeginEnd s t := by
  cases ha : s.oracle.answerAt 0 with
  | ok => exact absurd ha hn
  | never =>
    rw [begin_busInit_never hf hb hc ha] at h
    cases h
    exact ⟨⟨_, rfl, by simp [resetEvents]⟩, nofun, nofun, nofun⟩
  | err f =>
    rw [begin_busInit_err hf hb hc ha] at h
    cases h
    exact ⟨⟨_, rfl, by simp [resetEvents]⟩, fun _ => nofun, fun _ => rfl,
      fun _ ⟨_, hh, hbus, hdev, _⟩ => .inl ⟨rfl, hh, hbus, hdev, rfl⟩⟩

theorem begin_ready_end {s t : State} {c : DisplayConfig} (hf : s.E.fsm = .uninitialized) (hb : s.E.busy = false)
    (hc : 0 < c.clockHz) (ho : s.oracle.allOk 41) (h : execBegin (some c) s = .next t) : BeginEnd s t := by
  rw [begin_allOk hf hb hc ho] at h
  cases h
  refine ⟨⟨_, ?_, initEvents_low s.waits c (initSeq s.params) (tail := []) (by simp)⟩, fun _ => nofun, fun _ => rfl,
    fun _ _ => .inr ⟨rfl, rfl, rfl, ⟨c, rfl, hc, rfl⟩, rfl, rfl⟩⟩
  simp only [List.append_assoc, List.append_nil]

theorem execBegin_end {s t : State} {cfg : Option DisplayConfig} (h : execBegin cfg s = .next t) : BeginEnd s t := by
  obtain ⟨hf, hb⟩ := execBegin_pre h
  cases hv : validConfig cfg with
  | none =>
    rw [execBegin_of_uninitialized hf hb, beginBody, hv] at h
    cases h
    exact ⟨⟨[], (List.append_nil _).symm, List.not_mem_nil⟩, fun _ => nofun, fun _ => rfl, fun _ hs => .inl hs⟩
  | some c =>
    obtain ⟨rfl, hc⟩ := validConfig_eq_some hv
    match allOk_or_first s.oracle 41 with
    | .inl ho => exact begin_ready_end hf hb hc ho h
    | .inr ⟨0, _, _, hn⟩ => exact begin_bus_end hf hb hc hn h
    | .inr ⟨1, _, ho, hn⟩ => exact begin_attach_end hf hb hc (ho 0 Nat.one_pos) hn h
    | .inr ⟨k + 2, hk, ho, hn⟩ => exact begin_byte_end hf hb hc (by omega) ho hn h

/-! ## The data bytes of the operations (20_memory.md R62, R67) -/

/-- The data bytes of some cells are one pixel each, high byte first. -/
theorem drawBytes_data (color : Color) (cells : List (Nat × Nat)) :
    (drawBytes color cells).filter (fun w => w.1) =
      (List.replicate cells.length [(true, color.extractLsb' 8 8), (true, color.extractLsb' 0 8)]).flatten := by
  induction cells with
  | nil => rfl
  | cons c rest ih =>
    rw [drawBytes_cons, List.filter_append, ih, List.length_cons, List.replicate_succ, List.flatten_cons]
    rfl

/-- Settles O51: the drawing operations by their cells; the rest send commands, and so does every BEGIN. -/
theorem pixelsAreSentHighByteFirst : Obligations.PixelsAreSentHighByteFirst := by
  intro k color pixels
  refine ⟨fun x y bytes hb => ?_, fun x y id bytes hb => ?_, fun x y text bytes hb => ?_, fun i bytes hb hi => ?_,
    fun s t cfg h => (execBegin_end h).trace⟩
  · cases hb
    exact ⟨rfl, rfl⟩
  · cases hb
    by_cases hid : id < Config.nGlyph
    · rw [drawCharBytes_valid hid, drawBytes_data, if_pos hid, glyphCells, List.length_map]
    · rw [drawCharBytes_invalid (Nat.le_of_not_lt hid), if_neg hid]
      rfl
  · cases hb
    rw [drawStringBytes_eq, drawBytes_data]
  · rcases hi with rfl | rfl | rfl <;> cases hb <;> rfl

/-! ## Where ArgumentError comes from (60_exceptions.md R234) -/

theorem oracle_firstError_ne_argumentError (o : Oracle) (n : Nat) : o.firstError n ≠ .err .argumentError := by
  induction n generalizing o with
  | zero => exact nofun
  | succ n ih =>
    unfold Oracle.firstError
    split
    · exact nofun
    · exact ih o.rest
    · exact nofun

/-- A host operation other than BEGIN sends bytes. -/
theorem readyBytes_of_host {i : Instr} (hl : i.level = .host) (hi : ∀ cfg, i ≠ .begin cfg) (k : Params) :
    ∃ bytes, readyBytes k i = some bytes := by
  cases i
  case begin cfg => exact absurd rfl (hi cfg)
  case turnOn => exact ⟨_, rfl⟩
  case turnOff => exact ⟨_, rfl⟩
  case clearWindow => exact ⟨_, rfl⟩
  case setPixel => exact ⟨_, rfl⟩
  case drawChar => exact ⟨_, rfl⟩
  case drawString => exact ⟨_, rfl⟩
  all_goals cases hl

/-- A host operation other than BEGIN that answers next was `Ready` and idle. -/
theorem readyIdle_of_host {i : Instr} {s t : State} (hl : i.level = .host) (hi : ∀ cfg, i ≠ .begin cfg)
    (h : exec i s = .next t) : s.readyIdle := by
  obtain ⟨body, hbody⟩ := exec_host hl hi
  exact (whenReady_next (hbody s ▸ h)).1

/-- A host operation other than BEGIN that returned had every request answered. -/
theorem allAnswered_of_returned {i : Instr} {s t : State} {bytes : List WireByte} (hr : s.readyIdle)
    (hb : readyBytes s.params i = some bytes) (h : exec i s = .next t) (hbusy : t.E.busy = false) :
    s.oracle.allAnswered bytes.length := by
  by_contra hn
  obtain ⟨u, l, n, hx, -, -⟩ := exec_ready_never hr hb hn
  cases hx.symm.trans h
  cases hbusy

/-- Settles O53: of the results only DRAW_CHAR's of no glyph is ArgumentError, where STRICT_ARGS holds. -/
theorem invalidGlyphIdIsANoOp : Obligations.InvalidGlyphIdIsANoOp := by
  refine ⟨fun s x y id color hr hid => ⟨glyphLatch x y id color s.E.latch, ?_⟩, fun i s t hl h hbusy hstatus => ?_⟩
  · rw [exec_ready (k := s.params) hr rfl, readyBody_noGlyph hid, start_params]
    simp [finish, setLatch, start, hr.2]
  · by_cases hi : ∃ cfg, i = .begin cfg
    · obtain ⟨cfg, rfl⟩ := hi
      exact absurd hstatus ((execBegin_end h).status hbusy)
    · have hi' : ∀ cfg, i ≠ .begin cfg := fun cfg e => hi ⟨cfg, e⟩
      have hr := readyIdle_of_host hl hi' h
      obtain ⟨bytes, hb⟩ := readyBytes_of_host hl hi' s.params
      obtain ⟨u, hx, -, -⟩ := exec_ready_answered hr hb (allAnswered_of_returned hr hb h hbusy)
      cases hx.symm.trans h
      by_cases hg : drawsNoGlyph i
      · obtain ⟨x, y, id, color, rfl, hid⟩ := hg
        cases (readyBytes_noGlyph hid x y color).symm.trans hb
        rw [finish_E, List.length_nil, readyResult_noGlyph hid] at hstatus
        cases hstrict : s.params.strictArgs with
        | true => exact ⟨rfl, x, y, id, color, rfl, hid⟩
        | false => simp [hstrict] at hstatus
      · rw [finish_E, readyResult_eq_firstError hg] at hstatus
        exact absurd hstatus (oracle_firstError_ne_argumentError _ _)

end Sys2Proof.Machine
end

section
/-! SUPPORT. What stays in `Ready` (41_engine.md R144) and the session invariant (10_state.md R21, R23, R24, R31, R47,
R48). -/

namespace Sys2Proof.Machine

/-! ## No instruction but CONFIGURE leaves `Ready` -/

/-- What of the engine, TRANSPORT and the parameters stays in `Ready`. -/
structure StaysReady (s t : State) : Prop where
  fsm : t.E.fsm = s.E.fsm
  cfg : t.E.cfg = s.E.cfg
  handle : t.E.handle = s.E.handle
  T : t.T = s.T
  params : t.params = s.params

/-- Attempted bytes do not change TRANSPORT. -/
theorem foldl_attempts_T (k : Params) (bytes : List WireByte) : ∀ (o : Oracle) (v : WireSide),
    ((attempts o bytes).foldl (WireSide.event k) v).T = v.T := by
  induction bytes with
  | nil => exact fun _ _ => rfl
  | cons w rest ih =>
    intro o v
    unfold attempts
    split
    · exact ih _ _
    · exact ih _ _
    · rfl

/-- What attempts bytes and no more leaves TRANSPORT as it was. -/
theorem FoldsTrace.T_of_attempts {s t : State} (h : FoldsTrace s t) {o : Oracle} {bytes : List WireByte}
    (ht : t.trace = s.trace ++ attempts o bytes) : t.T = s.T := by
  obtain ⟨-, events, htrace, hside⟩ := h
  obtain rfl : events = attempts o bytes := List.append_cancel_left (htrace.symm.trans ht)
  exact (congrArg WireSide.T hside).trans (foldl_attempts_T _ _ _ _)

theorem exec_host_staysReady {i : Instr} {s t : State} (hl : i.level = .host) (hf : s.E.fsm = .ready)
    (h : exec i s = .next t) : StaysReady s t := by
  have hi : ∀ cfg, i ≠ .begin cfg := by
    rintro cfg rfl
    exact absurd (hf.symm.trans (execBegin_pre h).1) nofun
  have hr := readyIdle_of_host hl hi h
  obtain ⟨bytes, hb⟩ := readyBytes_of_host hl hi s.params
  have folds := (exec_path (by simp [hl]) h).foldsTrace
  by_cases ha : s.oracle.allAnswered bytes.length
  · obtain ⟨u, hx, htrace, hframe⟩ := exec_ready_answered hr hb ha
    obtain ⟨l, hE⟩ := hframe.E
    cases hx.symm.trans h
    exact ⟨by simp [setFlag, hE], by simp [setFlag, hE], by simp [setFlag, hE], hframe.T, folds.1⟩
  · obtain ⟨u, l, n, hx, htrace, hE⟩ := exec_ready_never hr hb ha
    cases hx.symm.trans h
    exact ⟨by simp [hE], by simp [hE], by simp [hE], folds.T_of_attempts htrace, folds.1⟩

theorem concludeCall_send_staysReady {w : WireByte} {s t : State} (h : concludeCall (send w s) = .next t) :
    StaysReady s t := by
  cases hn : s.oracle.next with
  | ok => rw [send_ok hn] at h; cases h; exact ⟨rfl, rfl, rfl, rfl, rfl⟩
  | err f => rw [send_err hn] at h; cases h; exact ⟨rfl, rfl, rfl, rfl, rfl⟩
  | never => rw [send_never hn] at h; cases h; exact ⟨rfl, rfl, rfl, rfl, rfl⟩

theorem exec_staysReady {i : Instr} {s t : State} (hi : ∀ cfg, i ≠ .configure cfg) (hf : s.E.fsm = .ready)
    (h : exec i s = .next t) : StaysReady s t := by
  cases hl : i.level with
  | host => exact exec_host_staysReady hl hf h
  | wire =>
    obtain ⟨bytes, -, hx⟩ := exec_wire hl s
    cases hx.symm.trans h
    exact ⟨rfl, rfl, rfl, rfl, rfl⟩
  | transport =>
    cases i
    case configure cfg => exact absurd rfl (hi cfg)
    case sendCommand b => exact concludeCall_send_staysReady (callSend_next h).2.2
    case sendData b => exact concludeCall_send_staysReady (callSend_next h).2.2
    all_goals cases hl

/-- Settles O8: BEGIN is refused in `Ready`, and what is left sends bytes or reaches PANEL only. -/
theorem noInstructionLeavesReady : Obligations.NoInstructionLeavesReady := by
  intro i s t hi hf h
  obtain ⟨fsm, cfg, handle, hT, params⟩ := exec_staysReady hi hf h
  exact ⟨fsm.trans hf, cfg, handle, hT, params⟩

/-! ## The session invariant -/

theorem emit_panelInv {s : State} (h : PanelInv s) (e : Event) : PanelInv (emit e s) := event_inv h _ _ _

theorem resetPanel_panelInv (s : State) : PanelInv (resetPanel s) := by
  rw [resetPanel_eq]
  exact ⟨drawn_wf _, rfl⟩

theorem sentState_panelInv {s : State} (h : PanelInv s) (w : WireByte) : PanelInv (sentState w s) :=
  emit_panelInv (s := countByte (takeAnswer (setLine .dc w.1 s))) (emit_panelInv h _) _

theorem failedState_panelInv (w : WireByte) (f : TransportFailure) (s : State) : PanelInv (failedState w f s) :=
  ⟨drawn_wf _, drawn_parse_wf _⟩

/-- Every move of a path keeps PANEL's invariants. -/
theorem Path.panelInv {s t : State} (h : Path s t) (hs : PanelInv s) : PanelInv t := by
  induction h with
  | refl => exact hs
  | quiet u _ _ _ _ hP _ _ _ ih => rw [PanelInv, hP]; exact ih
  | drive m _ ih => exact emit_panelInv ih _
  | sent w _ ih => exact sentState_panelInv ih w
  | failed w f _ ih => exact failedState_panelInv w f _
  | pulse _ ih => exact resetPanel_panelInv _
  | busInit _ ih => exact emit_panelInv (resetPanel_panelInv _ : PanelInv (takeAnswer _)) _
  | attach hz mode _ ih => exact emit_panelInv ih _
  | detach _ ih => exact emit_panelInv ih _
  | busFree _ ih => exact emit_panelInv ih _

/-- No move of a path takes or presents a request. -/
theorem Path.inbox {s t : State} (h : Path s t) : t.inbox = s.inbox := by
  induction h with
  | refl => rfl
  | quiet u _ _ _ _ _ hi _ _ ih => exact hi.trans ih
  | pulse _ ih => rw [resetPanel_eq]; exact ih
  | busInit _ ih => rw [resetPanel_eq]; exact ih
  | drive _ _ ih => exact ih
  | sent _ _ ih => exact ih
  | failed _ _ _ ih => exact ih
  | attach _ _ _ ih => exact ih
  | detach _ ih => exact ih
  | busFree _ ih => exact ih

theorem foldl_receive_inv (k : Params) (rst : LineState) (bytes : List WireByte) :
    ∀ p : Panel, (p.gram.wf ∧ p.parse.wf = true) →
      (bytes.foldl (fun p w => p.receive k rst w) p).gram.wf ∧
        (bytes.foldl (fun p w => p.receive k rst w) p).parse.wf = true := by
  induction bytes with
  | nil => exact fun _ h => h
  | cons w rest ih => exact fun p h => ih _ (receive_inv h k rst w)

/-- Outside `Ready` the session is closed, in it open. -/
theorem sessionClosed_of_uninitialized {s : State} (h : SessionInv s) (hb : s.E.busy = false)
    (hf : s.E.fsm = .uninitialized) : SessionClosed s := by
  rcases (h hb).2 with hs | ⟨hready, -⟩
  · exact hs
  · exact absurd (hf.symm.trans hready) nofun

theorem sessionOpen_of_ready {s : State} (h : SessionInv s) (hb : s.E.busy = false) (hf : s.E.fsm = .ready) :
    SessionOpen s := by
  rcases (h hb).2 with ⟨huninit, -⟩ | hs
  · exact absurd (hf.symm.trans huninit) nofun
  · exact hs

/-- A host operation other than BEGIN keeps an open session open. -/
theorem exec_ready_sessionInv {i : Instr} {s t : State} (hl : i.level = .host) (hi : ∀ cfg, i ≠ .begin cfg)
    (hs : SessionInv s) (h : exec i s = .next t) : SessionInv t := by
  intro hbusy
  have hr := readyIdle_of_host hl hi h
  obtain ⟨bytes, hb⟩ := readyBytes_of_host hl hi s.params
  obtain ⟨u, hx, -, hframe⟩ := exec_ready_answered hr hb (allAnswered_of_returned hr hb h hbusy)
  obtain ⟨fsm, handle, bus, ⟨c, hcfg, hc, hdev⟩, hdc, hrst⟩ := sessionOpen_of_ready hs hr.2 hr.1
  have stays := exec_host_staysReady hl hr.1 h
  cases hx.symm.trans h
  refine ⟨rfl, .inr ⟨stays.fsm.trans fsm, stays.handle.trans handle, ?_, ⟨c, stays.cfg.trans hcfg, hc, ?_⟩,
    hframe.dcDir.trans hdc, hframe.rst.trans hrst⟩⟩
  · exact (congrArg Transport.bus stays.T).trans bus
  · exact (congrArg Transport.dev stays.T).trans hdev

theorem exec_begin_sessionInv {cfg : Option DisplayConfig} {s t : State} (hs : SessionInv s)
    (h : execBegin cfg s = .next t) : SessionInv t := by
  intro hbusy
  obtain ⟨hf, hb⟩ := execBegin_pre h
  have done := execBegin_end h
  exact ⟨done.seq hbusy, done.session hbusy (sessionClosed_of_uninitialized hs hb hf)⟩

theorem exec_host_sessionInv {i : Instr} {s t : State} (hl : i.level = .host) (hs : SessionInv s)
    (h : exec i s = .next t) : SessionInv t := by
  by_cases hi : ∃ cfg, i = .begin cfg
  · obtain ⟨cfg, rfl⟩ := hi
    exact exec_begin_sessionInv hs h
  · exact exec_ready_sessionInv hl (fun cfg e => hi ⟨cfg, e⟩) hs h

/-- Every instruction the host's port or the wire can run keeps the invariant. -/
theorem exec_inv {i : Instr} {s t : State} (hl : i.level ≠ .transport) (hs : Inv s) (h : exec i s = .next t) :
    Inv t := by
  obtain ⟨session, panel, calls⟩ := hs
  cases hl' : i.level with
  | transport => exact absurd hl' hl
  | wire =>
    obtain ⟨bytes, -, hx⟩ := exec_wire hl' s
    cases hx.symm.trans h
    exact ⟨session, foldl_receive_inv _ _ bytes _ panel, calls⟩
  | host =>
    have path := exec_path (by simp [hl']) h
    refine ⟨exec_host_sessionInv hl' session h, path.panelInv panel, ?_⟩
    rw [NoCalls, path.inbox]
    exact calls

/-- Settles O3: the step runs an instruction that is no primitive, lets PANEL take a byte or the end of an erase, or
idles. -/
theorem everyStepKeepsTheSessionInvariant : Obligations.EveryStepKeepsTheSessionInvariant := by
  intro s t hs h
  obtain ⟨session, panel, calls⟩ := hs
  obtain ⟨i, s', hf, hx⟩ | hf | rfl := step_next h
  · obtain ⟨inbox, wire, rfl, hsub, hcall⟩ := fetch_run hf
    have hl : i.level ≠ .transport := fun e => by
      obtain ⟨r, hr⟩ := hcall e
      exact calls r hr
    refine exec_inv hl ?_ hx
    exact ⟨session, panel, fun r hr => calls r (hsub r hr)⟩
  · obtain ⟨inbox, wire, p, rfl, hsub, hp⟩ := fetch_taken hf
    refine ⟨session, ?_, fun r hr => calls r (hsub r hr)⟩
    rcases hp with rfl | ⟨w, rfl⟩
    · exact eraseEnd_inv panel _
    · exact receive_inv panel _ _ w
  · exact ⟨session, panel, calls⟩

/-! ## Power-on -/

/-- Settles O1: the power-on table of 10_state.md R52, field by field. -/
theorem powerOnState : Obligations.PowerOnState := ⟨rfl, rfl, rfl, rfl, rfl, rfl, rfl, rfl, rfl, rfl⟩

/-- Settles O2: at power-on the session is closed, PANEL's RAM and parser are empty, nothing is presented, no event
stands in the trace. -/
theorem resetMeetsEveryInvariant : Obligations.ResetMeetsEveryInvariant :=
  ⟨⟨fun _ => ⟨rfl, .inl ⟨rfl, rfl, rfl, rfl, rfl⟩⟩, ⟨drawn_wf 0, rfl⟩, fun _ => List.not_mem_nil⟩,
    resetTimed_of_notMem List.not_mem_nil List.not_mem_nil,
    modeBeforeByte_of_noByte (fun _ => List.not_mem_nil) fun _ _ => List.not_mem_nil⟩

end Sys2Proof.Machine
end
